-- ==== Sys2Proof/Word.lean ====
section
/-! DEFINITION. The value types of 00_scope.md rule R13: bytes, key-schedule words (four bytes, never read as an
integer), blocks (sixteen bytes), and the widths of the host's view. -/

namespace Sys2Proof

/-- A byte (rule R13). -/
abbrev Byte := BitVec 8

/-- A register as the host sees it, 32 bits (rule R33). -/
abbrev Reg32 := BitVec 32

/-- A command word, 64 bits (rule R67). -/
abbrev CmdWord := BitVec 64

/-- A buffer address or a byte count of a command field, 16 bits (rules R12, R69). -/
abbrev Half := BitVec 16

/-- Four bytes in index order: a key-schedule word `w[0] .. w[3]` (rule R13), and a column of a state
(rules R96 and R100 make the one the other). -/
structure Quad where
  b0 : Byte
  b1 : Byte
  b2 : Byte
  b3 : Byte
  deriving DecidableEq, Repr

/-- A block of exactly 16 bytes (rules R6, R13), as the four columns of rule R100: byte `s[k]` is byte `k mod 4`
of column `k div 4`. -/
structure Block where
  c0 : Quad
  c1 : Quad
  c2 : Quad
  c3 : Quad
  deriving DecidableEq, Repr

/-- Four zero bytes. -/
def Quad.zero : Quad := ⟨0, 0, 0, 0⟩

/-- Sixteen zero bytes (the reset value of STATE and CHAIN, rule R45). -/
def Block.zero : Block := ⟨Quad.zero, Quad.zero, Quad.zero, Quad.zero⟩

end Sys2Proof
end

