-- ==== Sys2Proof/Config.lean ====
section
/-! DEFINITION. What an implementation fixes (BUF_BYTES and BASE, 00_scope.md rules R10 and R11) and the free
values of an unwritten buffer byte (20_memory.md rule R51). -/

namespace Sys2Proof

/-- The two parameters of the machine (93_implementation_defined.md U1, U2). No step changes them. -/
structure Config where
  /-- BUF_BYTES, the size of the data buffer in bytes (rule R10). -/
  bufBytes : Nat
  /-- BASE, the platform address of the window (rule R11). -/
  base : Nat
  deriving DecidableEq, Repr

/-- The values the parameters may take: `256 ≤ BUF_BYTES ≤ 65536`, BUF_BYTES a multiple of 16 (rule R10), BASE a
multiple of 0x20000 (rule R11). -/
abbrev Config.Legal (c : Config) : Prop :=
  256 ≤ c.bufBytes ∧ c.bufBytes ≤ 65536 ∧ c.bufBytes % 16 = 0 ∧ c.base % 0x20000 = 0

/-- The default BUF_BYTES of rule R10. BASE has no default: 0 is a DESIGN CHOICE (log entry 2). -/
def Config.default : Config := { bufBytes := 4096, base := 0 }

/-- The value a read of a never written buffer byte gives, one for each draw (rule R51): it has no body, so no
proof can see a value of it. -/
opaque Config.freeByte : Nat → Byte

end Sys2Proof
end

