-- ==== Sys2Proof/Machine/State.lean ====
section
/-! DEFINITION. The state of AES-core: everything 10_state.md gives the machine, the data buffer of 20_memory.md,
and three fields of the model's own (`draws`, `schedule`, `readData`), as plain data; and its value after a hard
reset (10_state.md rule R45, 70_reset_and_hazards.md rule R174). -/

namespace Sys2Proof.Machine

/-- Reasons the machine stops with a fault: none. A host-protocol violation sets the FAULT bit and the machine goes
on (60_exceptions.md rules R162, R163), so it is a next state. An empty type adds no behaviour: safe. -/
inductive Fault where
  deriving DecidableEq, Repr

/-- Reasons a step has no meaning. -/
inductive Refusal where
  /-- Raised by a refused arm of `exec` for an instruction that has no meaning yet; no arm is refused in this model.
  Safe: the machine stops. -/
  | notModelled (mnemonic : String)
  deriving DecidableEq, Repr

/-- The result codes of 60_exceptions.md rule R155. Codes 7 to 15 are never written (93 U8), so they have no name. -/
inductive ErrCode where
  /-- 0 OK -/
  | ok
  /-- 1 InvalidKeyLength -/
  | invalidKeyLength
  /-- 2 InvalidBlockLength -/
  | invalidBlockLength
  /-- 3 InvalidPadding -/
  | invalidPadding
  /-- 4 NoKey -/
  | noKey
  /-- 5 IllegalCommand -/
  | illegalCommand
  /-- 6 BufferRange -/
  | bufferRange
  deriving DecidableEq, Repr

/-- The key status (10_state.md rule R24): KV, KEYLEN, NK, NR. -/
structure KeyStatus where
  /-- KV: an expanded key is present. -/
  kv : Bool
  /-- KEYLEN: 0, 16, 24 or 32. -/
  keyLen : BitVec 6
  /-- NK: 0, 4, 6 or 8. -/
  nk : BitVec 4
  /-- NR: 0, 10, 12 or 14. -/
  nr : BitVec 4
  deriving DecidableEq, Repr

/-- One host access (20_memory.md rules R53, R54): its width in bits, of any value, since an access of another width
is a protocol violation and not an impossibility; its platform address; the value written. -/
inductive Access where
  /-- A read. -/
  | read (width addr : Nat)
  /-- A write; an access of fewer than 32 bits writes the low bits of `value`. -/
  | write (width addr : Nat) (value : Reg32)
  deriving DecidableEq, Repr

/-- One turn of an agent (10_state.md rule R19), or the platform's reset input (70_reset_and_hazards.md rule R174). -/
inductive Turn where
  /-- The host makes one access. -/
  | host (a : Access)
  /-- The core takes its step, if it is enabled. -/
  | core
  /-- A hard reset. -/
  | hardReset
  deriving DecidableEq, Repr

/-- The data buffer (20_memory.md rule R47): the bytes written since hard reset, addresses strictly rising. An
address that is not listed has never been written, and a read of it gives a fresh free value (rule R51). -/
abbrev Memory := List Host.Cell

/-- The whole machine. -/
structure State where
  /-- The parameters BUF_BYTES and BASE (00_scope.md rules R10, R11); no step changes them. -/
  config : Config
  /-- STATE (rule R21). -/
  block : Block
  /-- CHAIN (rule R22). -/
  chain : Block
  /-- W[0..59], the expanded-key memory (rule R23). -/
  w : List Quad
  /-- KV, KEYLEN, NK, NR (rule R24). -/
  key : KeyStatus
  /-- OUTLEN (rule R25). -/
  outlen : BitVec 17
  /-- RESULT (rule R26). -/
  result : Byte
  /-- BUSY (rule R27). -/
  busy : Bool
  /-- ERR (rule R28). -/
  err : ErrCode
  /-- ERRSEEN (rule R29). -/
  errSeen : Bool
  /-- FAULT (rule R30). -/
  fault : Bool
  /-- CMD_LO (rule R31). -/
  cmdLo : Reg32
  /-- CMD_HI (rule R31). -/
  cmdHi : Reg32
  /-- PENDING, the command being executed (rule R31). -/
  pending : CmdWord
  /-- The data buffer (20_memory.md rule R47). -/
  buffer : Memory
  /-- The MODEL's own: how many free values have been drawn (20_memory.md rule R51; log entry 5). -/
  draws : Nat
  /-- The MODEL's own: the turns still to come, the interleaving of 20_memory.md rule R62 (log entry 6). -/
  schedule : List Turn
  /-- The MODEL's own: the value the last host read returned (log entry 7). -/
  readData : Reg32
  deriving DecidableEq, Repr

/-- The key status after reset: no key (rule R45). -/
def KeyStatus.none : KeyStatus := { kv := false, keyLen := 0, nk := 0, nr := 0 }

/-- W after a hard reset. The spec leaves the words unspecified and unobservable; zeros are a DESIGN CHOICE (rule
R23, log entry 3). -/
def resetW : List Quad := List.replicate 60 Quad.zero

/-- The state right after a hard reset of a machine with these parameters (rules R45, R174). -/
def State.resetOf (c : Config) : State where
  config := c
  block := Block.zero
  chain := Block.zero
  w := resetW
  key := KeyStatus.none
  outlen := 0
  result := 0
  busy := false
  err := .ok
  errSeen := false
  fault := false
  cmdLo := 0
  cmdHi := 0
  pending := 0
  buffer := []
  draws := 0
  schedule := []
  readData := 0

/-- The machine right after reset, with the default parameters (rules R10, R45). -/
def State.reset : State := State.resetOf Config.default

end Sys2Proof.Machine
end

