-- ==== Sys2Proof/Machine/Flags.lean ====
section
/-! DEFINITION. The status bits: the numbers of the error codes (60_exceptions.md rule R155), the STATUS and KEYCFG
words (10_state.md rules R35, R40), and what the completion step does to ERR, ERRSEEN and BUSY (60_exceptions.md
rule R161). -/

namespace Sys2Proof.Machine

/-- The number of a result code (rule R155). -/
def errBits : ErrCode → BitVec 4
  | .ok => 0
  | .invalidKeyLength => 1
  | .invalidBlockLength => 2
  | .invalidPadding => 3
  | .noKey => 4
  | .illegalCommand => 5
  | .bufferRange => 6

/-- What STATUS reads (rule R35): BUSY in bit 0, KV in bit 1, ERR in bits 11:8, ERRSEEN in bit 16, FAULT in bit 17,
zeros elsewhere. -/
def statusWord (s : State) : Reg32 :=
  (0 : BitVec 14) ++ BitVec.ofBool s.fault ++ BitVec.ofBool s.errSeen ++ (0 : BitVec 4) ++ errBits s.err ++
    (0 : BitVec 6) ++ BitVec.ofBool s.key.kv ++ BitVec.ofBool s.busy

/-- What KEYCFG reads (rule R40): KEYLEN in bits 5:0, NK in bits 11:8, NR in bits 19:16, zeros elsewhere. -/
def keycfgWord (s : State) : Reg32 :=
  (0 : BitVec 12) ++ s.key.nr ++ (0 : BitVec 4) ++ s.key.nk ++ (0 : BitVec 2) ++ s.key.keyLen

/-- ERRSEEN after a completion with this code (rule R29): set by a nonzero code, else kept. -/
def errSeenAfter (e : ErrCode) (seen : Bool) : Bool :=
  match e with
  | .ok => seen
  | _ => true

/-- The completion step's own writes (rule R161): ERR, ERRSEEN, BUSY. -/
def complete (e : ErrCode) (s : State) : State :=
  { s with err := e, errSeen := errSeenAfter e s.errSeen, busy := false }

end Sys2Proof.Machine
end

