-- ==== Sys2Proof/Syntax.lean ====
section
/-! DEFINITION. The 25 commands of spec/opcode_table.json, with the fields each one uses (30_encoding.md rule R72).
The operands stand in the order of the assembler's lines (rule R75). -/

namespace Sys2Proof

/-- One constructor per row of the opcode table. A field a command does not use is not an argument of it. -/
inductive Instr where
  /-- NOP (rule R151). -/
  | nop
  /-- KEYEXP SRC, LEN (rule R98). -/
  | keyexp (src len : Half)
  /-- STRK DST, R (rule R99). -/
  | strk (dst : Half) (r : Byte)
  /-- LDST SRC (rule R109). -/
  | ldst (src : Half)
  /-- STST DST (rule R110). -/
  | stst (dst : Half)
  /-- LDIV SRC, LEN (rule R136). -/
  | ldiv (src len : Half)
  /-- STIV DST (rule R137). -/
  | stiv (dst : Half)
  /-- SUBB (rule R111). -/
  | subb
  /-- INVSUBB (rule R112). -/
  | invsubb
  /-- SHROW (rule R113). -/
  | shrow
  /-- INVSHROW (rule R114). -/
  | invshrow
  /-- MIXCOL (rule R115). -/
  | mixcol
  /-- INVMIXCOL (rule R116). -/
  | invmixcol
  /-- ARK R (rule R117). -/
  | ark (r : Byte)
  /-- ENCBLK (rule R124). -/
  | encblk
  /-- DECBLK (rule R125). -/
  | decblk
  /-- ECBENC DST, SRC, LEN (rule R139). -/
  | ecbenc (dst src len : Half)
  /-- ECBDEC DST, SRC, LEN (rule R140). -/
  | ecbdec (dst src len : Half)
  /-- CBCENC DST, SRC, LEN (rule R141). -/
  | cbcenc (dst src len : Half)
  /-- CBCDEC DST, SRC, LEN (rule R142). -/
  | cbcdec (dst src len : Half)
  /-- PAD DST, SRC, LEN, BS (rule R148). -/
  | pad (dst src len : Half) (bs : Byte)
  /-- UNPAD SRC, LEN, BS (rule R149). -/
  | unpad (src len : Half) (bs : Byte)
  /-- GFMUL A, B (rule R87). -/
  | gfmul (a b : Byte)
  /-- SBOX A (rule R88). -/
  | sbox (a : Byte)
  /-- INVSBOX A (rule R89). -/
  | invsbox (a : Byte)
  deriving DecidableEq, Repr

end Sys2Proof
end

