-- ==== Sys2Proof/WellFormed.lean ====
section
/-! DEFINITION. Which terms of `Instr` are commands: the two checks on IMM8 that decoding makes (30_encoding.md
rule R73). Every field width is already in the types. -/

namespace Sys2Proof

/-- A block size is legal when it is not 0 (rules R73, R143: 1..255). -/
def blockSizeOk (bs : Byte) : Bool := bs != 0

/-- A round index can be encoded when it is at most 14 (rules R71, R73). -/
def roundIndexOk (r : Byte) : Bool := decide (r.toNat ≤ 14)

/-- The command passes the IMM8 checks of decoding (rule R73). -/
def Instr.wellFormed : Instr → Bool
  | .nop => true
  | .keyexp _ _ => true
  | .strk _ r => roundIndexOk r
  | .ldst _ => true
  | .stst _ => true
  | .ldiv _ _ => true
  | .stiv _ => true
  | .subb => true
  | .invsubb => true
  | .shrow => true
  | .invshrow => true
  | .mixcol => true
  | .invmixcol => true
  | .ark r => roundIndexOk r
  | .encblk => true
  | .decblk => true
  | .ecbenc _ _ _ => true
  | .ecbdec _ _ _ => true
  | .cbcenc _ _ _ => true
  | .cbcdec _ _ _ => true
  | .pad _ _ _ bs => blockSizeOk bs
  | .unpad _ _ bs => blockSizeOk bs
  | .gfmul _ _ => true
  | .sbox _ => true
  | .invsbox _ => true

end Sys2Proof
end

