-- ==== Sys2Proof/Decode.lean ====
section
/-! DEFINITION. The command word: its fields (30_encoding.md rules R69, R70, R71), decoding (rules R72, R73, R74),
and the encoder written from the same tables. -/

namespace Sys2Proof

/-! ## Fields -/

/-- OPC, bits 7:0 of every word (rule R67). -/
def opcOf (w : CmdWord) : Byte := w.extractLsb' 0 8

/-- IMM8, bits 15:8 of Format M (rule R69). -/
def imm8Of (w : CmdWord) : Byte := w.extractLsb' 8 8

/-- LEN, bits 31:16 of Format M (rule R69). -/
def lenOf (w : CmdWord) : Half := w.extractLsb' 16 16

/-- SRC, bits 47:32 of Format M (rule R69). -/
def srcOf (w : CmdWord) : Half := w.extractLsb' 32 16

/-- DST, bits 63:48 of Format M (rule R69). -/
def dstOf (w : CmdWord) : Half := w.extractLsb' 48 16

/-- A, bits 15:8 of Format B (rule R70). -/
def aOf (w : CmdWord) : Byte := w.extractLsb' 8 8

/-- B, bits 23:16 of Format B (rule R70). -/
def bOf (w : CmdWord) : Byte := w.extractLsb' 16 8

/-- RSV, bits 63:24 of Format B (rule R70). -/
def rsvOf (w : CmdWord) : BitVec 40 := w.extractLsb' 24 40

/-! ## Decoding -/

/-- Why a word is no command. Every reason raises IllegalCommand (rules R73, R74). -/
inductive Illegal where
  /-- No row of rule R72 has this opcode. -/
  | reservedOpcode
  /-- A field the command does not use is not zero. -/
  | unusedFieldNotZero
  /-- PAD or UNPAD with IMM8 = 0. -/
  | blockSizeZero
  /-- ARK or STRK with IMM8 > 14. -/
  | roundIndexAbove14
  deriving DecidableEq, Repr

/-- What decoding a word gives. -/
inductive Decoded where
  /-- The word is this command. -/
  | command (i : Instr)
  /-- The word is no command (rule R73: raise IllegalCommand). -/
  | illegal (why : Illegal)
  deriving DecidableEq, Repr

/-- The command of a decoded word, if it is one. -/
def Decoded.instr? : Decoded → Option Instr
  | .command i => some i
  | .illegal _ => none

/-- The second check of rule R73: the fields the command does not use are zero. -/
def unusedZero (zero : Bool) (i : Decoded) : Decoded :=
  if zero then i else .illegal .unusedFieldNotZero

/-- The third check of rule R73, for PAD and UNPAD. -/
def checkBlockSize (bs : Byte) (i : Instr) : Decoded :=
  if blockSizeOk bs then .command i else .illegal .blockSizeZero

/-- The fourth check of rule R73, for ARK and STRK. -/
def checkRoundIndex (r : Byte) (i : Instr) : Decoded :=
  if roundIndexOk r then .command i else .illegal .roundIndexAbove14

/-- No field of Format M but OPC is used. -/
def noFields (w : CmdWord) : Bool := imm8Of w == 0 && lenOf w == 0 && srcOf w == 0 && dstOf w == 0

/-- `Decode(word)` of rule R73, total on every 64-bit word: the row of rule R72, then its unused fields, then IMM8. -/
def decode (w : CmdWord) : Decoded :=
  match (opcOf w).toNat with
  | 0x00 => unusedZero (noFields w) (.command .nop)
  | 0x01 => unusedZero (dstOf w == 0 && imm8Of w == 0) (.command (.keyexp (srcOf w) (lenOf w)))
  | 0x02 => unusedZero (srcOf w == 0 && lenOf w == 0) (checkRoundIndex (imm8Of w) (.strk (dstOf w) (imm8Of w)))
  | 0x10 => unusedZero (dstOf w == 0 && lenOf w == 0 && imm8Of w == 0) (.command (.ldst (srcOf w)))
  | 0x11 => unusedZero (srcOf w == 0 && lenOf w == 0 && imm8Of w == 0) (.command (.stst (dstOf w)))
  | 0x12 => unusedZero (dstOf w == 0 && imm8Of w == 0) (.command (.ldiv (srcOf w) (lenOf w)))
  | 0x13 => unusedZero (srcOf w == 0 && lenOf w == 0 && imm8Of w == 0) (.command (.stiv (dstOf w)))
  | 0x20 => unusedZero (noFields w) (.command .subb)
  | 0x21 => unusedZero (noFields w) (.command .invsubb)
  | 0x22 => unusedZero (noFields w) (.command .shrow)
  | 0x23 => unusedZero (noFields w) (.command .invshrow)
  | 0x24 => unusedZero (noFields w) (.command .mixcol)
  | 0x25 => unusedZero (noFields w) (.command .invmixcol)
  | 0x26 => unusedZero (dstOf w == 0 && srcOf w == 0 && lenOf w == 0) (checkRoundIndex (imm8Of w) (.ark (imm8Of w)))
  | 0x30 => unusedZero (noFields w) (.command .encblk)
  | 0x31 => unusedZero (noFields w) (.command .decblk)
  | 0x40 => unusedZero (imm8Of w == 0) (.command (.ecbenc (dstOf w) (srcOf w) (lenOf w)))
  | 0x41 => unusedZero (imm8Of w == 0) (.command (.ecbdec (dstOf w) (srcOf w) (lenOf w)))
  | 0x42 => unusedZero (imm8Of w == 0) (.command (.cbcenc (dstOf w) (srcOf w) (lenOf w)))
  | 0x43 => unusedZero (imm8Of w == 0) (.command (.cbcdec (dstOf w) (srcOf w) (lenOf w)))
  | 0x50 => checkBlockSize (imm8Of w) (.pad (dstOf w) (srcOf w) (lenOf w) (imm8Of w))
  | 0x51 => unusedZero (dstOf w == 0) (checkBlockSize (imm8Of w) (.unpad (srcOf w) (lenOf w) (imm8Of w)))
  | 0x60 => unusedZero (rsvOf w == 0) (.command (.gfmul (aOf w) (bOf w)))
  | 0x61 => unusedZero (rsvOf w == 0 && bOf w == 0) (.command (.sbox (aOf w)))
  | 0x62 => unusedZero (rsvOf w == 0 && bOf w == 0) (.command (.invsbox (aOf w)))
  | _ => .illegal .reservedOpcode

/-! ## Encoding -/

/-- A Format M word from its fields (rule R69). -/
def packM (opc imm8 : Byte) (len src dst : Half) : CmdWord := dst ++ src ++ len ++ imm8 ++ opc

/-- A Format B word from its fields, RSV zero (rule R70). -/
def packB (opc a b : Byte) : CmdWord := (0 : BitVec 40) ++ b ++ a ++ opc

/-- The word of a command: its opcode, its used fields, zeros elsewhere (rule R72). -/
def encode : Instr → CmdWord
  | .nop => packM 0x00 0 0 0 0
  | .keyexp src len => packM 0x01 0 len src 0
  | .strk dst r => packM 0x02 r 0 0 dst
  | .ldst src => packM 0x10 0 0 src 0
  | .stst dst => packM 0x11 0 0 0 dst
  | .ldiv src len => packM 0x12 0 len src 0
  | .stiv dst => packM 0x13 0 0 0 dst
  | .subb => packM 0x20 0 0 0 0
  | .invsubb => packM 0x21 0 0 0 0
  | .shrow => packM 0x22 0 0 0 0
  | .invshrow => packM 0x23 0 0 0 0
  | .mixcol => packM 0x24 0 0 0 0
  | .invmixcol => packM 0x25 0 0 0 0
  | .ark r => packM 0x26 r 0 0 0
  | .encblk => packM 0x30 0 0 0 0
  | .decblk => packM 0x31 0 0 0 0
  | .ecbenc dst src len => packM 0x40 0 len src dst
  | .ecbdec dst src len => packM 0x41 0 len src dst
  | .cbcenc dst src len => packM 0x42 0 len src dst
  | .cbcdec dst src len => packM 0x43 0 len src dst
  | .pad dst src len bs => packM 0x50 bs len src dst
  | .unpad src len bs => packM 0x51 bs len src 0
  | .gfmul a b => packB 0x60 a b
  | .sbox a => packB 0x61 a 0
  | .invsbox a => packB 0x62 a 0

/-! ## The mask column of the opcode table -/

/-- `mask(X)` of rule R72: the opcode and every field the command does not use. -/
def maskOf : Instr → CmdWord
  | .nop => 0xFFFFFFFFFFFFFFFF
  | .keyexp _ _ => 0xFFFF00000000FFFF
  | .strk _ _ => 0x0000FFFFFFFF00FF
  | .ldst _ => 0xFFFF0000FFFFFFFF
  | .stst _ => 0x0000FFFFFFFFFFFF
  | .ldiv _ _ => 0xFFFF00000000FFFF
  | .stiv _ => 0x0000FFFFFFFFFFFF
  | .subb => 0xFFFFFFFFFFFFFFFF
  | .invsubb => 0xFFFFFFFFFFFFFFFF
  | .shrow => 0xFFFFFFFFFFFFFFFF
  | .invshrow => 0xFFFFFFFFFFFFFFFF
  | .mixcol => 0xFFFFFFFFFFFFFFFF
  | .invmixcol => 0xFFFFFFFFFFFFFFFF
  | .ark _ => 0xFFFFFFFFFFFF00FF
  | .encblk => 0xFFFFFFFFFFFFFFFF
  | .decblk => 0xFFFFFFFFFFFFFFFF
  | .ecbenc _ _ _ => 0x000000000000FFFF
  | .ecbdec _ _ _ => 0x000000000000FFFF
  | .cbcenc _ _ _ => 0x000000000000FFFF
  | .cbcdec _ _ _ => 0x000000000000FFFF
  | .pad _ _ _ _ => 0x00000000000000FF
  | .unpad _ _ _ => 0xFFFF0000000000FF
  | .gfmul _ _ => 0xFFFFFFFFFF0000FF
  | .sbox _ => 0xFFFFFFFFFFFF00FF
  | .invsbox _ => 0xFFFFFFFFFFFF00FF

/-- `match(X)` of rule R72: the opcode in bits 7:0, zeros elsewhere. -/
def matchOf : Instr → CmdWord
  | .nop => 0x00
  | .keyexp _ _ => 0x01
  | .strk _ _ => 0x02
  | .ldst _ => 0x10
  | .stst _ => 0x11
  | .ldiv _ _ => 0x12
  | .stiv _ => 0x13
  | .subb => 0x20
  | .invsubb => 0x21
  | .shrow => 0x22
  | .invshrow => 0x23
  | .mixcol => 0x24
  | .invmixcol => 0x25
  | .ark _ => 0x26
  | .encblk => 0x30
  | .decblk => 0x31
  | .ecbenc _ _ _ => 0x40
  | .ecbdec _ _ _ => 0x41
  | .cbcenc _ _ _ => 0x42
  | .cbcdec _ _ _ => 0x43
  | .pad _ _ _ _ => 0x50
  | .unpad _ _ _ => 0x51
  | .gfmul _ _ => 0x60
  | .sbox _ => 0x61
  | .invsbox _ => 0x62

/-- The same command with its used fields taken from `w` (rule R71: straight from the bits). -/
def Instr.withFieldsOf (w : CmdWord) : Instr → Instr
  | .nop => .nop
  | .keyexp _ _ => .keyexp (srcOf w) (lenOf w)
  | .strk _ _ => .strk (dstOf w) (imm8Of w)
  | .ldst _ => .ldst (srcOf w)
  | .stst _ => .stst (dstOf w)
  | .ldiv _ _ => .ldiv (srcOf w) (lenOf w)
  | .stiv _ => .stiv (dstOf w)
  | .subb => .subb
  | .invsubb => .invsubb
  | .shrow => .shrow
  | .invshrow => .invshrow
  | .mixcol => .mixcol
  | .invmixcol => .invmixcol
  | .ark _ => .ark (imm8Of w)
  | .encblk => .encblk
  | .decblk => .decblk
  | .ecbenc _ _ _ => .ecbenc (dstOf w) (srcOf w) (lenOf w)
  | .ecbdec _ _ _ => .ecbdec (dstOf w) (srcOf w) (lenOf w)
  | .cbcenc _ _ _ => .cbcenc (dstOf w) (srcOf w) (lenOf w)
  | .cbcdec _ _ _ => .cbcdec (dstOf w) (srcOf w) (lenOf w)
  | .pad _ _ _ _ => .pad (dstOf w) (srcOf w) (lenOf w) (imm8Of w)
  | .unpad _ _ _ => .unpad (srcOf w) (lenOf w) (imm8Of w)
  | .gfmul _ _ => .gfmul (aOf w) (bOf w)
  | .sbox _ => .sbox (aOf w)
  | .invsbox _ => .invsbox (aOf w)

/-! ## The host's question -/

/-- The instruction the decoder reads from the word whose low `nbits` bits are those of `w` and whose bits above are
zero (bit 0 is bit 0 of the command word, rules R14 and R67). -/
def decodeTableWord (nbits w : Nat) : Option Instr := (decode (BitVec.ofNat 64 (w % 2 ^ nbits))).instr?

end Sys2Proof
end

