-- ==== Sys2Proof/Machine/Bytes.lean ====
section
/-! DEFINITION. Byte strings, words and blocks (00_scope.md rules R13, R14; 42_round_transforms.md rule R100), and
the little-endian view of host accesses (20_memory.md rule R52). -/

namespace Sys2Proof.Machine

/-- Byte `i` of a word, i in 0..3. -/
def quadByte (t : Quad) (i : Nat) : Byte :=
  match i with
  | 0 => t.b0
  | 1 => t.b1
  | 2 => t.b2
  | _ => t.b3

/-- Column `c` of a block, c in 0..3. -/
def blockColumn (s : Block) (c : Nat) : Quad :=
  match c with
  | 0 => s.c0
  | 1 => s.c1
  | 2 => s.c2
  | _ => s.c3

/-- Byte `s[k]` of a block, k in 0..15: row `k mod 4`, column `k div 4` (rule R100). -/
def blockByte (s : Block) (k : Nat) : Byte := quadByte (blockColumn s (k / 4)) (k % 4)

/-- `⊕` on words, byte by byte (rule R14). -/
def quadXor (s t : Quad) : Quad := ⟨s.b0 ^^^ t.b0, s.b1 ^^^ t.b1, s.b2 ^^^ t.b2, s.b3 ^^^ t.b3⟩

/-- `⊕` on blocks, byte by byte (rule R14). -/
def blockXor (s t : Block) : Block :=
  ⟨quadXor s.c0 t.c0, quadXor s.c1 t.c1, quadXor s.c2 t.c2, quadXor s.c3 t.c3⟩

/-- Apply a byte function to every byte of a word. -/
def quadMap (f : Byte → Byte) (t : Quad) : Quad := ⟨f t.b0, f t.b1, f t.b2, f t.b3⟩

/-- Apply a byte function to every byte of a block. -/
def blockMap (f : Byte → Byte) (s : Block) : Block :=
  ⟨quadMap f s.c0, quadMap f s.c1, quadMap f s.c2, quadMap f s.c3⟩

/-- The four bytes of a word in index order. -/
def quadBytes (t : Quad) : List Byte := [t.b0, t.b1, t.b2, t.b3]

/-- The sixteen bytes of a block in index order (rule R49: byte i is at the i-th address). -/
def blockBytes (s : Block) : List Byte := quadBytes s.c0 ++ quadBytes s.c1 ++ quadBytes s.c2 ++ quadBytes s.c3

/-- The word of the first four bytes of a string (used only on strings that have them). -/
def quadOf (l : List Byte) : Quad := ⟨l.getD 0 0, l.getD 1 0, l.getD 2 0, l.getD 3 0⟩

/-- The block of the first sixteen bytes of a string (used only on strings that have them; rule R100). -/
def blockOf (l : List Byte) : Block :=
  ⟨quadOf l, quadOf (l.drop 4), quadOf (l.drop 8), quadOf (l.drop 12)⟩

/-- The first `n` words of a string: word i is bytes 4i..4i+3 (41_key_schedule.md rule R90). -/
def wordsOf : Nat → List Byte → List Quad
  | 0, _ => []
  | n + 1, l => quadOf l :: wordsOf n (l.drop 4)

/-- The first `n` blocks of a string: block i is `P[16i .. 16i+16)` (44_modes.md section 1). -/
def blocksOf : Nat → List Byte → List Block
  | 0, _ => []
  | n + 1, l => blockOf l :: blocksOf n (l.drop 16)

/-- The byte string of a sequence of blocks. -/
def bytesOfBlocks : List Block → List Byte
  | [] => []
  | b :: bs => blockBytes b ++ bytesOfBlocks bs

/-- The low `n` bytes of a written value in address order, low byte first (rule R52). -/
def littleEndianBytes : Nat → Reg32 → List Byte
  | 0, _ => []
  | n + 1, v => v.setWidth 8 :: littleEndianBytes n (v >>> 8)

/-- The value a read of these bytes returns, the first byte in bits 7:0 (rule R52). -/
def littleEndianValue : List Byte → Reg32
  | [] => 0
  | b :: bs => (littleEndianValue bs <<< 8) ||| b.setWidth 32

end Sys2Proof.Machine
end

