-- ==== Sys2Proof/Machine/Operands.lean ====
section
/-! DEFINITION. The operand forms of the commands (30_encoding.md rule R71): which buffer range each command reads
and which it writes (20_memory.md rule R57), and which commands need a key (30_encoding.md rule R72). -/

namespace Sys2Proof.Machine

/-- A buffer range: first address and length in bytes. -/
abbrev Range := Nat × Nat

/-- `n = bs - (L mod bs)`, the number of bytes PAD appends (45_padding.md rule R143). -/
def padCount (len : Nat) (bs : Byte) : Nat := bs.toNat - len % bs.toNat

/-- The "reads" column of rule R57. -/
def srcRange : Instr → Option Range
  | .nop => none
  | .keyexp src len => some (src.toNat, len.toNat)
  | .strk _ _ => none
  | .ldst src => some (src.toNat, 16)
  | .stst _ => none
  | .ldiv src _ => some (src.toNat, 16)
  | .stiv _ => none
  | .subb => none
  | .invsubb => none
  | .shrow => none
  | .invshrow => none
  | .mixcol => none
  | .invmixcol => none
  | .ark _ => none
  | .encblk => none
  | .decblk => none
  | .ecbenc _ src len => some (src.toNat, len.toNat)
  | .ecbdec _ src len => some (src.toNat, len.toNat)
  | .cbcenc _ src len => some (src.toNat, len.toNat)
  | .cbcdec _ src len => some (src.toNat, len.toNat)
  | .pad _ src len _ => some (src.toNat, len.toNat)
  | .unpad src len _ => some (src.toNat, len.toNat)
  | .gfmul _ _ => none
  | .sbox _ => none
  | .invsbox _ => none

/-- The "writes" column of rule R57. -/
def dstRange : Instr → Option Range
  | .nop => none
  | .keyexp _ _ => none
  | .strk dst _ => some (dst.toNat, 16)
  | .ldst _ => none
  | .stst dst => some (dst.toNat, 16)
  | .ldiv _ _ => none
  | .stiv dst => some (dst.toNat, 16)
  | .subb => none
  | .invsubb => none
  | .shrow => none
  | .invshrow => none
  | .mixcol => none
  | .invmixcol => none
  | .ark _ => none
  | .encblk => none
  | .decblk => none
  | .ecbenc dst _ len => some (dst.toNat, len.toNat)
  | .ecbdec dst _ len => some (dst.toNat, len.toNat)
  | .cbcenc dst _ len => some (dst.toNat, len.toNat)
  | .cbcdec dst _ len => some (dst.toNat, len.toNat)
  | .pad dst _ len bs => some (dst.toNat, len.toNat + padCount len.toNat bs)
  | .unpad _ _ _ => none
  | .gfmul _ _ => none
  | .sbox _ => none
  | .invsbox _ => none

/-- The "key" column of rule R72: the command raises NoKey when KV = 0 (60_exceptions.md rule R157). -/
def needsKey : Instr → Bool
  | .nop => false
  | .keyexp _ _ => false
  | .strk _ _ => true
  | .ldst _ => false
  | .stst _ => false
  | .ldiv _ _ => false
  | .stiv _ => false
  | .subb => false
  | .invsubb => false
  | .shrow => false
  | .invshrow => false
  | .mixcol => false
  | .invmixcol => false
  | .ark _ => true
  | .encblk => true
  | .decblk => true
  | .ecbenc _ _ _ => true
  | .ecbdec _ _ _ => true
  | .cbcenc _ _ _ => true
  | .cbcdec _ _ _ => true
  | .pad _ _ _ _ => false
  | .unpad _ _ _ => false
  | .gfmul _ _ => false
  | .sbox _ => false
  | .invsbox _ => false

end Sys2Proof.Machine
end

