-- ==== Sys2Proof/Machine/Ops.lean ====
section
/-! DEFINITION. The named operations over the buffer and the registers that the meanings share: `MemRead`,
`MemWrite` and `InRange` (00_scope.md rule R15, 20_memory.md rules R48 to R51), the end of a command with or without
an error (60_exceptions.md rules R158, R161), and the two resets (70_reset_and_hazards.md rules R174, R175). -/

namespace Sys2Proof.Machine

/-- What a meaning answers. -/
abbrev Outcome := Host.Outcome State Fault Refusal

/-! ## The buffer -/

/-- The canonical form: addresses strictly rising. An unlisted address reads as no written value at all, so no entry
can equal it (log entry 4). -/
abbrev Memory.wf (m : Memory) : Prop := List.Pairwise (fun x y => x.1 < y.1) m

/-- The value last written to a buffer byte, if it was written since hard reset (rule R51). -/
def Memory.byte? : Memory → Nat → Option Byte
  | [], _ => none
  | (k, v) :: m, a => if a = k then some v else Memory.byte? m a

/-- Write one byte, keeping the canonical form. -/
def Memory.store : Memory → Nat → Byte → Memory
  | [], a, v => [(a, v)]
  | (k, x) :: m, a, v =>
    if a < k then (a, v) :: (k, x) :: m
    else if a = k then (a, v) :: m
    else (k, x) :: Memory.store m a v

/-- Write a byte string, byte i at address a + i (rule R49). -/
def Memory.storeBytes : Memory → Nat → List Byte → Memory
  | m, _, [] => m
  | m, a, b :: bs => Memory.storeBytes (Memory.store m a b) (a + 1) bs

/-- Make the bytes of `[a, a+n)` never written (rule R175). -/
def Memory.forget (m : Memory) (a n : Nat) : Memory :=
  m.filter (fun c => decide (c.1 < a) || decide (a + n ≤ c.1))

/-- One byte read, the `draw`-th of the machine's draws: the written value, or a free value if the byte was never
written (rule R51). -/
def Memory.readByte (m : Memory) (draw a : Nat) : Byte := (Memory.byte? m a).getD (Config.freeByte draw)

/-- `n` bytes read from address a on, each with a draw of its own (rules R49, R51). -/
def Memory.readBytes (m : Memory) : Nat → Nat → Nat → List Byte
  | _, _, 0 => []
  | draw, a, n + 1 => Memory.readByte m draw a :: Memory.readBytes m (draw + 1) (a + 1) n

/-- `InRange(a, n)` (rule R48), in unbounded integers. -/
abbrev State.InRange (s : State) (a n : Nat) : Prop := a + n ≤ s.config.bufBytes

/-- `MemRead(a, n)` (rules R15, R49), used after `InRange(a, n)`. -/
def memRead (s : State) (a n : Nat) : List Byte := Memory.readBytes s.buffer s.draws a n

/-- The state after `n` byte reads: their draws are used up, so that a later read draws afresh (rule R51). -/
def drew (s : State) (n : Nat) : State := { s with draws := s.draws + n }

/-- `MemWrite(a, n, v)` for the n bytes of `v` (rules R15, R49). -/
def memWrite (s : State) (a : Nat) (v : List Byte) : State :=
  { s with buffer := Memory.storeBytes s.buffer a v }

/-! ## The end of a command -/

/-- `raise E` (rules R15, R154, R158): the command ends with code E and writes nothing but ERR, ERRSEEN and BUSY. This
is the one operation by which a command takes an error; there is no trap entry (60_exceptions.md rule R165) and no
trap return (rule R166): the next command replaces ERR, and NOP clears it. -/
def raise (e : ErrCode) (s : State) : Outcome := .next (complete e s)

/-- The end of a command without error (rule R161): its writes are those of `s`, and ERR becomes 0. -/
def finish (s : State) : Outcome := .next (complete .ok s)

/-! ## Resets -/

/-- The buffer after a soft reset (rule R175): kept, but if a command is pending its destination bytes become never
written (20_memory.md rule R57 gives them; a word that is no command has none). -/
def abortedBuffer (s : State) : Memory :=
  if s.busy then
    match decode s.pending with
    | .command i =>
      match dstRange i with
      | some (a, n) => Memory.forget s.buffer a n
      | none => s.buffer
    | .illegal _ => s.buffer
  else s.buffer

/-- A soft reset (rule R175): every register takes its hard-reset value, W is kept, the buffer is kept but for an
aborted command's destination. The model's own fields go on. -/
def softReset (s : State) : State :=
  { State.resetOf s.config with
    w := s.w, buffer := abortedBuffer s, draws := s.draws, schedule := s.schedule, readData := s.readData }

/-- A hard reset (rule R174): every field takes its hard-reset value; W and the buffer become unspecified. The
model's own fields go on. -/
def hardReset (s : State) : State :=
  { State.resetOf s.config with draws := s.draws, schedule := s.schedule, readData := s.readData }

end Sys2Proof.Machine
end

