-- ==== Sys2Proof/Machine/KeySchedule.lean ====
section
/-! DEFINITION. The key schedule, the round keys, and KEYEXP and STRK (41_key_schedule.md). -/

namespace Sys2Proof.Machine

/-! ## Words -/

/-- `RotWord(t)`: the first byte moves to the end (rule R91). -/
def rotWord (t : Quad) : Quad := ⟨t.b1, t.b2, t.b3, t.b0⟩

/-- `SubWord(t)` (rule R92). -/
def subWord (t : Quad) : Quad := quadMap sBox t

/-- `Rcon[j]`, defined for j in 1..10 (rule R93). -/
def rcon (j : Nat) : Byte :=
  match j with
  | 1 => 0x01
  | 2 => 0x02
  | 3 => 0x04
  | 4 => 0x08
  | 5 => 0x10
  | 6 => 0x20
  | 7 => 0x40
  | 8 => 0x80
  | 9 => 0x1B
  | 10 => 0x36
  | _ => 0x00

/-! ## Expansion -/

/-- The word `t` that step i of the expansion makes from the previous word (rule R94). -/
def scheduleWord (nk i : Nat) (prev : Quad) : Quad :=
  if i % nk = 0 then quadXor (subWord (rotWord prev)) ⟨rcon (i / nk), 0, 0, 0⟩
  else if 6 < nk ∧ i % nk = 4 then subWord prev
  else prev

/-- Word i of the expansion from the i words before it: `w[i-Nk] ⊕ t` (rule R94). -/
def nextWord (nk : Nat) (w : List Quad) : Quad :=
  quadXor (w.getD (w.length - nk) Quad.zero) (scheduleWord nk w.length (w.getD (w.length - 1) Quad.zero))

/-- The second loop of rule R94, for `n` more words. -/
def expandLoop (nk : Nat) : Nat → List Quad → List Quad
  | 0, w => w
  | n + 1, w => expandLoop nk n (w ++ [nextWord nk w])

/-- `KeyExpansion(K)` (rule R94) for a key of 16, 24 or 32 bytes: `4 * (Nr + 1)` words, with Nk = L / 4 and
Nr = Nk + 6. -/
def keyExpansion (k : List Byte) : List Quad :=
  expandLoop (k.length / 4) (4 * (k.length / 4 + 7) - k.length / 4) (wordsOf (k.length / 4) k)

/-- `RK(r)`: the four words from `W[4r]` on (rule R96). -/
def roundKey (w : List Quad) (r : Nat) : Block :=
  ⟨w.getD (4 * r) Quad.zero, w.getD (4 * r + 1) Quad.zero, w.getD (4 * r + 2) Quad.zero,
    w.getD (4 * r + 3) Quad.zero⟩

/-! ## The commands -/

/-- The lengths KEYEXP takes (rule R98). -/
def keyLengthOk (len : Half) : Bool := len == 16 || len == 24 || len == 32

/-- The writes of a successful KEYEXP (rules R23, R24, R98): the words of the expansion, the later words kept, and the
key status. -/
def loadKey (s : State) (k : List Byte) : State :=
  { s with
    w := keyExpansion k ++ s.w.drop (keyExpansion k).length
    key :=
      { kv := true
        keyLen := BitVec.ofNat 6 k.length
        nk := BitVec.ofNat 4 (k.length / 4)
        nr := BitVec.ofNat 4 (k.length / 4 + 6) } }

/-- KEYEXP SRC, LEN (rule R98). -/
def execKeyexp (src len : Half) (s : State) : Outcome :=
  if keyLengthOk len = false then raise .invalidKeyLength s
  else if ¬ s.InRange src.toNat len.toNat then raise .bufferRange s
  else finish (loadKey (drew s len.toNat) (memRead s src.toNat len.toNat))

/-- STRK DST, R (rule R99). -/
def execStrk (dst : Half) (r : Byte) (s : State) : Outcome :=
  if s.key.kv = false then raise .noKey s
  else if s.key.nr.toNat < r.toNat then raise .illegalCommand s
  else if ¬ s.InRange dst.toNat 16 then raise .bufferRange s
  else finish (memWrite s dst.toNat (blockBytes (roundKey s.w r.toNat)))

end Sys2Proof.Machine
end

