-- ==== Sys2Proof/Machine/RoundTransforms.lean ====
section
/-! DEFINITION. The four round transforms and their inverses, and the commands on STATE (42_round_transforms.md). -/

namespace Sys2Proof.Machine

/-! ## The transforms -/

/-- `SubBytes(s)` (rule R101). -/
def subBytes (s : Block) : Block := blockMap sBox s

/-- `InvSubBytes(s)` (rule R102). -/
def invSubBytes (s : Block) : Block := blockMap invSBox s

/-- `ShiftRows(s)`: row r moves left by r columns (rule R103). -/
def shiftRows (s : Block) : Block :=
  ⟨⟨s.c0.b0, s.c1.b1, s.c2.b2, s.c3.b3⟩,
   ⟨s.c1.b0, s.c2.b1, s.c3.b2, s.c0.b3⟩,
   ⟨s.c2.b0, s.c3.b1, s.c0.b2, s.c1.b3⟩,
   ⟨s.c3.b0, s.c0.b1, s.c1.b2, s.c2.b3⟩⟩

/-- `InvShiftRows(s)`: row r moves right by r columns (rule R104). -/
def invShiftRows (s : Block) : Block :=
  ⟨⟨s.c0.b0, s.c3.b1, s.c2.b2, s.c1.b3⟩,
   ⟨s.c1.b0, s.c0.b1, s.c3.b2, s.c2.b3⟩,
   ⟨s.c2.b0, s.c1.b1, s.c0.b2, s.c3.b3⟩,
   ⟨s.c3.b0, s.c2.b1, s.c1.b2, s.c0.b3⟩⟩

/-- One column of `MixColumns`, written out as in rule R105. -/
def mixColumn (a : Quad) : Quad :=
  ⟨gfMul 0x02 a.b0 ^^^ gfMul 0x03 a.b1 ^^^ a.b2 ^^^ a.b3,
   a.b0 ^^^ gfMul 0x02 a.b1 ^^^ gfMul 0x03 a.b2 ^^^ a.b3,
   a.b0 ^^^ a.b1 ^^^ gfMul 0x02 a.b2 ^^^ gfMul 0x03 a.b3,
   gfMul 0x03 a.b0 ^^^ a.b1 ^^^ a.b2 ^^^ gfMul 0x02 a.b3⟩

/-- `MixColumns(s)` (rule R105). -/
def mixColumns (s : Block) : Block := ⟨mixColumn s.c0, mixColumn s.c1, mixColumn s.c2, mixColumn s.c3⟩

/-- One column of `InvMixColumns`, written out as in rule R106. -/
def invMixColumn (a : Quad) : Quad :=
  ⟨gfMul 0x0E a.b0 ^^^ gfMul 0x0B a.b1 ^^^ gfMul 0x0D a.b2 ^^^ gfMul 0x09 a.b3,
   gfMul 0x09 a.b0 ^^^ gfMul 0x0E a.b1 ^^^ gfMul 0x0B a.b2 ^^^ gfMul 0x0D a.b3,
   gfMul 0x0D a.b0 ^^^ gfMul 0x09 a.b1 ^^^ gfMul 0x0E a.b2 ^^^ gfMul 0x0B a.b3,
   gfMul 0x0B a.b0 ^^^ gfMul 0x0D a.b1 ^^^ gfMul 0x09 a.b2 ^^^ gfMul 0x0E a.b3⟩

/-- `InvMixColumns(s)` (rule R106). -/
def invMixColumns (s : Block) : Block :=
  ⟨invMixColumn s.c0, invMixColumn s.c1, invMixColumn s.c2, invMixColumn s.c3⟩

/-- `AddRoundKey(s, r)` with the round keys in `w` (rule R107). -/
def addRoundKey (w : List Quad) (s : Block) (r : Nat) : Block := blockXor s (roundKey w r)

/-! ## The commands -/

/-- LDST SRC (rule R109). -/
def execLdst (src : Half) (s : State) : Outcome :=
  if ¬ s.InRange src.toNat 16 then raise .bufferRange s
  else finish { drew s 16 with block := blockOf (memRead s src.toNat 16) }

/-- STST DST (rule R110). -/
def execStst (dst : Half) (s : State) : Outcome :=
  if ¬ s.InRange dst.toNat 16 then raise .bufferRange s
  else finish (memWrite s dst.toNat (blockBytes s.block))

/-- SUBB (rule R111). -/
def execSubb (s : State) : Outcome := finish { s with block := subBytes s.block }

/-- INVSUBB (rule R112). -/
def execInvsubb (s : State) : Outcome := finish { s with block := invSubBytes s.block }

/-- SHROW (rule R113). -/
def execShrow (s : State) : Outcome := finish { s with block := shiftRows s.block }

/-- INVSHROW (rule R114). -/
def execInvshrow (s : State) : Outcome := finish { s with block := invShiftRows s.block }

/-- MIXCOL (rule R115). -/
def execMixcol (s : State) : Outcome := finish { s with block := mixColumns s.block }

/-- INVMIXCOL (rule R116). -/
def execInvmixcol (s : State) : Outcome := finish { s with block := invMixColumns s.block }

/-- ARK R (rule R117). -/
def execArk (r : Byte) (s : State) : Outcome :=
  if s.key.kv = false then raise .noKey s
  else if s.key.nr.toNat < r.toNat then raise .illegalCommand s
  else finish { s with block := addRoundKey s.w s.block r.toNat }

end Sys2Proof.Machine
end

