-- ==== Sys2Proof/Machine/BlockCipher.lean ====
section
/-! DEFINITION. The block cipher and its inverse, and ENCBLK and DECBLK (43_block_cipher.md). -/

namespace Sys2Proof.Machine

/-- The rounds r, r+1, .., r+n-1 of rule R118: SubBytes, ShiftRows, MixColumns, AddRoundKey. -/
def cipherRounds (w : List Quad) : Nat → Nat → Block → Block
  | _, 0, s => s
  | r, n + 1, s => cipherRounds w (r + 1) n (addRoundKey w (mixColumns (shiftRows (subBytes s))) r)

/-- `Cipher(s, NR)` with the round keys in `w` (rule R118). -/
def cipher (w : List Quad) (nr : Nat) (s : Block) : Block :=
  addRoundKey w (shiftRows (subBytes (cipherRounds w 1 (nr - 1) (addRoundKey w s 0)))) nr

/-- The rounds r, r-1, .., 1 of rule R119: InvShiftRows, InvSubBytes, AddRoundKey, InvMixColumns. -/
def invCipherRounds (w : List Quad) : Nat → Block → Block
  | 0, s => s
  | r + 1, s => invCipherRounds w r (invMixColumns (addRoundKey w (invSubBytes (invShiftRows s)) (r + 1)))

/-- `InvCipher(s, NR)` with the round keys in `w` (rule R119). -/
def invCipher (w : List Quad) (nr : Nat) (s : Block) : Block :=
  addRoundKey w (invSubBytes (invShiftRows (invCipherRounds w (nr - 1) (addRoundKey w s nr)))) 0

/-- ENCBLK (rule R124). -/
def execEncblk (s : State) : Outcome :=
  if s.key.kv = false then raise .noKey s
  else finish { s with block := cipher s.w s.key.nr.toNat s.block }

/-- DECBLK (rule R125). -/
def execDecblk (s : State) : Outcome :=
  if s.key.kv = false then raise .noKey s
  else finish { s with block := invCipher s.w s.key.nr.toNat s.block }

end Sys2Proof.Machine
end

