-- ==== Sys2Proof/Machine/Modes.lean ====
section
/-! DEFINITION. ECB and CBC over buffer ranges, and the IV commands (44_modes.md). -/

namespace Sys2Proof.Machine

/-! ## The mode functions -/

/-- `ECB_E(P)` (rule R126). -/
def ecbE (w : List Quad) (nr : Nat) (p : List Block) : List Block := p.map (cipher w nr)

/-- `ECB_D(C)` (rule R127). -/
def ecbD (w : List Quad) (nr : Nat) (c : List Block) : List Block := c.map (invCipher w nr)

/-- `CBC_E(P, IV)`: the ciphertext blocks and the final running block (rule R128). -/
def cbcE (w : List Quad) (nr : Nat) : Block → List Block → List Block × Block
  | prev, [] => ([], prev)
  | prev, p :: ps =>
    let c := cipher w nr (blockXor p prev)
    let rest := cbcE w nr c ps
    (c :: rest.1, rest.2)

/-- `CBC_D(C, IV)`: the plaintext blocks and the final running block, which is a ciphertext block (rule R129). -/
def cbcD (w : List Quad) (nr : Nat) : Block → List Block → List Block × Block
  | prev, [] => ([], prev)
  | prev, c :: cs =>
    let rest := cbcD w nr c cs
    (blockXor (invCipher w nr c) prev :: rest.1, rest.2)

/-! ## The IV commands -/

/-- LDIV SRC, LEN (rule R136). -/
def execLdiv (src len : Half) (s : State) : Outcome :=
  if len ≠ 16 then raise .invalidBlockLength s
  else if ¬ s.InRange src.toNat 16 then raise .bufferRange s
  else finish { drew s 16 with chain := blockOf (memRead s src.toNat 16) }

/-- STIV DST (rule R137). -/
def execStiv (dst : Half) (s : State) : Outcome :=
  if ¬ s.InRange dst.toNat 16 then raise .bufferRange s
  else finish (memWrite s dst.toNat (blockBytes s.chain))

/-! ## The mode commands -/

/-- The checks the four mode commands share (rule R138), then the command's own effect. -/
def modeChecks (dst src len : Half) (s : State) (effect : Outcome) : Outcome :=
  if s.key.kv = false then raise .noKey s
  else if len.toNat % 16 ≠ 0 then raise .invalidBlockLength s
  else if ¬ s.InRange src.toNat len.toNat then raise .bufferRange s
  else if ¬ s.InRange dst.toNat len.toNat then raise .bufferRange s
  else effect

/-- `IN`, the blocks of the source range as they are when the command starts (rules R50, R138). -/
def modeInput (src len : Half) (s : State) : List Block :=
  blocksOf (len.toNat / 16) (memRead s src.toNat len.toNat)

/-- The state after reading the source range and writing these blocks to the destination (rules R50, R139). -/
def modeOutput (dst len : Half) (s : State) (out : List Block) : State :=
  memWrite (drew s len.toNat) dst.toNat (bytesOfBlocks out)

/-- ECBENC DST, SRC, LEN (rule R139). -/
def execEcbenc (dst src len : Half) (s : State) : Outcome :=
  modeChecks dst src len s
    (finish (modeOutput dst len s (ecbE s.w s.key.nr.toNat (modeInput src len s))))

/-- ECBDEC DST, SRC, LEN (rule R140). -/
def execEcbdec (dst src len : Half) (s : State) : Outcome :=
  modeChecks dst src len s
    (finish (modeOutput dst len s (ecbD s.w s.key.nr.toNat (modeInput src len s))))

/-- CBCENC DST, SRC, LEN (rule R141). -/
def execCbcenc (dst src len : Half) (s : State) : Outcome :=
  modeChecks dst src len s
    (finish
      { modeOutput dst len s (cbcE s.w s.key.nr.toNat s.chain (modeInput src len s)).1 with
        chain := (cbcE s.w s.key.nr.toNat s.chain (modeInput src len s)).2 })

/-- CBCDEC DST, SRC, LEN (rule R142). -/
def execCbcdec (dst src len : Half) (s : State) : Outcome :=
  modeChecks dst src len s
    (finish
      { modeOutput dst len s (cbcD s.w s.key.nr.toNat s.chain (modeInput src len s)).1 with
        chain := (cbcD s.w s.key.nr.toNat s.chain (modeInput src len s)).2 })

end Sys2Proof.Machine
end

