-- ==== Sys2Proof/Machine/Padding.lean ====
section
/-! DEFINITION. Byte-count padding and its validator, PAD and UNPAD (45_padding.md). -/

namespace Sys2Proof.Machine

/-- `Pad(D, bs)`: n bytes of value n are appended (rule R143). -/
def padBytes (d : List Byte) (bs : Byte) : List Byte :=
  d ++ List.replicate (padCount d.length bs) (BitVec.ofNat 8 (padCount d.length bs))

/-- `UnpadCheck(D, bs)`: the stripped length, or none for InvalidPadding (rule R144). -/
def unpadCheck (d : List Byte) (bs : Byte) : Option Nat :=
  match d.getLast? with
  | none => none
  | some v =>
    if 1 ≤ v.toNat ∧ v.toNat ≤ bs.toNat ∧ v.toNat ≤ d.length ∧
        (d.drop (d.length - v.toNat)).all (fun b => b == v) = true then
      some (d.length - v.toNat)
    else none

/-- PAD DST, SRC, LEN, BS (rule R148). -/
def execPad (dst src len : Half) (bs : Byte) (s : State) : Outcome :=
  if ¬ s.InRange src.toNat len.toNat then raise .bufferRange s
  else if ¬ s.InRange dst.toNat (len.toNat + padCount len.toNat bs) then raise .bufferRange s
  else
    finish
      { memWrite (drew s len.toNat) dst.toNat (padBytes (memRead s src.toNat len.toNat) bs) with
        outlen := BitVec.ofNat 17 (len.toNat + padCount len.toNat bs) }

/-- UNPAD SRC, LEN, BS (rule R149). A failed check keeps OUTLEN (rule R146); the bytes have been read, so their draws
are used up. -/
def execUnpad (src len : Half) (bs : Byte) (s : State) : Outcome :=
  if ¬ s.InRange src.toNat len.toNat then raise .bufferRange s
  else
    match unpadCheck (memRead s src.toNat len.toNat) bs with
    | none => raise .invalidPadding (drew s len.toNat)
    | some r => finish { drew s len.toNat with outlen := BitVec.ofNat 17 r }

end Sys2Proof.Machine
end

