-- ==== Sys2Proof/Machine/System.lean ====
section
/-! DEFINITION. NOP (46_system.md). -/

namespace Sys2Proof.Machine

/-- NOP (rule R151): nothing but the completion step. -/
def execNop (s : State) : Outcome := finish s

end Sys2Proof.Machine
end

