-- ==== Sys2Proof/Machine/Dispatch.lean ====
section
/-! DEFINITION. The meaning of every command, one arm per constructor of `Instr`. -/

namespace Sys2Proof.Machine

/-- The core's step on a decoded command (60_exceptions.md rule R161): its checks, its writes and the completion step. -/
def exec (i : Instr) (s : State) : Host.Outcome State Fault Refusal :=
  match i with
  | .nop => Sys2Proof.Machine.execNop s
  | .keyexp src len => Sys2Proof.Machine.execKeyexp src len s
  | .strk dst r => Sys2Proof.Machine.execStrk dst r s
  | .ldst src => Sys2Proof.Machine.execLdst src s
  | .stst dst => Sys2Proof.Machine.execStst dst s
  | .ldiv src len => Sys2Proof.Machine.execLdiv src len s
  | .stiv dst => Sys2Proof.Machine.execStiv dst s
  | .subb => Sys2Proof.Machine.execSubb s
  | .invsubb => Sys2Proof.Machine.execInvsubb s
  | .shrow => Sys2Proof.Machine.execShrow s
  | .invshrow => Sys2Proof.Machine.execInvshrow s
  | .mixcol => Sys2Proof.Machine.execMixcol s
  | .invmixcol => Sys2Proof.Machine.execInvmixcol s
  | .ark r => Sys2Proof.Machine.execArk r s
  | .encblk => Sys2Proof.Machine.execEncblk s
  | .decblk => Sys2Proof.Machine.execDecblk s
  | .ecbenc dst src len => Sys2Proof.Machine.execEcbenc dst src len s
  | .ecbdec dst src len => Sys2Proof.Machine.execEcbdec dst src len s
  | .cbcenc dst src len => Sys2Proof.Machine.execCbcenc dst src len s
  | .cbcdec dst src len => Sys2Proof.Machine.execCbcdec dst src len s
  | .pad dst src len bs => Sys2Proof.Machine.execPad dst src len bs s
  | .unpad src len bs => Sys2Proof.Machine.execUnpad src len bs s
  | .gfmul a b => Sys2Proof.Machine.execGfmul a b s
  | .sbox a => Sys2Proof.Machine.execSbox a s
  | .invsbox a => Sys2Proof.Machine.execInvsbox a s

end Sys2Proof.Machine
end

