-- ==== Sys2Proof/Machine/HostAccess.lean ====
section
/-! DEFINITION. The host's side: the window (20_memory.md rules R46, R60), which accesses are allowed (rules R53, R54,
R56), the register map (10_state.md rules R33 to R43), the buffer window (20_memory.md rules R47, R52), and how a
host issues a command (46_system.md rule R150). -/

namespace Sys2Proof.Machine

/-- The offset in the window `BASE .. BASE + 0x1FFFF` of a platform address, if it lies there (rule R46). -/
def windowOffset (c : Config) (addr : Nat) : Option Nat :=
  if c.base ≤ addr ∧ addr < c.base + 0x20000 then some (addr - c.base) else none

/-! ## Allowed accesses -/

/-- The shape of an access that rules R53 and R54 allow: in the register space 32 bits wide at a multiple of 4, in the
buffer window 8, 16 or 32 bits wide and naturally aligned. -/
def shapeOk (width off : Nat) : Bool :=
  if off < 0x10000 then width == 32 && off % 4 == 0
  else (width == 8 || width == 16 || width == 32) && off % (width / 8) == 0

/-- The reads allowed while BUSY = 1 (rule R56): 32-bit reads of ID, STATUS and BUFSIZE. -/
def busyReadOk (width off : Nat) : Bool := width == 32 && (off == 0x000 || off == 0x004 || off == 0x020)

/-- The writes allowed while BUSY = 1 (rule R56): 32-bit writes of CTRL. -/
def busyWriteOk (width off : Nat) : Bool := width == 32 && off == 0x01C

/-- A read the architecture allows in this state (rules R53, R54, R56, R163). DESIGN CHOICE (log entry 18): BUSY alone
decides, as R56 and R163 have it; a host that has not yet read STATUS with BUSY = 0 after the completion is allowed too,
where R63, R150 and 70_reset_and_hazards.md R178 call its access a violation. -/
def readAllowed (s : State) (width off : Nat) : Bool :=
  if s.busy then busyReadOk width off else shapeOk width off

/-- A write the architecture allows in this state (rules R53, R54, R56, R163). DESIGN CHOICE (log entry 18): BUSY alone
decides, whether or not the host has read STATUS with BUSY = 0, as for `readAllowed`. -/
def writeAllowed (s : State) (width off : Nat) : Bool :=
  if s.busy then busyWriteOk width off else shapeOk width off

/-! ## The register map -/

/-- What a register reads (rules R33 to R43). Unassigned offsets and CTRL read 0. -/
def readRegister (s : State) (off : Nat) : Reg32 :=
  match off with
  | 0x000 => 0x41455331
  | 0x004 => statusWord s
  | 0x008 => s.cmdLo
  | 0x00C => s.cmdHi
  | 0x010 => s.outlen.setWidth 32
  | 0x014 => s.result.setWidth 32
  | 0x018 => keycfgWord s
  | 0x01C => 0
  | 0x020 => BitVec.ofNat 32 s.config.bufBytes
  | _ => 0

/-- The CMD_HI write that issues a command (rule R37), for BUSY = 0. -/
def issue (s : State) (v : Reg32) : State :=
  { s with cmdHi := v, pending := v ++ s.cmdLo, busy := true }

/-- What a register write does (rules R35, R36, R37, R41, R43); a write of a read-only or unassigned register is
ignored. -/
def writeRegister (s : State) (off : Nat) (v : Reg32) : State :=
  match off with
  | 0x004 => if v.getLsbD 16 then { s with errSeen := false } else s
  | 0x008 => { s with cmdLo := v }
  | 0x00C => issue s v
  | 0x01C => if v.getLsbD 0 then softReset s else s
  | _ => s

/-! ## Accesses -/

/-- A host read at a window offset: a violation sets FAULT and returns 0 (rules R53, R54, R56); a register read
returns the register; a buffer read returns its bytes, low byte first (rule R52), or 0 past the buffer (rule R47). -/
def hostRead (s : State) (width off : Nat) : State :=
  if readAllowed s width off then
    if off < 0x10000 then { s with readData := readRegister s off }
    else if s.InRange (off - 0x10000) (width / 8) then
      { drew s (width / 8) with readData := littleEndianValue (memRead s (off - 0x10000) (width / 8)) }
    else { s with readData := 0 }
  else { s with fault := true, readData := 0 }

/-- A host write at a window offset: a violation sets FAULT and is ignored (rules R53, R54, R56); a register write does
what the register map says; a buffer write stores its bytes, low byte first (rule R52), or is ignored past the buffer
(rule R47). -/
def hostWrite (s : State) (width off : Nat) (v : Reg32) : State :=
  if writeAllowed s width off then
    if off < 0x10000 then writeRegister s off v
    else if s.InRange (off - 0x10000) (width / 8) then
      memWrite s (off - 0x10000) (littleEndianBytes (width / 8) v)
    else s
  else { s with fault := true }

/-- One host access by platform address; one outside the window is not an access of the core (rule R60). -/
def hostAccess (a : Access) (s : State) : State :=
  match a with
  | .read width addr =>
    match windowOffset s.config addr with
    | some off => hostRead s width off
    | none => s
  | .write width addr v =>
    match windowOffset s.config addr with
    | some off => hostWrite s width off v
    | none => s

/-- The turns of rule R150 for one command word: write CMD_LO, write CMD_HI, let the core run, read STATUS. -/
def issueTurns (c : Config) (w : CmdWord) : List Turn :=
  [.host (.write 32 (c.base + 0x008) (w.extractLsb' 0 32)),
   .host (.write 32 (c.base + 0x00C) (w.extractLsb' 32 32)),
   .core,
   .host (.read 32 (c.base + 0x004))]

/-- The state with a command word issued through CMD_LO and CMD_HI (rules R36, R37), the core's turn next. -/
def withIssued (s : State) (word : CmdWord) : State :=
  { s with
    cmdLo := word.extractLsb' 0 32, cmdHi := word.extractLsb' 32 32, pending := word, busy := true,
    schedule := .core :: s.schedule }

end Sys2Proof.Machine
end

