-- ==== Sys2Proof/Machine/Step.lean ====
section
/-! DEFINITION. One step of the machine: the next turn of the schedule (20_memory.md rule R62), and the core's step
(60_exceptions.md rule R161). -/

namespace Sys2Proof.Machine

/-- The core's step on PENDING (rule R161): decode it, and execute the command or raise IllegalCommand. -/
def coreStep (s : State) : Host.Outcome State Fault Refusal :=
  match decode s.pending with
  | .command i => exec i s
  | .illegal _ => raise .illegalCommand s

/-- The core's turn: its step is enabled only when BUSY = 1 (rule R19); otherwise nothing happens. -/
def coreTurn (s : State) : Host.Outcome State Fault Refusal :=
  if s.busy then coreStep s else .next s

/-- One step: the agent whose turn it is moves. When the schedule is empty the host takes no further step
(70_reset_and_hazards.md rule R180) and the core has the turn. -/
def step (s : State) : Host.Outcome State Fault Refusal :=
  match s.schedule with
  | [] => coreTurn s
  | .core :: rest => coreTurn { s with schedule := rest }
  | .host a :: rest => .next (hostAccess a { s with schedule := rest })
  | .hardReset :: rest => .next (hardReset { s with schedule := rest })

/-- The command word is issued and the core has the next turn (log entry 6 says how a program comes to run). -/
def State.withFetchWord (s : State) (nbits w : Nat) : State :=
  withIssued s (BitVec.ofNat 64 (w % 2 ^ nbits))

end Sys2Proof.Machine
end

