-- ==== Sys2Proof/Machine/Assembler.lean ====
section
/-! DEFINITION. The assembler's lines (30_encoding.md rules R75, R76) and its pseudo-instructions (rule R77). They
stand beside the machine: the core sees only command words. White space is a DESIGN CHOICE (log entry 9). -/

namespace Sys2Proof.Machine

/-- Why an assembler refuses a line (rule R76). -/
inductive AsmError where
  /-- An operand that does not fit its field. -/
  | operandTooWide
  /-- A missing operand. -/
  | missingOperand
  /-- An extra operand. -/
  | extraOperand
  /-- An unknown mnemonic. -/
  | unknownMnemonic
  /-- `pad` or `unpad` with BS = 0. -/
  | blockSizeZero
  /-- `ark` or `strk` with R > 14. -/
  | roundIndexAbove14
  /-- An operand that is neither decimal nor `0x` hexadecimal (rule R75). -/
  | notANumber
  deriving DecidableEq, Repr

/-- What assembling a line gives. -/
inductive AsmResult where
  /-- The commands of the line: none for an empty line, several for a pseudo-instruction. -/
  | commands (is : List Instr)
  /-- The line is refused. -/
  | refused (why : AsmError)
  deriving DecidableEq, Repr

/-! ## Pseudo-instructions (rule R77) -/

/-- The pseudo-instructions. -/
inductive Pseudo where
  | clrerr
  | xtime (a : Byte)
  | enc16 (dst src : Half)
  | dec16 (dst src : Half)
  | setiv (src : Half)
  | getiv (dst : Half)
  deriving DecidableEq, Repr

/-- The "expansion" column of rule R77. -/
def expandPseudo : Pseudo → List Instr
  | .clrerr => [.nop]
  | .xtime a => [.gfmul a 0x02]
  | .enc16 dst src => [.ldst src, .encblk, .stst dst]
  | .dec16 dst src => [.ldst src, .decblk, .stst dst]
  | .setiv src => [.ldiv src 16]
  | .getiv dst => [.stiv dst]

/-! ## Numbers and words of a line (rule R75) -/

/-- A white-space character between the parts of a line. -/
def isBlank (c : Char) : Bool := c == ' ' || c == '\t'

/-- The value of a digit in a base of at most 16. -/
def digitValue (base : Nat) (c : Char) : Option Nat :=
  let n := c.toNat
  let v :=
    if 48 ≤ n ∧ n ≤ 57 then some (n - 48)
    else if 97 ≤ n ∧ n ≤ 102 then some (n - 87)
    else if 65 ≤ n ∧ n ≤ 70 then some (n - 55)
    else none
  v.bind (fun d => if d < base then some d else none)

/-- The value of a digit string read on from `acc`. -/
def digitsValue (base : Nat) : Nat → List Char → Option Nat
  | acc, [] => some acc
  | acc, c :: cs => (digitValue base c).bind (fun d => digitsValue base (acc * base + d) cs)

/-- A number: decimal, or hexadecimal after `0x` (rule R75). -/
def numberValue : List Char → Option Nat
  | [] => none
  | '0' :: 'x' :: [] => none
  | '0' :: 'x' :: cs => digitsValue 16 0 cs
  | cs => digitsValue 10 0 cs

/-- A line without its comment: `;` starts one (rule R75). -/
def withoutComment (line : List Char) : List Char := line.takeWhile (fun c => c != ';')

/-- A string without the white space around it. -/
def trimBlanks (cs : List Char) : List Char := ((cs.dropWhile isBlank).reverse.dropWhile isBlank).reverse

/-- The parts between commas. -/
def splitCommas : List Char → List (List Char)
  | [] => [[]]
  | c :: cs =>
    if c == ',' then [] :: splitCommas cs
    else
      match splitCommas cs with
      | [] => [[c]]
      | p :: ps => (c :: p) :: ps

/-- The numbers of a list of operands, none if one of them is not a number. -/
def numbersOf : List (List Char) → Option (List Nat)
  | [] => some []
  | p :: ps => (numberValue (trimBlanks p)).bind (fun n => (numbersOf ps).map (fun ns => n :: ns))

/-- The operands after a mnemonic: none, or numbers separated by commas (rule R75). -/
def operandsOf (rest : List Char) : Option (List Nat) :=
  match trimBlanks rest with
  | [] => some []
  | cs => numbersOf (splitCommas cs)

/-! ## Lines -/

/-- The number of operands of each mnemonic and pseudo-instruction (rules R75, R77); none if there is no such name. -/
def operandCount (name : List Char) : Option Nat :=
  if name = ['n', 'o', 'p'] then some 0
  else if name = ['k', 'e', 'y', 'e', 'x', 'p'] then some 2
  else if name = ['s', 't', 'r', 'k'] then some 2
  else if name = ['l', 'd', 's', 't'] then some 1
  else if name = ['s', 't', 's', 't'] then some 1
  else if name = ['l', 'd', 'i', 'v'] then some 2
  else if name = ['s', 't', 'i', 'v'] then some 1
  else if name = ['s', 'u', 'b', 'b'] then some 0
  else if name = ['i', 'n', 'v', 's', 'u', 'b', 'b'] then some 0
  else if name = ['s', 'h', 'r', 'o', 'w'] then some 0
  else if name = ['i', 'n', 'v', 's', 'h', 'r', 'o', 'w'] then some 0
  else if name = ['m', 'i', 'x', 'c', 'o', 'l'] then some 0
  else if name = ['i', 'n', 'v', 'm', 'i', 'x', 'c', 'o', 'l'] then some 0
  else if name = ['a', 'r', 'k'] then some 1
  else if name = ['e', 'n', 'c', 'b', 'l', 'k'] then some 0
  else if name = ['d', 'e', 'c', 'b', 'l', 'k'] then some 0
  else if name = ['e', 'c', 'b', 'e', 'n', 'c'] then some 3
  else if name = ['e', 'c', 'b', 'd', 'e', 'c'] then some 3
  else if name = ['c', 'b', 'c', 'e', 'n', 'c'] then some 3
  else if name = ['c', 'b', 'c', 'd', 'e', 'c'] then some 3
  else if name = ['p', 'a', 'd'] then some 4
  else if name = ['u', 'n', 'p', 'a', 'd'] then some 3
  else if name = ['g', 'f', 'm', 'u', 'l'] then some 2
  else if name = ['s', 'b', 'o', 'x'] then some 1
  else if name = ['i', 'n', 'v', 's', 'b', 'o', 'x'] then some 1
  else if name = ['c', 'l', 'r', 'e', 'r', 'r'] then some 0
  else if name = ['x', 't', 'i', 'm', 'e'] then some 1
  else if name = ['e', 'n', 'c', '1', '6'] then some 2
  else if name = ['d', 'e', 'c', '1', '6'] then some 2
  else if name = ['s', 'e', 't', 'i', 'v'] then some 1
  else if name = ['g', 'e', 't', 'i', 'v'] then some 1
  else none

/-- One command, refused if its IMM8 would not decode (rule R76). -/
def oneCommand (i : Instr) : AsmResult :=
  match i with
  | .ark r => if roundIndexOk r then .commands [i] else .refused .roundIndexAbove14
  | .strk _ r => if roundIndexOk r then .commands [i] else .refused .roundIndexAbove14
  | .pad _ _ _ bs => if blockSizeOk bs then .commands [i] else .refused .blockSizeZero
  | .unpad _ _ bs => if blockSizeOk bs then .commands [i] else .refused .blockSizeZero
  | _ => .commands [i]

/-- A command with one 16-bit operand. -/
def withHalf (a : Nat) (f : Half → AsmResult) : AsmResult :=
  if a < 65536 then f (BitVec.ofNat 16 a) else .refused .operandTooWide

/-- A command with one 8-bit operand. -/
def withByte (a : Nat) (f : Byte → AsmResult) : AsmResult :=
  if a < 256 then f (BitVec.ofNat 8 a) else .refused .operandTooWide

/-- A line without operands (rules R75, R77). -/
def assemble0 (name : List Char) : AsmResult :=
  if name = ['n', 'o', 'p'] then oneCommand .nop
  else if name = ['s', 'u', 'b', 'b'] then oneCommand .subb
  else if name = ['i', 'n', 'v', 's', 'u', 'b', 'b'] then oneCommand .invsubb
  else if name = ['s', 'h', 'r', 'o', 'w'] then oneCommand .shrow
  else if name = ['i', 'n', 'v', 's', 'h', 'r', 'o', 'w'] then oneCommand .invshrow
  else if name = ['m', 'i', 'x', 'c', 'o', 'l'] then oneCommand .mixcol
  else if name = ['i', 'n', 'v', 'm', 'i', 'x', 'c', 'o', 'l'] then oneCommand .invmixcol
  else if name = ['e', 'n', 'c', 'b', 'l', 'k'] then oneCommand .encblk
  else if name = ['d', 'e', 'c', 'b', 'l', 'k'] then oneCommand .decblk
  else if name = ['c', 'l', 'r', 'e', 'r', 'r'] then .commands (expandPseudo .clrerr)
  else .refused .unknownMnemonic

/-- A line with one operand (rules R75, R77). -/
def assemble1 (name : List Char) (a : Nat) : AsmResult :=
  if name = ['l', 'd', 's', 't'] then withHalf a (fun src => oneCommand (.ldst src))
  else if name = ['s', 't', 's', 't'] then withHalf a (fun dst => oneCommand (.stst dst))
  else if name = ['s', 't', 'i', 'v'] then withHalf a (fun dst => oneCommand (.stiv dst))
  else if name = ['a', 'r', 'k'] then withByte a (fun r => oneCommand (.ark r))
  else if name = ['s', 'b', 'o', 'x'] then withByte a (fun x => oneCommand (.sbox x))
  else if name = ['i', 'n', 'v', 's', 'b', 'o', 'x'] then withByte a (fun x => oneCommand (.invsbox x))
  else if name = ['x', 't', 'i', 'm', 'e'] then withByte a (fun x => .commands (expandPseudo (.xtime x)))
  else if name = ['s', 'e', 't', 'i', 'v'] then withHalf a (fun src => .commands (expandPseudo (.setiv src)))
  else if name = ['g', 'e', 't', 'i', 'v'] then withHalf a (fun dst => .commands (expandPseudo (.getiv dst)))
  else .refused .unknownMnemonic

/-- A line with two operands (rules R75, R77). -/
def assemble2 (name : List Char) (a b : Nat) : AsmResult :=
  if name = ['k', 'e', 'y', 'e', 'x', 'p'] then
    withHalf a (fun src => withHalf b (fun len => oneCommand (.keyexp src len)))
  else if name = ['s', 't', 'r', 'k'] then
    withHalf a (fun dst => withByte b (fun r => oneCommand (.strk dst r)))
  else if name = ['l', 'd', 'i', 'v'] then
    withHalf a (fun src => withHalf b (fun len => oneCommand (.ldiv src len)))
  else if name = ['g', 'f', 'm', 'u', 'l'] then
    withByte a (fun x => withByte b (fun y => oneCommand (.gfmul x y)))
  else if name = ['e', 'n', 'c', '1', '6'] then
    withHalf a (fun dst => withHalf b (fun src => .commands (expandPseudo (.enc16 dst src))))
  else if name = ['d', 'e', 'c', '1', '6'] then
    withHalf a (fun dst => withHalf b (fun src => .commands (expandPseudo (.dec16 dst src))))
  else .refused .unknownMnemonic

/-- A line with three operands (rule R75). -/
def assemble3 (name : List Char) (a b c : Nat) : AsmResult :=
  if name = ['u', 'n', 'p', 'a', 'd'] then
    withHalf a (fun src => withHalf b (fun len => withByte c (fun bs => oneCommand (.unpad src len bs))))
  else
    withHalf a (fun dst => withHalf b (fun src => withHalf c (fun len =>
      if name = ['e', 'c', 'b', 'e', 'n', 'c'] then oneCommand (.ecbenc dst src len)
      else if name = ['e', 'c', 'b', 'd', 'e', 'c'] then oneCommand (.ecbdec dst src len)
      else if name = ['c', 'b', 'c', 'e', 'n', 'c'] then oneCommand (.cbcenc dst src len)
      else if name = ['c', 'b', 'c', 'd', 'e', 'c'] then oneCommand (.cbcdec dst src len)
      else .refused .unknownMnemonic)))

/-- A line with four operands (rule R75). -/
def assemble4 (name : List Char) (a b c d : Nat) : AsmResult :=
  if name = ['p', 'a', 'd'] then
    withHalf a (fun dst => withHalf b (fun src => withHalf c (fun len =>
      withByte d (fun bs => oneCommand (.pad dst src len bs)))))
  else .refused .unknownMnemonic

/-- A name with its operands: the operand count first, then the fields (rule R76). -/
def assembleWords (name : List Char) (operands : List Nat) : AsmResult :=
  match operandCount name with
  | none => .refused .unknownMnemonic
  | some n =>
    if operands.length < n then .refused .missingOperand
    else if n < operands.length then .refused .extraOperand
    else
      match operands with
      | [] => assemble0 name
      | [a] => assemble1 name a
      | [a, b] => assemble2 name a b
      | [a, b, c] => assemble3 name a b c
      | [a, b, c, d] => assemble4 name a b c d
      | _ => .refused .extraOperand

/-- One line of the assembly language (rule R75). An empty line, or one that is only a comment, is no command. -/
def assembleLine (line : List Char) : AsmResult :=
  match trimBlanks (withoutComment line) with
  | [] => .commands []
  | cs =>
    match operandsOf (cs.dropWhile (fun c => !isBlank c)) with
    | none => .refused .notANumber
    | some operands => assembleWords (cs.takeWhile (fun c => !isBlank c)) operands

/-- The command words of a line (rule R75: the encoding column). -/
def assembledWords : AsmResult → List CmdWord
  | .commands is => is.map encode
  | .refused _ => []

end Sys2Proof.Machine
end

