-- ==== Sys2Proof/Safety.lean ====
section
/-! DEFINITION. What counts as a safe run, the invariant of the machine, and the terms the claims are stated in. -/

namespace Sys2Proof.Machine

/-! ## Safe runs (70_reset_and_hazards.md rule R180) -/

/-- FAULT = 0: no host-protocol violation since reset (10_state.md rule R30). A claim may take it as a premise. -/
abbrev State.FaultFree (s : State) : Prop := s.fault = false

/-- The run has ended: BUSY = 0 and the host takes no further step (rule R180). -/
abbrev State.Ended (s : State) : Prop := s.busy = false ∧ s.schedule = []

/-- The run ended, and not faulted (rule R180). -/
abbrev State.EndedSafely (s : State) : Prop := s.Ended ∧ s.FaultFree

/-! ## The invariant -/

/-- The invariant of the key status (10_state.md rule R24). -/
structure KeyStatusOk (s : State) : Prop where
  /-- If KV = 0 then KEYLEN = NK = NR = 0. -/
  withoutKey : s.key.kv = false → s.key.keyLen = 0 ∧ s.key.nk = 0 ∧ s.key.nr = 0
  /-- If KV = 1 then KEYLEN is 16, 24 or 32, NK = KEYLEN/4, NR = NK + 6, and W starts with the expansion of a key. -/
  withKey : s.key.kv = true → ∃ k : List Byte,
    (k.length = 16 ∨ k.length = 24 ∨ k.length = 32) ∧ s.key.keyLen.toNat = k.length ∧
    s.key.nk.toNat = k.length / 4 ∧ s.key.nr.toNat = s.key.nk.toNat + 6 ∧
    s.w.take (4 * (s.key.nr.toNat + 1)) = keyExpansion k

/-- What every step keeps. -/
structure Inv (s : State) : Prop where
  /-- The parameters are legal (00_scope.md rules R10, R11). -/
  config : s.config.Legal
  /-- The buffer is in its canonical form. -/
  canonical : Memory.wf s.buffer
  /-- Every written byte lies in the buffer (20_memory.md rule R47). -/
  inBuffer : ∀ c ∈ s.buffer, c.1 < s.config.bufBytes
  /-- W has 60 words (10_state.md rule R23). -/
  wordCount : s.w.length = 60
  /-- The key status (10_state.md rule R24). -/
  keyStatus : KeyStatusOk s
  /-- The command being executed is the one in CMD_HI and CMD_LO (10_state.md rule R31, 60_exceptions.md rule R156). -/
  latched : s.busy = true → s.pending = s.cmdHi ++ s.cmdLo
  /-- OUTLEN never exceeds the buffer (10_state.md rule R25). -/
  outlenInBuffer : s.outlen.toNat ≤ s.config.bufBytes

/-! ## The buffer, byte by byte -/

/-- Every address reads as before. -/
def SameBytes (s t : State) : Prop := ∀ a, Memory.byte? t.buffer a = Memory.byte? s.buffer a

/-- Every address outside `[b, b+n)` reads as before. -/
def SameBytesOutside (b n : Nat) (s t : State) : Prop :=
  ∀ a, (a < b ∨ b + n ≤ a) → Memory.byte? t.buffer a = Memory.byte? s.buffer a

/-- The buffer holds these bytes from address `a` on, all of them written. -/
def HoldsBytes (m : Memory) (a : Nat) (l : List Byte) : Prop :=
  ∀ k, k < l.length → Memory.byte? m (a + k) = l[k]?

/-- The buffer holds this block at address `a`, all of it written. -/
def HoldsBlock (m : Memory) (a : Nat) (b : Block) : Prop :=
  ∀ k, k < 16 → Memory.byte? m (a + k) = some (blockByte b k)

/-! ## The error a command meets first (60_exceptions.md rule R159) -/

/-- Check 2: the command needs a key and there is none (rule R157). -/
def KeyMissing (i : Instr) (s : State) : Prop := needsKey i = true ∧ s.key.kv = false

/-- Check 3: ARK or STRK with a round index above NR. -/
def RoundIndexAboveNr (i : Instr) (s : State) : Prop :=
  ∃ r : Byte, (i = .ark r ∨ ∃ dst, i = .strk dst r) ∧ s.key.nr.toNat < r.toNat

/-- Check 4: a length the command refuses, and the code it raises. -/
def LengthError (i : Instr) (e : ErrCode) : Prop :=
  (∃ src len, i = .keyexp src len ∧ len.toNat ≠ 16 ∧ len.toNat ≠ 24 ∧ len.toNat ≠ 32 ∧ e = .invalidKeyLength) ∨
  (∃ src len, i = .ldiv src len ∧ len.toNat ≠ 16 ∧ e = .invalidBlockLength) ∨
  (∃ dst src len, (i = .ecbenc dst src len ∨ i = .ecbdec dst src len ∨ i = .cbcenc dst src len ∨
      i = .cbcdec dst src len) ∧ len.toNat % 16 ≠ 0 ∧ e = .invalidBlockLength)

/-- Check 5: a buffer range of the command lies outside the buffer (20_memory.md rules R48, R57). -/
def RangeError (i : Instr) (s : State) : Prop :=
  ∃ a n, (srcRange i = some (a, n) ∨ dstRange i = some (a, n)) ∧ ¬ s.InRange a n

/-- Check 6: UNPAD's padding is not valid (45_padding.md rule R144). -/
def ContentError (i : Instr) (s : State) : Prop :=
  ∃ src len bs, i = .unpad src len bs ∧ unpadCheck (memRead s src.toNat len.toNat) bs = none

/-! ## Turns and sequences -/

/-- The core has the turn, and these turns come after it. -/
def CoreHasTurn (s : State) (rest : List Turn) : Prop :=
  s.schedule = .core :: rest ∨ (s.schedule = [] ∧ rest = [])

/-- Commands executed one after the other. -/
def execAll : List Instr → State → Outcome
  | [], s => .next s
  | i :: is, s =>
    match exec i s with
    | .next t => execAll is t
    | .fault r => .fault r
    | .refused r => .refused r

/-- The command sequence of rule R123 for ENCBLK. -/
def encblkSequence (nr : Nat) : List Instr :=
  .ark 0 ::
    ((List.range' 1 (nr - 1)).flatMap (fun r => [.subb, .shrow, .mixcol, .ark (BitVec.ofNat 8 r)]) ++
      [.subb, .shrow, .ark (BitVec.ofNat 8 nr)])

/-- The command sequence of rule R123 for DECBLK. -/
def decblkSequence (nr : Nat) : List Instr :=
  .ark (BitVec.ofNat 8 nr) ::
    ((List.range' 1 (nr - 1)).reverse.flatMap
        (fun r => [.invshrow, .invsubb, .ark (BitVec.ofNat 8 r), .invmixcol]) ++
      [.invshrow, .invsubb, .ark 0])

/-! ## What cannot be observed (10_state.md rule R23) -/

/-- The words of W a command can read: the first 4·(NR+1) when KV = 1, none when KV = 0. -/
def reachableW (s : State) : List Quad :=
  if s.key.kv then s.w.take (4 * (s.key.nr.toNat + 1)) else []

/-- The two states differ at most in words of W that no command can read. -/
def SameButStaleW (s t : State) : Prop :=
  t = { s with w := t.w } ∧ t.w.length = s.w.length ∧ reachableW t = reachableW s

end Sys2Proof.Machine
end

