-- ==== Sys2Proof/Certificates/Slice0/Obligations.lean ====
section
/-! DEFINITION. The statements for the provers. Each docstring names the rules of spec/ it formalises.

A conclusion of the form `exec i s = .next { s with … }`, or `t = { s with f := t.f, … }`, is the whole frame of the
command: every field not named after `with` is unchanged.

Three fields are the model's own, so wherever a statement names one it speaks of the model's form of the rule: `draws`,
the count of free values (log entry 5); `schedule`, the turns to come (log entries 6, 11 and 17); `readData`, the value a
host read returns (log entry 7).

Where a statement says what a host access with BUSY = 0 does, that holds by the model's choice of log entry 18 if the
host has not yet read STATUS with BUSY = 0 after the last command's completion. -/

open Sys2Proof Sys2Proof.Machine

/-! ## Encoding -/

/-- Decoding the word of a well-formed command gives the command back, with every operand at every value (30_encoding.md
rules R69, R70, R71, R72, R73). -/
def Obligations.DecodeOfEncode : Prop :=
  ∀ i : Instr, i.wellFormed = true → decode (encode i) = .command i

/-- A word that decodes is the word of the command it decodes to, and that command is well-formed: no two words
decode to one command, and no bit of a word is ignored (rules R72, R73). -/
def Obligations.EncodeOfDecode : Prop :=
  ∀ (w : CmdWord) (i : Instr), decode w = .command i → i.wellFormed = true ∧ encode i = w

/-- Decoding follows the table (rules R72, R73): a word decodes as a command exactly when it agrees with the match
under the mask and its IMM8 is legal; the fields are those of the word; any other word raises IllegalCommand before
anything else is checked. -/
def Obligations.DecodeFollowsMaskAndMatch : Prop :=
  (∀ (w : CmdWord) (i : Instr), decode w = .command (i.withFieldsOf w) ↔
    (w &&& maskOf i = matchOf i ∧ (i.withFieldsOf w).wellFormed = true)) ∧
  (∀ (w : CmdWord) (i : Instr), decode w = .command i → i = i.withFieldsOf w) ∧
  (∀ (s : State) (why : Illegal), decode s.pending = .illegal why → coreStep s = raise .illegalCommand s)

/-- Words written out from the spec's encodings and examples decode to the commands they stand for (95_test_vectors.md
parts 3 and 6). -/
def Obligations.SpecWordsDecode : Prop :=
  decode 0x0000000000000000 = .command .nop ∧
  decode 0x0000000000100001 = .command (.keyexp 0x0000 16) ∧
  decode 0x0100000000000E02 = .command (.strk 0x0100 14) ∧
  decode 0x0000001000000010 = .command (.ldst 0x0010) ∧
  decode 0x0000001000100012 = .command (.ldiv 0x0010 16) ∧
  decode 0x0000000000000A26 = .command (.ark 10) ∧
  decode 0x0200010000300042 = .command (.cbcenc 0x0200 0x0100 48) ∧
  decode 0x0200010000141050 = .command (.pad 0x0200 0x0100 20 16) ∧
  decode 0x0000000000835760 = .command (.gfmul 0x57 0x83)

/-- Rule R74: a reserved opcode, a nonzero unused field or an illegal IMM8 makes the core's step write ERR = 5 and
ERRSEEN, and nothing else (BUSY goes to 0 as at every completion). -/
def Obligations.IllegalWordsOnlyReport : Prop :=
  (∀ w : CmdWord, (opcOf w).toNat ∉
      [0x00, 0x01, 0x02, 0x10, 0x11, 0x12, 0x13, 0x20, 0x21, 0x22, 0x23, 0x24, 0x25, 0x26, 0x30, 0x31, 0x40, 0x41,
        0x42, 0x43, 0x50, 0x51, 0x60, 0x61, 0x62] → decode w = .illegal .reservedOpcode) ∧
  (∀ (s : State) (rest : List Turn) (why : Illegal), s.busy = true → CoreHasTurn s rest →
    decode s.pending = .illegal why →
    step s = .next { s with schedule := rest, err := .illegalCommand, errSeen := true, busy := false })

/-! ## Steps and runs -/

/-- A step runs the turn that is due. From the spec: the decoded command is executed when BUSY = 1 and the core has the
turn (rules R19, R161), and a host turn makes its one access (R19). The model's choices, no rule's: the schedule that says
whose turn it is, and `withFetchWord`, after which the next step runs the given word (log entry 6); the core's turn with
BUSY = 0 is used up and changes nothing else (log entry 11); a hard reset is a turn (log entry 17). -/
def Obligations.StepRunsTheDueTurn : Prop :=
  (∀ (s : State) (rest : List Turn) (i : Instr), s.busy = true → CoreHasTurn s rest →
    decode s.pending = .command i → step s = exec i { s with schedule := rest }) ∧
  (∀ (s : State) (rest : List Turn), s.busy = false → CoreHasTurn s rest →
    step s = .next { s with schedule := rest }) ∧
  (∀ (s : State) (rest : List Turn) (a : Access), s.schedule = .host a :: rest →
    step s = .next (hostAccess a { s with schedule := rest })) ∧
  (∀ (s : State) (rest : List Turn), s.schedule = .hardReset :: rest →
    step s = .next (hardReset { s with schedule := rest })) ∧
  (∀ (s : State) (nbits w : Nat) (i : Instr), decodeTableWord nbits w = some i →
    ∃ u : State, step (s.withFetchWord nbits w) = exec i u ∧ u.pending = BitVec.ofNat 64 (w % 2 ^ nbits) ∧
      u = { s with cmdLo := u.cmdLo, cmdHi := u.cmdHi, pending := u.pending, busy := true })

/-- Rule R162: nothing stops the machine. Every step answers a next state, and whatever ERR, ERRSEEN and FAULT are, a
CMD_HI write with BUSY = 0 issues the next command. That it issues even if the host has not yet read BUSY = 0 is the
model's choice (log entry 18). -/
def Obligations.NothingStopsTheMachine : Prop :=
  (∀ s : State, ∃ t, step s = .next t) ∧
  (∀ (s : State) (rest : List Turn) (v : Reg32), s.busy = false →
    s.schedule = .host (.write 32 (s.config.base + 0x00C) v) :: rest →
    step s = .next { s with schedule := rest, cmdHi := v, pending := v ++ s.cmdLo, busy := true })

/-- The core's step is weakly fair (rule R179), in the model's form of it: a schedule is finite, so after its turns
and one more step no command is pending. -/
def Obligations.EveryScheduleEndsIdle : Prop :=
  ∀ s : State, ∃ t : State,
    Host.Core.run Sys2Proof.core (s.schedule.length + 1) s = .next t ∧ t.busy = false ∧ t.schedule = []

/-- The issue protocol (rule R150): writing CMD_LO and CMD_HI and giving the core its turn executes exactly the word,
whatever CMD_LO and CMD_HI held before. That these come as turns of a schedule is the model's choice (log entry 6), and that BUSY = 0 suffices for the
writes, read by the host or not (log entry 18). -/
def Obligations.IssueProtocolRunsTheWord : Prop :=
  ∀ (s : State) (w : CmdWord) (rest : List Turn), s.busy = false → s.schedule = issueTurns s.config w ++ rest →
    Host.Core.run Sys2Proof.core 3 s =
      coreStep
        { s with
          cmdLo := w.extractLsb' 0 32, cmdHi := w.extractLsb' 32 32, pending := w, busy := true,
          schedule := (issueTurns s.config w).drop 3 ++ rest }

/-! ## Reset and the invariant -/

/-- The reset state has the values of the table of rule R45 (W, the buffer and the model's own fields apart). -/
def Obligations.ResetHoldsTheTable : Prop :=
  ∀ c : Config,
    let s := State.resetOf c
    s.busy = false ∧ s.err = .ok ∧ s.errSeen = false ∧ s.fault = false ∧ s.key = ⟨false, 0, 0, 0⟩ ∧
    (∀ k, k < 16 → blockByte s.block k = 0 ∧ blockByte s.chain k = 0) ∧ s.outlen = 0 ∧ s.result = 0 ∧
    s.cmdLo = 0 ∧ s.cmdHi = 0 ∧ s.pending = 0 ∧ (∀ a, Memory.byte? s.buffer a = none)

/-- The invariant holds of the reset state for every legal pair of parameters. -/
def Obligations.ResetMeetsInv : Prop := ∀ c : Config, c.Legal → Inv (State.resetOf c)

/-- Every step keeps the invariant: the canonical buffer within BUF_BYTES, the 60 words of W, the key status with W
holding the expansion of a key (rule R24), PENDING as latched (rule R31), OUTLEN within the buffer (rule R25). -/
def Obligations.StepKeepsInv : Prop := ∀ s t : State, Inv s → step s = .next t → Inv t

/-! ## Whole-machine rules over the commands -/

/-- Rule R158: a command that raises an error, an undecodable word too, writes nothing but ERR, ERRSEEN and BUSY. -/
def Obligations.FailedCommandWritesNothing : Prop :=
  ∀ s t : State, coreStep s = .next t → t.err ≠ .ok →
    t = { s with err := t.err, errSeen := true, busy := false, draws := t.draws } ∧ SameBytes s t

/-- Rule R159: the code a command reports is that of the first check that fails, in the order decode, key, round
index, length, range, content. -/
def Obligations.FirstFailingCheckIsReported : Prop :=
  (∀ (s t : State) (why : Illegal), decode s.pending = .illegal why → coreStep s = .next t →
    t.err = .illegalCommand) ∧
  (∀ (i : Instr) (s t : State), i.wellFormed = true → exec i s = .next t →
    (KeyMissing i s → t.err = .noKey) ∧
    (¬ KeyMissing i s → RoundIndexAboveNr i s → t.err = .illegalCommand) ∧
    (¬ KeyMissing i s → ¬ RoundIndexAboveNr i s → ∀ e, LengthError i e → t.err = e) ∧
    (¬ KeyMissing i s → ¬ RoundIndexAboveNr i s → (¬ ∃ e, LengthError i e) → RangeError i s →
      t.err = .bufferRange) ∧
    (¬ KeyMissing i s → ¬ RoundIndexAboveNr i s → (¬ ∃ e, LengthError i e) → ¬ RangeError i s →
      ContentError i s → t.err = .invalidPadding) ∧
    (¬ KeyMissing i s → ¬ RoundIndexAboveNr i s → (¬ ∃ e, LengthError i e) → ¬ RangeError i s →
      ¬ ContentError i s → t.err = .ok))

/-- The "writes" column of rule R57: a command leaves every byte outside its destination range as it was, and a
successful command leaves every byte of that range written. -/
def Obligations.CommandsWriteOnlyTheirDestination : Prop :=
  ∀ (i : Instr) (s t : State), i.wellFormed = true → exec i s = .next t →
    (∀ a, (∀ b n, dstRange i = some (b, n) → a < b ∨ b + n ≤ a) →
      Memory.byte? t.buffer a = Memory.byte? s.buffer a) ∧
    (t.err = .ok → ∀ b n a, dstRange i = some (b, n) → b ≤ a → a < b + n → Memory.byte? t.buffer a ≠ none)

/-- The "written by" lists of rules R21 to R26: only the listed commands change STATE, CHAIN, W and the key status,
OUTLEN and RESULT. -/
def Obligations.OnlyListedCommandsWriteEachRegister : Prop :=
  ∀ (i : Instr) (s t : State), exec i s = .next t →
    (t.block ≠ s.block → (∃ src, i = .ldst src) ∨ i = .subb ∨ i = .invsubb ∨ i = .shrow ∨ i = .invshrow ∨
      i = .mixcol ∨ i = .invmixcol ∨ (∃ r, i = .ark r) ∨ i = .encblk ∨ i = .decblk) ∧
    (t.chain ≠ s.chain → (∃ src len, i = .ldiv src len) ∨ (∃ dst src len, i = .cbcenc dst src len) ∨
      (∃ dst src len, i = .cbcdec dst src len)) ∧
    ((t.w ≠ s.w ∨ t.key ≠ s.key) → ∃ src len, i = .keyexp src len) ∧
    (t.outlen ≠ s.outlen → (∃ dst src len bs, i = .pad dst src len bs) ∨ (∃ src len bs, i = .unpad src len bs)) ∧
    (t.result ≠ s.result → (∃ a b, i = .gfmul a b) ∨ (∃ a, i = .sbox a) ∨ (∃ a, i = .invsbox a))

/-- No command writes CMD_LO, CMD_HI or PENDING (rule R152), FAULT or the parameters; every command, an undecodable
word too, ends with BUSY = 0, and ERRSEEN set exactly if it was set or the code is not 0 (rules R27, R29). -/
def Obligations.CommandsLeaveTheHostSide : Prop :=
  ∀ s t : State, coreStep s = .next t →
    t.cmdLo = s.cmdLo ∧ t.cmdHi = s.cmdHi ∧ t.pending = s.pending ∧ t.fault = s.fault ∧ t.config = s.config ∧
    t.schedule = s.schedule ∧ t.readData = s.readData ∧ t.busy = false ∧
    (t.errSeen = true ↔ (s.errSeen = true ∨ t.err ≠ .ok))

/-- Rule R23: the words of W that no command can read are unobservable. Two states that differ only there step to
states that differ only there, whatever the turn. -/
def Obligations.StaleKeyWordsAreUnobservable : Prop :=
  ∀ s t : State, SameButStaleW s t →
    ∃ s' t' : State, step s = .next s' ∧ step t = .next t' ∧ SameButStaleW s' t'

/-- Rule R176: nothing but a hard reset and a host write of CTRL with bit 0 = 1 clears FAULT or sets KV to 0. -/
def Obligations.OnlyResetClearsFaultOrKey : Prop :=
  ∀ s t : State, step s = .next t →
    ((s.fault = true ∧ t.fault = false) ∨ (s.key.kv = true ∧ t.key.kv = false)) →
    ∃ rest, s.schedule = .hardReset :: rest ∨
      ∃ v : Reg32, s.schedule = .host (.write 32 (s.config.base + 0x01C) v) :: rest ∧ v.getLsbD 0 = true

/-! ## GF(2^8) and the tables -/

/-- GFMUL, SBOX and INVSBOX complete from every state, write RESULT and nothing else but the completion fields (rules
R87, R88, R89). -/
def Obligations.ByteCommandsWriteResult : Prop :=
  ∀ (s : State) (a b : Byte),
    exec (.gfmul a b) s = .next { s with result := gfMul a b, err := .ok, busy := false } ∧
    exec (.sbox a) s = .next { s with result := sBox a, err := .ok, busy := false } ∧
    exec (.invsbox a) s = .next { s with result := invSBox a, err := .ok, busy := false }

/-- Rules R80 and R81: the field laws of `gfmul`; its loop computes the carry-less product reduced modulo 0x11B, in any
order of the bits of b (`clmul` is the carry-less product, `fold` one reduction step per bit 14 .. 8); and the
multiples the column mix and its inverse need. -/
def Obligations.GfMulIsTheFieldProduct : Prop :=
  (∀ a b : Byte, gfMul a b = gfMul b a) ∧
  (∀ a b c : Byte, gfMul a (gfMul b c) = gfMul (gfMul a b) c) ∧
  (∀ a b c : Byte, gfMul a (b ^^^ c) = gfMul a b ^^^ gfMul a c) ∧
  (∀ a : Byte, gfMul a 0x01 = a ∧ gfMul a 0x00 = 0x00) ∧
  (∀ a : Byte, a ≠ 0 → ∃ b : Byte, gfMul a b = 0x01 ∧ ∀ c : Byte, gfMul a c = 0x01 → c = b) ∧
  (∀ a b : Byte,
    let clmul : BitVec 16 := (List.range 8).foldl
      (fun p i => if b.getLsbD i then p ^^^ (a.setWidth 16 <<< i) else p) 0
    let fold : BitVec 16 := [6, 5, 4, 3, 2, 1, 0].foldl
      (fun p i => if p.getLsbD (i + 8) then p ^^^ ((0x11B : BitVec 16) <<< i) else p) clmul
    gfMul a b = fold.setWidth 8) ∧
  (∀ (a b : Byte) (l : List Nat), l.Perm (List.range 8) →
    l.foldl (fun p i => if b.getLsbD i then p ^^^ (gfDouble^[i]) a else p) 0 = gfMul a b) ∧
  (∀ a : Byte,
    gfMul a 0x02 = (a <<< 1) ^^^ (if a.getLsbD 7 then 0x1B else 0x00) ∧
    gfMul a 0x03 = gfMul a 0x02 ^^^ a ∧
    gfMul a 0x09 = gfMul a 0x08 ^^^ a ∧
    gfMul a 0x0B = gfMul a 0x08 ^^^ gfMul a 0x02 ^^^ a ∧
    gfMul a 0x0D = gfMul a 0x08 ^^^ gfMul a 0x04 ^^^ a ∧
    gfMul a 0x0E = gfMul a 0x08 ^^^ gfMul a 0x04 ^^^ gfMul a 0x02)

/-- Rule R83: the table of R82 is, entry by entry, the affine map with constant 0x63 of the multiplicative inverse (0
for 0). Rules R84 and R85: INV_SBOX is the inverse permutation, and neither table has a fixed or an opposite fixed
point. -/
def Obligations.SBoxTables : Prop :=
  (∀ x : Byte, ∃ y : Byte, (x = 0 ∧ y = 0) ∨ gfMul x y = 0x01) ∧
  (∀ x y : Byte, ((x = 0 ∧ y = 0) ∨ gfMul x y = 0x01) →
    ∀ i, i < 8 → (sBox x).getLsbD i =
      (y.getLsbD i ^^ y.getLsbD ((i + 4) % 8) ^^ y.getLsbD ((i + 5) % 8) ^^ y.getLsbD ((i + 6) % 8) ^^
        y.getLsbD ((i + 7) % 8) ^^ (0x63 : Byte).getLsbD i)) ∧
  (∀ x : Byte, invSBox (sBox x) = x ∧ sBox (invSBox x) = x ∧ sBox x ≠ x ∧ sBox x ≠ x ^^^ 0xFF ∧ invSBox x ≠ x ∧
    invSBox x ≠ x ^^^ 0xFF)

/-! ## The key schedule -/

/-- Rules R90, R91, R92, R94 and R95: the expansion of a key of 16, 24 or 32 bytes has 4·(Nr+1) words, starts with the
key's words in byte order, and every later word follows the recurrence of rule R94. Rule R93: the round constants, and
the indexes used. -/
def Obligations.KeyExpansionFollowsTheRecurrence : Prop :=
  (∀ k : List Byte, (k.length = 16 ∨ k.length = 24 ∨ k.length = 32) →
    let nk := k.length / 4
    let w := keyExpansion k
    w.length = 4 * (nk + 6 + 1) ∧
    (∀ i j, i < nk → j < 4 → quadByte (w.getD i Quad.zero) j = k.getD (4 * i + j) 0) ∧
    (∀ i, nk ≤ i → i < 4 * (nk + 6 + 1) → ∀ j, j < 4 →
      quadByte (w.getD i Quad.zero) j = quadByte (w.getD (i - nk) Quad.zero) j ^^^
        (if i % nk = 0 then
          sBox (quadByte (w.getD (i - 1) Quad.zero) ((j + 1) % 4)) ^^^ (if j = 0 then rcon (i / nk) else 0)
        else if 6 < nk ∧ i % nk = 4 then sBox (quadByte (w.getD (i - 1) Quad.zero) j)
        else quadByte (w.getD (i - 1) Quad.zero) j))) ∧
  (rcon 1 = 0x01 ∧ rcon 9 = 0x1B ∧ rcon 10 = 0x36 ∧ (∀ j, 1 ≤ j → j < 10 → rcon (j + 1) = gfMul (rcon j) 0x02) ∧
  (∀ nk i, (nk = 4 ∨ nk = 6 ∨ nk = 8) → nk ≤ i → i < 4 * (nk + 7) → i % nk = 0 → 1 ≤ i / nk ∧ i / nk ≤ 10))

/-- KEYEXP (rule R98): a length other than 16, 24 and 32 raises InvalidKeyLength before the range is checked; a bad
range raises BufferRange; otherwise it completes, W starts with the expansion of the key the buffer holds, later words
are kept, the key status is written, and nothing else changes. -/
def Obligations.KeyexpLoadsTheKey : Prop :=
  ∀ (s : State) (src len : Half),
    ((len.toNat ≠ 16 ∧ len.toNat ≠ 24 ∧ len.toNat ≠ 32) →
      exec (.keyexp src len) s = .next { s with err := .invalidKeyLength, errSeen := true, busy := false }) ∧
    ((len.toNat = 16 ∨ len.toNat = 24 ∨ len.toNat = 32) → ¬ src.toNat + len.toNat ≤ s.config.bufBytes →
      exec (.keyexp src len) s = .next { s with err := .bufferRange, errSeen := true, busy := false }) ∧
    ((len.toNat = 16 ∨ len.toNat = 24 ∨ len.toNat = 32) → src.toNat + len.toNat ≤ s.config.bufBytes →
      ∃ t : State, exec (.keyexp src len) s = .next t ∧
        t = { s with w := t.w, key := t.key, draws := t.draws, err := .ok, busy := false } ∧ SameBytes s t ∧
        t.key.kv = true ∧ t.key.keyLen.toNat = len.toNat ∧ t.key.nk.toNat = len.toNat / 4 ∧
        t.key.nr.toNat = len.toNat / 4 + 6 ∧
        (∀ k : List Byte, k.length = len.toNat → HoldsBytes s.buffer src.toNat k →
          t.w.take (4 * (len.toNat / 4 + 7)) = keyExpansion k) ∧
        (s.w.length = 60 → t.w.length = 60 ∧
          t.w.drop (4 * (len.toNat / 4 + 7)) = s.w.drop (4 * (len.toNat / 4 + 7))))

/-- Rules R96 and R97: round-key block r is four consecutive words in word order; after the expansion of a key, RK(0)
is the key's first 16 bytes; the expanded key material has (NR+1)·16 bytes, and its byte 16r + k is byte k of RK(r). -/
def Obligations.RoundKeySlices : Prop :=
  (∀ (w : List Quad) (r k : Nat), k < 16 →
    blockByte (roundKey w r) k = quadByte (w.getD (4 * r + k / 4) Quad.zero) (k % 4)) ∧
  (∀ (key : List Byte) (k : Nat), (key.length = 16 ∨ key.length = 24 ∨ key.length = 32) → k < 16 →
    blockByte (roundKey (keyExpansion key) 0) k = key.getD k 0) ∧
  (∀ (w : List Quad) (nr r k : Nat), 4 * (nr + 1) ≤ w.length → r ≤ nr → k < 16 →
    (bytesOfBlocks ((List.range (nr + 1)).map (roundKey w))).length = (nr + 1) * 16 ∧
    (bytesOfBlocks ((List.range (nr + 1)).map (roundKey w)))[16 * r + k]? = some (blockByte (roundKey w r) k))

/-- STRK (rule R99) completes when there is a key, R ≤ NR and the range is good: it stores RK(R), whose byte k
is byte k mod 4 of W[4R + k div 4], and changes nothing else. -/
def Obligations.StrkStoresTheRoundKey : Prop :=
  ∀ (s : State) (dst : Half) (r : Byte), s.key.kv = true → r.toNat ≤ s.key.nr.toNat →
    dst.toNat + 16 ≤ s.config.bufBytes →
    ∃ t : State, exec (.strk dst r) s = .next t ∧ t = { s with buffer := t.buffer, err := .ok, busy := false } ∧
      SameBytesOutside dst.toNat 16 s t ∧
      ∀ k, k < 16 → Memory.byte? t.buffer (dst.toNat + k) =
        some (quadByte (s.w.getD (4 * r.toNat + k / 4) Quad.zero) (k % 4))

/-! ## STATE and the round transforms -/

/-- LDST (rule R109) and LDIV with LEN = 16 (rule R136): byte k of STATE or CHAIN becomes the byte the buffer holds at
SRC + k, in any alignment; nothing else changes. -/
def Obligations.LoadsFillTheRegister : Prop :=
  ∀ (s : State) (src : Half), src.toNat + 16 ≤ s.config.bufBytes →
    (∃ t : State, exec (.ldst src) s = .next t ∧
      t = { s with block := t.block, draws := t.draws, err := .ok, busy := false } ∧ SameBytes s t ∧
      ∀ k b, k < 16 → Memory.byte? s.buffer (src.toNat + k) = some b → blockByte t.block k = b) ∧
    (∃ t : State, exec (.ldiv src 16) s = .next t ∧
      t = { s with chain := t.chain, draws := t.draws, err := .ok, busy := false } ∧ SameBytes s t ∧
      ∀ k b, k < 16 → Memory.byte? s.buffer (src.toNat + k) = some b → blockByte t.chain k = b)

/-- STST (rule R110) and STIV (rule R137): the 16 bytes at DST become those of STATE or CHAIN; every other byte and
every register is unchanged. -/
def Obligations.StoresWriteTheRegister : Prop :=
  ∀ (s : State) (dst : Half), dst.toNat + 16 ≤ s.config.bufBytes →
    (∃ t : State, exec (.stst dst) s = .next t ∧ t = { s with buffer := t.buffer, err := .ok, busy := false } ∧
      SameBytesOutside dst.toNat 16 s t ∧ HoldsBlock t.buffer dst.toNat s.block) ∧
    (∃ t : State, exec (.stiv dst) s = .next t ∧ t = { s with buffer := t.buffer, err := .ok, busy := false } ∧
      SameBytesOutside dst.toNat 16 s t ∧ HoldsBlock t.buffer dst.toNat s.chain)

/-- Rules R101 to R104 byte by byte, the two byte maps of the shifts, and their inverse law; SUBB, INVSUBB, SHROW and
INVSHROW (rules R111 to R114) complete from every state, apply them to STATE and change nothing else. -/
def Obligations.ByteAndRowTransforms : Prop :=
  (∀ (b : Block) (k : Nat), k < 16 →
    blockByte (subBytes b) k = sBox (blockByte b k) ∧ blockByte (invSubBytes b) k = invSBox (blockByte b k) ∧
    blockByte (shiftRows b) k =
      blockByte b ([0, 5, 10, 15, 4, 9, 14, 3, 8, 13, 2, 7, 12, 1, 6, 11].getD k 0) ∧
    blockByte (invShiftRows b) k =
      blockByte b ([0, 13, 10, 7, 4, 1, 14, 11, 8, 5, 2, 15, 12, 9, 6, 3].getD k 0)) ∧
  (∀ (b : Block) (r c : Nat), r < 4 → c < 4 →
    blockByte (shiftRows b) (r + 4 * c) = blockByte b (r + 4 * ((c + r) % 4)) ∧
    blockByte (invShiftRows b) (r + 4 * c) = blockByte b (r + 4 * ((c + 4 - r) % 4))) ∧
  (∀ b : Block, invShiftRows (shiftRows b) = b ∧ shiftRows (invShiftRows b) = b) ∧
  (∀ s : State,
    exec .subb s = .next { s with block := subBytes s.block, err := .ok, busy := false } ∧
    exec .invsubb s = .next { s with block := invSubBytes s.block, err := .ok, busy := false } ∧
    exec .shrow s = .next { s with block := shiftRows s.block, err := .ok, busy := false } ∧
    exec .invshrow s = .next { s with block := invShiftRows s.block, err := .ok, busy := false })

/-- Rules R105 and R106: the column mixes are the products with the two matrices, and each undoes the other; MIXCOL
and INVMIXCOL (rules R115, R116) complete from every state, apply them to STATE and change nothing else. -/
def Obligations.ColumnTransforms : Prop :=
  let m : List (List Byte) := [[2, 3, 1, 1], [1, 2, 3, 1], [1, 1, 2, 3], [3, 1, 1, 2]]
  let minv : List (List Byte) := [[0xE, 0xB, 0xD, 9], [9, 0xE, 0xB, 0xD], [0xD, 9, 0xE, 0xB], [0xB, 0xD, 9, 0xE]]
  let product : List (List Byte) → Block → Nat → Nat → Byte := fun mat b c i =>
    gfMul ((mat.getD i []).getD 0 0) (blockByte b (4 * c)) ^^^
    gfMul ((mat.getD i []).getD 1 0) (blockByte b (4 * c + 1)) ^^^
    gfMul ((mat.getD i []).getD 2 0) (blockByte b (4 * c + 2)) ^^^
    gfMul ((mat.getD i []).getD 3 0) (blockByte b (4 * c + 3))
  (∀ (b : Block) (c i : Nat), c < 4 → i < 4 →
    blockByte (mixColumns b) (4 * c + i) = product m b c i ∧
    blockByte (invMixColumns b) (4 * c + i) = product minv b c i) ∧
  (∀ b : Block, invMixColumns (mixColumns b) = b ∧ mixColumns (invMixColumns b) = b) ∧
  (∀ s : State,
    exec .mixcol s = .next { s with block := mixColumns s.block, err := .ok, busy := false } ∧
    exec .invmixcol s = .next { s with block := invMixColumns s.block, err := .ok, busy := false })

/-- Rule R107: AddRoundKey byte by byte, its own inverse; ARK (rule R117) completes exactly when there is a key and
R ≤ NR, and raises NoKey or IllegalCommand otherwise with nothing else written. -/
def Obligations.AddRoundKeyAndArk : Prop :=
  (∀ (w : List Quad) (b : Block) (r k : Nat), k < 16 →
    blockByte (addRoundKey w b r) k = blockByte b k ^^^ blockByte (roundKey w r) k) ∧
  (∀ (w : List Quad) (b : Block) (r : Nat), addRoundKey w (addRoundKey w b r) r = b) ∧
  (∀ (s : State) (r : Byte),
    (s.key.kv = false → exec (.ark r) s = .next { s with err := .noKey, errSeen := true, busy := false }) ∧
    (s.key.kv = true → ¬ r.toNat ≤ s.key.nr.toNat →
      exec (.ark r) s = .next { s with err := .illegalCommand, errSeen := true, busy := false }) ∧
    (s.key.kv = true → r.toNat ≤ s.key.nr.toNat →
      exec (.ark r) s =
        .next { s with block := addRoundKey s.w s.block r.toNat, err := .ok, busy := false }))

/-- Rule R108: the transforms are bijections, SubBytes commutes with ShiftRows (and the inverses), MixColumns and
InvMixColumns are linear, and each works column by column, row by row or byte by byte. -/
def Obligations.TransformAlgebra : Prop :=
  (∀ b : Block, invSubBytes (subBytes b) = b ∧ subBytes (invSubBytes b) = b ∧
    invShiftRows (shiftRows b) = b ∧ shiftRows (invShiftRows b) = b ∧
    invMixColumns (mixColumns b) = b ∧ mixColumns (invMixColumns b) = b) ∧
  (∀ b : Block, shiftRows (subBytes b) = subBytes (shiftRows b) ∧
    invShiftRows (invSubBytes b) = invSubBytes (invShiftRows b)) ∧
  (∀ b c : Block, mixColumns (blockXor b c) = blockXor (mixColumns b) (mixColumns c) ∧
    invMixColumns (blockXor b c) = blockXor (invMixColumns b) (invMixColumns c)) ∧
  (∀ (b c : Block) (j : Nat), j < 4 → blockColumn b j = blockColumn c j →
    blockColumn (mixColumns b) j = blockColumn (mixColumns c) j ∧
    blockColumn (invMixColumns b) j = blockColumn (invMixColumns c) j) ∧
  (∀ (b c : Block) (r : Nat), r < 4 → (∀ j, j < 4 → blockByte b (r + 4 * j) = blockByte c (r + 4 * j)) →
    ∀ j, j < 4 → blockByte (shiftRows b) (r + 4 * j) = blockByte (shiftRows c) (r + 4 * j)) ∧
  (∀ (b c : Block) (k : Nat), k < 16 → blockByte b k = blockByte c k →
    blockByte (subBytes b) k = blockByte (subBytes c) k)

/-! ## The block cipher -/

/-- ENCBLK and DECBLK (rules R124, R125) complete exactly when there is a key, apply the cipher of the current round
keys (rules R118, R119) to STATE and change nothing else; without a key they raise NoKey. -/
def Obligations.BlockCommandsTransformState : Prop :=
  ∀ s : State,
    (s.key.kv = true →
      exec .encblk s = .next { s with block := cipher s.w s.key.nr.toNat s.block, err := .ok, busy := false } ∧
      exec .decblk s = .next { s with block := invCipher s.w s.key.nr.toNat s.block, err := .ok, busy := false }) ∧
    (s.key.kv = false →
      exec .encblk s = .next { s with err := .noKey, errSeen := true, busy := false } ∧
      exec .decblk s = .next { s with err := .noKey, errSeen := true, busy := false })

/-- Rule R120: Cipher and InvCipher are inverse to each other, for every key and every block; so DECBLK after ENCBLK
restores STATE, and ENCBLK after DECBLK. -/
def Obligations.CipherRoundTrip : Prop :=
  (∀ (w : List Quad) (nr : Nat) (b : Block),
    invCipher w nr (cipher w nr b) = b ∧ cipher w nr (invCipher w nr b) = b) ∧
  (∀ s : State, s.key.kv = true →
    execAll [.encblk, .decblk] s = .next { s with err := .ok, busy := false } ∧
    execAll [.decblk, .encblk] s = .next { s with err := .ok, busy := false })

/-- Rule R121: the known-answer vector. -/
def Obligations.KnownAnswerVector : Prop :=
  blockBytes
    (cipher
      (keyExpansion [0x00, 0x01, 0x02, 0x03, 0x04, 0x05, 0x06, 0x07, 0x08, 0x09, 0x0a, 0x0b, 0x0c, 0x0d, 0x0e, 0x0f])
      10
      (blockOf [0x00, 0x11, 0x22, 0x33, 0x44, 0x55, 0x66, 0x77, 0x88, 0x99, 0xaa, 0xbb, 0xcc, 0xdd, 0xee, 0xff])) =
    [0x69, 0xc4, 0xe0, 0xd8, 0x6a, 0x7b, 0x04, 0x30, 0xd8, 0xcd, 0xb7, 0x80, 0x70, 0xb4, 0xc5, 0x5a]

/-- Rule R123: ENCBLK and DECBLK have the effect of their sequences of round commands. -/
def Obligations.BlockCommandsEqualTheirSequences : Prop :=
  ∀ s : State, s.key.kv = true →
    (∃ t : State, exec .encblk s = .next t ∧ execAll (encblkSequence s.key.nr.toNat) s = .next t) ∧
    (∃ t : State, exec .decblk s = .next t ∧ execAll (decblkSequence s.key.nr.toNat) s = .next t)

/-! ## Modes -/

/-- ECBENC and ECBDEC (rules R139, R140, R126, R127, R134): with a key, a length that is a multiple of 16 and both
ranges in the buffer, they complete; output block i is the transform of the input block i the buffer held at the
start, wherever the ranges lie; every other byte and every register is unchanged. -/
def Obligations.EcbTransformsEachBlock : Prop :=
  ∀ (s : State) (dst src len : Half), s.key.kv = true → len.toNat % 16 = 0 →
    src.toNat + len.toNat ≤ s.config.bufBytes → dst.toNat + len.toNat ≤ s.config.bufBytes →
    (∃ t : State, exec (.ecbenc dst src len) s = .next t ∧
      t = { s with buffer := t.buffer, draws := t.draws, err := .ok, busy := false } ∧
      SameBytesOutside dst.toNat len.toNat s t ∧
      ∀ i p, i < len.toNat / 16 → HoldsBlock s.buffer (src.toNat + 16 * i) p →
        HoldsBlock t.buffer (dst.toNat + 16 * i) (cipher s.w s.key.nr.toNat p)) ∧
    (∃ t : State, exec (.ecbdec dst src len) s = .next t ∧
      t = { s with buffer := t.buffer, draws := t.draws, err := .ok, busy := false } ∧
      SameBytesOutside dst.toNat len.toNat s t ∧
      ∀ i c, i < len.toNat / 16 → HoldsBlock s.buffer (src.toNat + 16 * i) c →
        HoldsBlock t.buffer (dst.toNat + 16 * i) (invCipher s.w s.key.nr.toNat c))

/-- CBCENC (rules R141, R128, R133): output block i is Cipher(P_i ⊕ previous), where the previous block is CHAIN for
i = 0 and output block i-1 after; CHAIN becomes the last output block, or stays when LEN = 0. -/
def Obligations.CbcencChainsTheBlocks : Prop :=
  ∀ (s : State) (dst src len : Half), s.key.kv = true → len.toNat % 16 = 0 →
    src.toNat + len.toNat ≤ s.config.bufBytes → dst.toNat + len.toNat ≤ s.config.bufBytes →
    ∃ t : State, exec (.cbcenc dst src len) s = .next t ∧
      t = { s with buffer := t.buffer, chain := t.chain, draws := t.draws, err := .ok, busy := false } ∧
      SameBytesOutside dst.toNat len.toNat s t ∧
      (∀ i p q, i < len.toNat / 16 → HoldsBlock s.buffer (src.toNat + 16 * i) p →
        (if i = 0 then q = s.chain else HoldsBlock t.buffer (dst.toNat + 16 * (i - 1)) q) →
        HoldsBlock t.buffer (dst.toNat + 16 * i) (cipher s.w s.key.nr.toNat (blockXor p q))) ∧
      (len.toNat = 0 → t.chain = s.chain) ∧
      (len.toNat ≠ 0 → HoldsBlock t.buffer (dst.toNat + 16 * (len.toNat / 16 - 1)) t.chain)

/-- CBCDEC (rules R142, R129, R133): output block i is InvCipher(C_i) ⊕ previous, where the previous block is CHAIN for
i = 0 and the input's ciphertext block i-1 after, in place too; CHAIN becomes the last input block, or stays when
LEN = 0. -/
def Obligations.CbcdecChainsTheBlocks : Prop :=
  ∀ (s : State) (dst src len : Half), s.key.kv = true → len.toNat % 16 = 0 →
    src.toNat + len.toNat ≤ s.config.bufBytes → dst.toNat + len.toNat ≤ s.config.bufBytes →
    ∃ t : State, exec (.cbcdec dst src len) s = .next t ∧
      t = { s with buffer := t.buffer, chain := t.chain, draws := t.draws, err := .ok, busy := false } ∧
      SameBytesOutside dst.toNat len.toNat s t ∧
      (∀ i c q, i < len.toNat / 16 → HoldsBlock s.buffer (src.toNat + 16 * i) c →
        (if i = 0 then q = s.chain else HoldsBlock s.buffer (src.toNat + 16 * (i - 1)) q) →
        HoldsBlock t.buffer (dst.toNat + 16 * i) (blockXor (invCipher s.w s.key.nr.toNat c) q)) ∧
      (len.toNat = 0 → t.chain = s.chain) ∧
      (∀ c, len.toNat ≠ 0 → HoldsBlock s.buffer (src.toNat + 16 * (len.toNat / 16 - 1)) c → t.chain = c)

/-- Rule R131: with a key, a mode command whose length is no multiple of 16 raises InvalidBlockLength and writes
nothing else; with LEN = 0 and both addresses in the buffer it writes nothing and completes with ERR = 0. -/
def Obligations.ModesCheckTheLengthFirst : Prop :=
  ∀ (s : State) (dst src len : Half) (i : Instr),
    (i = .ecbenc dst src len ∨ i = .ecbdec dst src len ∨ i = .cbcenc dst src len ∨ i = .cbcdec dst src len) →
    s.key.kv = true →
    (len.toNat % 16 ≠ 0 →
      exec i s = .next { s with err := .invalidBlockLength, errSeen := true, busy := false }) ∧
    (len.toNat = 0 → src.toNat ≤ s.config.bufBytes → dst.toNat ≤ s.config.bufBytes →
      exec i s = .next { s with err := .ok, busy := false })

/-- Rules R132 and R133: a mode command neither reads nor writes STATE, and ECBENC and ECBDEC neither read nor write
CHAIN. -/
def Obligations.ModesIgnoreState : Prop :=
  ∀ (s t : State) (dst src len : Half) (b c : Block),
    (∀ i : Instr,
      (i = .ecbenc dst src len ∨ i = .ecbdec dst src len ∨ i = .cbcenc dst src len ∨ i = .cbcdec dst src len) →
      exec i s = .next t → t.block = s.block ∧ exec i { s with block := b } = .next { t with block := b }) ∧
    (∀ i : Instr, (i = .ecbenc dst src len ∨ i = .ecbdec dst src len) → exec i s = .next t →
      t.chain = s.chain ∧ exec i { s with chain := c } = .next { t with chain := c })

/-- Rule R130: the round trips of ECB and CBC, equal blocks under ECB, splitting a CBC message, and the first block
under a zero IV. -/
def Obligations.ModeLaws : Prop :=
  ∀ (w : List Quad) (nr : Nat),
    (∀ p : List Block, ecbD w nr (ecbE w nr p) = p) ∧
    (∀ (iv : Block) (p : List Block),
      cbcD w nr iv (cbcE w nr iv p).1 = (p, (cbcE w nr iv p).2)) ∧
    (∀ (p : List Block) (i j : Nat), p[i]? = p[j]? → (ecbE w nr p)[i]? = (ecbE w nr p)[j]?) ∧
    (∀ (iv : Block) (p q : List Block),
      cbcE w nr iv (p ++ q) =
        ((cbcE w nr iv p).1 ++ (cbcE w nr (cbcE w nr iv p).2 q).1, (cbcE w nr (cbcE w nr iv p).2 q).2) ∧
      cbcD w nr iv (p ++ q) =
        ((cbcD w nr iv p).1 ++ (cbcD w nr (cbcD w nr iv p).2 q).1, (cbcD w nr (cbcD w nr iv p).2 q).2)) ∧
    (∀ p : List Block, (cbcE w nr Block.zero p).1[0]? = (ecbE w nr p)[0]?)

/-! ## Padding -/

/-- PAD (rule R148): with BS ≠ 0 and both ranges in the buffer it completes; the destination holds the bytes the source
held, then n bytes of value n (rule R143); OUTLEN is LEN + n, a multiple of BS; nothing else changes. -/
def Obligations.PadAppendsTheCount : Prop :=
  ∀ (s : State) (dst src len : Half) (bs : Byte), bs ≠ 0 →
    let n := bs.toNat - len.toNat % bs.toNat
    src.toNat + len.toNat ≤ s.config.bufBytes → dst.toNat + (len.toNat + n) ≤ s.config.bufBytes →
    ∃ t : State, exec (.pad dst src len bs) s = .next t ∧
      t = { s with buffer := t.buffer, outlen := t.outlen, draws := t.draws, err := .ok, busy := false } ∧
      SameBytesOutside dst.toNat (len.toNat + n) s t ∧
      (∀ k b, k < len.toNat → Memory.byte? s.buffer (src.toNat + k) = some b →
        Memory.byte? t.buffer (dst.toNat + k) = some b) ∧
      (∀ k, len.toNat ≤ k → k < len.toNat + n →
        (Memory.byte? t.buffer (dst.toNat + k)).map BitVec.toNat = some n) ∧
      t.outlen.toNat = len.toNat + n ∧ 1 ≤ n ∧ n ≤ bs.toNat ∧ (len.toNat + n) % bs.toNat = 0

/-- Rule R144: `UnpadCheck` is valid exactly under its four conditions, with result L - v. -/
def Obligations.UnpadCheckConditions : Prop :=
  ∀ (d : List Byte) (bs : Byte) (r : Nat), unpadCheck d bs = some r ↔
    ∃ v : Byte, 1 ≤ d.length ∧ d.getD (d.length - 1) 0 = v ∧ 1 ≤ v.toNat ∧ v.toNat ≤ bs.toNat ∧
      v.toNat ≤ d.length ∧ (∀ k, d.length - v.toNat ≤ k → k < d.length → d.getD k 0 = v) ∧ r = d.length - v.toNat

/-- UNPAD (rules R149, R146): on a range in the buffer whose bytes are d, it sets OUTLEN to the stripped length if the
padding is valid; if not it raises InvalidPadding and keeps OUTLEN. It writes no buffer byte. -/
def Obligations.UnpadReportsTheLength : Prop :=
  ∀ (s : State) (src len : Half) (bs : Byte) (d : List Byte), src.toNat + len.toNat ≤ s.config.bufBytes →
    d.length = len.toNat → HoldsBytes s.buffer src.toNat d →
    (∀ r, unpadCheck d bs = some r → ∃ t : State, exec (.unpad src len bs) s = .next t ∧
      t = { s with outlen := t.outlen, draws := t.draws, err := .ok, busy := false } ∧ SameBytes s t ∧
      t.outlen.toNat = r) ∧
    (unpadCheck d bs = none → ∃ t : State, exec (.unpad src len bs) s = .next t ∧
      t = { s with draws := t.draws, err := .invalidPadding, errSeen := true, busy := false } ∧ SameBytes s t)

/-- Rule R145: the padding round trip, for every string and every block size 1..255; and a trailer that is out of
range or not uniform is rejected. -/
def Obligations.PaddingRoundTrip : Prop :=
  (∀ (x : List Byte) (bs : Byte), bs ≠ 0 →
    unpadCheck (padBytes x bs) bs = some x.length ∧ (padBytes x bs).take x.length = x) ∧
  (∀ (d : List Byte) (bs v : Byte), 1 ≤ d.length → d.getD (d.length - 1) 0 = v →
    (v = 0 ∨ bs.toNat < v.toNat ∨ ∃ k, d.length - v.toNat ≤ k ∧ k < d.length ∧ d.getD k 0 ≠ v) →
    unpadCheck d bs = none)

/-- The padding round trip on the machine (rules R145, R148, R149): UNPAD of what PAD wrote, with the OUTLEN it wrote
(when that fits the LEN field), gives back LEN, even where the padded bytes were never written. -/
def Obligations.PadThenUnpadGivesTheLength : Prop :=
  ∀ (s t : State) (dst src len : Half) (bs : Byte), bs ≠ 0 → exec (.pad dst src len bs) s = .next t → t.err = .ok →
    t.outlen.toNat < 65536 →
    ∃ u : State, exec (.unpad dst (BitVec.ofNat 16 t.outlen.toNat) bs) t = .next u ∧ u.err = .ok ∧
      u.outlen.toNat = len.toNat ∧ SameBytes t u

/-! ## NOP -/

/-- NOP (rule R151) completes from every state and writes only ERR = 0 and BUSY = 0; ERRSEEN is not cleared. Only the
all-zero word is NOP. -/
def Obligations.NopOnlyCompletes : Prop :=
  (∀ s : State, exec .nop s = .next { s with err := .ok, busy := false }) ∧
  (∀ w : CmdWord, decode w = .command .nop ↔ w = 0)

/-! ## The host's side -/

/-- Rules R53, R54, R56 and R163: an access of the wrong width, alignment or time sets FAULT, is ignored or reads 0,
and does nothing else, so a pending command is not disturbed; any other access sets no FAULT, and no step but a host
access sets it. That BUSY alone decides the time, so that an access after the completion sets no FAULT though the host
has not yet read BUSY = 0, is the model's choice (log entry 18; R178 reads otherwise). -/
def Obligations.ViolationsOnlySetFault : Prop :=
  (∀ s t : State, step s = .next t → s.fault = false → t.fault = true → ∃ a rest, s.schedule = .host a :: rest) ∧
  ∀ (s : State) (rest : List Turn) (width off : Nat) (v : Reg32), off < 0x20000 →
    let shape : Prop := (off < 0x10000 ∧ width = 32 ∧ off % 4 = 0) ∨
      (0x10000 ≤ off ∧ (width = 8 ∨ width = 16 ∨ width = 32) ∧ off % (width / 8) = 0)
    let readOk : Prop := if s.busy then width = 32 ∧ (off = 0x000 ∨ off = 0x004 ∨ off = 0x020) else shape
    let writeOk : Prop := if s.busy then width = 32 ∧ off = 0x01C else shape
    (s.schedule = .host (.read width (s.config.base + off)) :: rest →
      (¬ readOk → step s = .next { s with schedule := rest, fault := true, readData := 0 }) ∧
      (readOk → ∃ t : State, step s = .next t ∧ t.fault = s.fault)) ∧
    (s.schedule = .host (.write width (s.config.base + off) v) :: rest →
      (¬ writeOk → step s = .next { s with schedule := rest, fault := true }) ∧
      (writeOk → ∃ t : State, step s = .next t ∧ (t.fault = true → s.fault = true)))

/-- The register map (rules R34 to R43) as an aligned 32-bit read sees it with BUSY = 0, and STATUS, ID and BUFSIZE
with BUSY = 1 too; a register read changes nothing but the value read (rule R59). With BUSY = 0 not yet read by the
host this is the model's choice (log entry 18). -/
def Obligations.RegisterReads : Prop :=
  ∀ (s : State) (rest : List Turn) (off : Nat) (v : Reg32),
    s.schedule = .host (.read 32 (s.config.base + off)) :: rest →
    ((s.busy = false ∧ off < 0x10000 ∧ off % 4 = 0) ∨ off = 0x000 ∨ off = 0x004 ∨ off = 0x020) →
    ((off = 0x000 ∧ v = 0x41455331) ∨ (off = 0x004 ∧ v = statusWord s) ∨ (off = 0x008 ∧ v = s.cmdLo) ∨
      (off = 0x00C ∧ v = s.cmdHi) ∨ (off = 0x010 ∧ v.toNat = s.outlen.toNat) ∨
      (off = 0x014 ∧ v.toNat = s.result.toNat) ∨ (off = 0x018 ∧ v = keycfgWord s) ∨
      (off = 0x020 ∧ v = BitVec.ofNat 32 s.config.bufBytes) ∨ ((off = 0x01C ∨ 0x024 ≤ off) ∧ v = 0)) →
    step s = .next { s with schedule := rest, readData := v }

/-- The fields of STATUS and KEYCFG (rules R35, R40), bit by bit, the numbers of the error codes (rule R155),
and what KEYCFG reads after a successful KEYEXP (rule R40). -/
def Obligations.StatusAndKeycfgFields : Prop :=
  (∀ s : State,
    (∀ i, i < 32 → (statusWord s).getLsbD i =
      (if i = 0 then s.busy else if i = 1 then s.key.kv
        else if 8 ≤ i ∧ i < 12 then (errBits s.err).getLsbD (i - 8)
        else if i = 16 then s.errSeen else if i = 17 then s.fault else false)) ∧
    (∀ i, i < 32 → (keycfgWord s).getLsbD i =
      (if i < 6 then s.key.keyLen.getLsbD i else if 8 ≤ i ∧ i < 12 then s.key.nk.getLsbD (i - 8)
        else if 16 ≤ i ∧ i < 20 then s.key.nr.getLsbD (i - 16) else false)) ∧
    (errBits .ok = 0 ∧ errBits .invalidKeyLength = 1 ∧ errBits .invalidBlockLength = 2 ∧
      errBits .invalidPadding = 3 ∧ errBits .noKey = 4 ∧ errBits .illegalCommand = 5 ∧ errBits .bufferRange = 6)) ∧
  (∀ (s t : State) (src len : Half), exec (.keyexp src len) s = .next t → t.err = .ok →
    (len.toNat = 16 ∧ keycfgWord t = 0x000A0410) ∨ (len.toNat = 24 ∧ keycfgWord t = 0x000C0618) ∨
    (len.toNat = 32 ∧ keycfgWord t = 0x000E0820))

/-- Register writes with BUSY = 0 (rules R35, R36, R37, R41, R43): STATUS bit 16 clears ERRSEEN and no other bit does
anything; CMD_LO stores; CMD_HI stores and issues; a read-only register and an unassigned offset do nothing. And with
BUSY = 0 or 1 (rules R41, R56) a CTRL write with bit 0 = 0 does nothing: a pending command is not disturbed. With
BUSY = 0 not yet read by the host the effect of the other writes is the model's choice (log entry 18). -/
def Obligations.RegisterWrites : Prop :=
  (∀ (s : State) (rest : List Turn) (v : Reg32),
    s.schedule = .host (.write 32 (s.config.base + 0x01C) v) :: rest → v.getLsbD 0 = false →
    step s = .next { s with schedule := rest }) ∧
  ∀ (s : State) (rest : List Turn) (off : Nat) (v : Reg32),
    s.schedule = .host (.write 32 (s.config.base + off) v) :: rest → s.busy = false → off < 0x10000 → off % 4 = 0 →
    (off = 0x004 → step s =
      .next { s with schedule := rest, errSeen := s.errSeen && !v.getLsbD 16 }) ∧
    (off = 0x008 → step s = .next { s with schedule := rest, cmdLo := v }) ∧
    (off = 0x00C → step s =
      .next { s with schedule := rest, cmdHi := v, pending := v ++ s.cmdLo, busy := true }) ∧
    (off = 0x000 ∨ off = 0x010 ∨ off = 0x014 ∨ off = 0x018 ∨ 0x020 ≤ off →
      step s = .next { s with schedule := rest })

/-- The model's reading of rule R175: a CTRL write with bit 0 = 1, at any time, puts every register at its reset value and
keeps W and the buffer, but the destination bytes of a pending command become never written. That they do so even if the
command would have failed, and that a pending word which does not decode forgets nothing, is read from R175 by inference
(log entry 10, DEDUCED). That the model's own fields `draws` and `readData` are kept is its choice (log entries 5, 7). -/
def Obligations.SoftReset : Prop :=
  ∀ (s : State) (rest : List Turn) (v : Reg32),
    s.schedule = .host (.write 32 (s.config.base + 0x01C) v) :: rest → v.getLsbD 0 = true →
    ∃ t : State, step s = .next t ∧
      t = { State.resetOf s.config with
            w := s.w, buffer := t.buffer, draws := s.draws, schedule := rest, readData := s.readData } ∧
      ∀ a,
        ((s.busy = true ∧ ∃ i b n, decode s.pending = .command i ∧ dstRange i = some (b, n) ∧ b ≤ a ∧ a < b + n) →
          Memory.byte? t.buffer a = none) ∧
        (¬ (s.busy = true ∧ ∃ i b n, decode s.pending = .command i ∧ dstRange i = some (b, n) ∧ b ≤ a ∧ a < b + n) →
          Memory.byte? t.buffer a = Memory.byte? s.buffer a)

/-- Rules R52, R54 and R59: an aligned 8-, 16- or 32-bit buffer write with BUSY = 0 stores its bytes low byte first and
changes nothing else; such a read returns the bytes the buffer holds, low byte first, and changes nothing but the value
read. The model's choices, no rule's: a write of fewer than 32 bits takes the low bits of a 32-bit value (log entry 16);
the value read is held in 32 bits, zero above the bytes read (log entry 7); reads count draws (log entry 5); BUSY = 0
suffices, read by the host or not (log entry 18). -/
def Obligations.BufferAccessIsLittleEndian : Prop :=
  (∀ (s : State) (rest : List Turn) (width a : Nat) (v : Reg32),
    s.schedule = .host (.write width (s.config.base + 0x10000 + a) v) :: rest → s.busy = false →
    (width = 8 ∨ width = 16 ∨ width = 32) → a % (width / 8) = 0 → a + width / 8 ≤ s.config.bufBytes →
    s.config.bufBytes ≤ 65536 →
    ∃ t : State, step s = .next t ∧ t = { s with buffer := t.buffer, schedule := rest } ∧
      SameBytesOutside a (width / 8) s t ∧
      ∀ j, j < width / 8 → Memory.byte? t.buffer (a + j) = some (v.extractLsb' (8 * j) 8)) ∧
  (∀ (s : State) (rest : List Turn) (width a : Nat),
    s.schedule = .host (.read width (s.config.base + 0x10000 + a)) :: rest → s.busy = false →
    (width = 8 ∨ width = 16 ∨ width = 32) → a % (width / 8) = 0 → a + width / 8 ≤ s.config.bufBytes →
    s.config.bufBytes ≤ 65536 →
    ∃ t : State, step s = .next t ∧
      t = { s with schedule := rest, readData := t.readData, draws := t.draws } ∧
      (∀ j b, j < width / 8 → Memory.byte? s.buffer (a + j) = some b → t.readData.extractLsb' (8 * j) 8 = b) ∧
      (∀ i, width ≤ i → t.readData.getLsbD i = false))

/-- Rule R47: past BUF_BYTES the buffer window reads 0 and ignores writes, with no FAULT. With BUSY = 0 not yet read by
the host this is the model's choice (log entry 18). -/
def Obligations.UnbackedWindowReadsZero : Prop :=
  ∀ (s : State) (rest : List Turn) (width a : Nat) (v : Reg32), s.busy = false →
    (width = 8 ∨ width = 16 ∨ width = 32) → a % (width / 8) = 0 → s.config.bufBytes ≤ a → a < 0x10000 →
    (s.schedule = .host (.read width (s.config.base + 0x10000 + a)) :: rest →
      step s = .next { s with schedule := rest, readData := 0 }) ∧
    (s.schedule = .host (.write width (s.config.base + 0x10000 + a) v) :: rest →
      step s = .next { s with schedule := rest })

/-- Rule R59: no host read changes a register, a buffer byte or a pending command; at most FAULT is set, by a
violation. A read outside the window leaves the core as it is by the model's reading of R60 (log entry 12, DEDUCED). -/
def Obligations.HostReadsHaveNoSideEffect : Prop :=
  ∀ (s : State) (rest : List Turn) (width addr : Nat), s.schedule = .host (.read width addr) :: rest →
    ∃ t : State, step s = .next t ∧
      t = { s with schedule := rest, readData := t.readData, draws := t.draws, fault := t.fault } ∧
      (s.fault = true → t.fault = true) ∧ SameBytes s t

/-- The model's form of rule R51: a read of a never written buffer byte gives the free value of a draw of its own, and a
later read draws afresh. The rule asks only for a value drawn freshly at each read. That the value is
`Config.freeByte` of the count `draws` (log entries 4 and 5), that the count goes up by one for each byte read (log entry
5), that the value is held in 32 bits, zeros above (log entry 7), and that BUSY = 0 suffices, read by the host or not
(log entry 18), are the model's. No claim rests on what the value is. -/
def Obligations.UnwrittenByteReadsDrawAfresh : Prop :=
  ∀ (s : State) (rest : List Turn) (a : Nat),
    s.schedule = .host (.read 8 (s.config.base + 0x10000 + a)) :: rest → s.busy = false →
    a < s.config.bufBytes → s.config.bufBytes ≤ 65536 → Memory.byte? s.buffer a = none →
    step s = .next
      { s with schedule := rest, readData := (Config.freeByte s.draws).setWidth 32, draws := s.draws + 1 }

/-- Rule R174: a hard reset, pending command or not, gives the reset state of the same parameters; no buffer byte is
written then. The model's choices: W after it (log entry 3), the hard reset as a turn of the schedule (log entry 17), and
that its own fields `draws` and `readData` are kept (log entries 5, 7). -/
def Obligations.HardReset : Prop :=
  ∀ (s : State) (rest : List Turn), s.schedule = .hardReset :: rest →
    step s = .next
      { State.resetOf s.config with draws := s.draws, schedule := rest, readData := s.readData }

/-! ## The assembler -/

/-- Rules R76 and R77: a line that is not refused gives well-formed commands, so its words decode; an unknown name, a
missing or an extra operand, an operand wider than its field, BS = 0 and R > 14 are refused; the pseudo-instructions
expand as in the table. R76 says that such a line is refused and names no reasons: which reason is named, a missing or
extra operand before one that is too wide too, is the model's choice (log entry 9). MnemonicsAssembleToTheirWords says
what the commands themselves assemble to. -/
def Obligations.AssembledLinesDecode : Prop :=
  (∀ (line : List Char) (is : List Instr), assembleLine line = .commands is → ∀ i ∈ is, i.wellFormed = true) ∧
  (∀ (name : List Char) (ops : List Nat),
    (operandCount name = none → assembleWords name ops = .refused .unknownMnemonic) ∧
    (∀ n, operandCount name = some n → ops.length < n → assembleWords name ops = .refused .missingOperand) ∧
    (∀ n, operandCount name = some n → n < ops.length → assembleWords name ops = .refused .extraOperand) ∧
    ((∃ x ∈ ops, 65536 ≤ x) → ∃ e, assembleWords name ops = .refused e)) ∧
  (∀ a b c : Nat, a < 65536 → b < 65536 → c < 65536 →
    assembleWords ['p', 'a', 'd'] [a, b, c, 0] = .refused .blockSizeZero ∧
    assembleWords ['u', 'n', 'p', 'a', 'd'] [a, b, 0] = .refused .blockSizeZero ∧
    (14 < c → c < 256 → assembleWords ['a', 'r', 'k'] [c] = .refused .roundIndexAbove14 ∧
      assembleWords ['s', 't', 'r', 'k'] [a, c] = .refused .roundIndexAbove14)) ∧
  (∀ a b c d : Nat, 256 ≤ d →
    (∀ name, name = ['a', 'r', 'k'] ∨ name = ['s', 'b', 'o', 'x'] ∨ name = ['i', 'n', 'v', 's', 'b', 'o', 'x'] ∨
      name = ['x', 't', 'i', 'm', 'e'] → ∃ e, assembleWords name [d] = .refused e) ∧
    (∃ e, assembleWords ['s', 't', 'r', 'k'] [a, d] = .refused e) ∧
    (∃ e, assembleWords ['g', 'f', 'm', 'u', 'l'] [a, d] = .refused e) ∧
    (∃ e, assembleWords ['g', 'f', 'm', 'u', 'l'] [d, a] = .refused e) ∧
    (∃ e, assembleWords ['p', 'a', 'd'] [a, b, c, d] = .refused e) ∧
    (∃ e, assembleWords ['u', 'n', 'p', 'a', 'd'] [a, b, d] = .refused e)) ∧
  (∀ (a : Byte) (dst src : Half),
    assembleWords ['c', 'l', 'r', 'e', 'r', 'r'] [] = .commands [.nop] ∧
    assembleWords ['x', 't', 'i', 'm', 'e'] [a.toNat] = .commands [.gfmul a 0x02] ∧
    assembleWords ['e', 'n', 'c', '1', '6'] [dst.toNat, src.toNat] = .commands [.ldst src, .encblk, .stst dst] ∧
    assembleWords ['d', 'e', 'c', '1', '6'] [dst.toNat, src.toNat] = .commands [.ldst src, .decblk, .stst dst] ∧
    assembleWords ['s', 'e', 't', 'i', 'v'] [src.toNat] = .commands [.ldiv src 16] ∧
    assembleWords ['g', 'e', 't', 'i', 'v'] [dst.toNat] = .commands [.stiv dst])

/-- Rule R75: every row of the syntax table, with the operands in the order the row writes them, at every value their
fields hold (R ≤ 14 and BS ≠ 0 by rule R76), gives the one word of the row's encoding, operands not listed being zero
(`packM` and `packB` are the words of rules R69 and R70). A line is the mnemonic and its operands separated by commas, a
number is decimal or `0x` hexadecimal, and `;` starts a comment. That a space stands after the mnemonic and none is
needed after a comma is the model's choice (log entry 9). -/
def Obligations.MnemonicsAssembleToTheirWords : Prop :=
  (∀ (name : List Char) (opc : Byte),
    (name, opc) ∈ [(['n', 'o', 'p'], 0x00), (['s', 'u', 'b', 'b'], 0x20), (['i', 'n', 'v', 's', 'u', 'b', 'b'], 0x21),
      (['s', 'h', 'r', 'o', 'w'], 0x22), (['i', 'n', 'v', 's', 'h', 'r', 'o', 'w'], 0x23),
      (['m', 'i', 'x', 'c', 'o', 'l'], 0x24), (['i', 'n', 'v', 'm', 'i', 'x', 'c', 'o', 'l'], 0x25),
      (['e', 'n', 'c', 'b', 'l', 'k'], 0x30), (['d', 'e', 'c', 'b', 'l', 'k'], 0x31)] →
    assembledWords (assembleWords name []) = [packM opc 0 0 0 0]) ∧
  (∀ dst src len : Half,
    assembledWords (assembleWords ['k', 'e', 'y', 'e', 'x', 'p'] [src.toNat, len.toNat]) = [packM 0x01 0 len src 0] ∧
    assembledWords (assembleWords ['l', 'd', 's', 't'] [src.toNat]) = [packM 0x10 0 0 src 0] ∧
    assembledWords (assembleWords ['s', 't', 's', 't'] [dst.toNat]) = [packM 0x11 0 0 0 dst] ∧
    assembledWords (assembleWords ['l', 'd', 'i', 'v'] [src.toNat, len.toNat]) = [packM 0x12 0 len src 0] ∧
    assembledWords (assembleWords ['s', 't', 'i', 'v'] [dst.toNat]) = [packM 0x13 0 0 0 dst] ∧
    (∀ (name : List Char) (opc : Byte),
      (name, opc) ∈ [(['e', 'c', 'b', 'e', 'n', 'c'], 0x40), (['e', 'c', 'b', 'd', 'e', 'c'], 0x41),
        (['c', 'b', 'c', 'e', 'n', 'c'], 0x42), (['c', 'b', 'c', 'd', 'e', 'c'], 0x43)] →
      assembledWords (assembleWords name [dst.toNat, src.toNat, len.toNat]) = [packM opc 0 len src dst]) ∧
    (∀ r : Byte, r.toNat ≤ 14 →
      assembledWords (assembleWords ['s', 't', 'r', 'k'] [dst.toNat, r.toNat]) = [packM 0x02 r 0 0 dst] ∧
      assembledWords (assembleWords ['a', 'r', 'k'] [r.toNat]) = [packM 0x26 r 0 0 0]) ∧
    (∀ bs : Byte, bs ≠ 0 →
      assembledWords (assembleWords ['p', 'a', 'd'] [dst.toNat, src.toNat, len.toNat, bs.toNat]) =
        [packM 0x50 bs len src dst] ∧
      assembledWords (assembleWords ['u', 'n', 'p', 'a', 'd'] [src.toNat, len.toNat, bs.toNat]) =
        [packM 0x51 bs len src 0])) ∧
  (∀ a b : Byte,
    assembledWords (assembleWords ['g', 'f', 'm', 'u', 'l'] [a.toNat, b.toNat]) = [packB 0x60 a b] ∧
    assembledWords (assembleWords ['s', 'b', 'o', 'x'] [a.toNat]) = [packB 0x61 a 0] ∧
    assembledWords (assembleWords ['i', 'n', 'v', 's', 'b', 'o', 'x'] [a.toNat]) = [packB 0x62 a 0]) ∧
  (∀ (name : List Char) (operands : List Nat), name ≠ [] → (∀ c ∈ name, isBlank c = false ∧ c ≠ ';') →
    assembleLine (name ++ ' ' :: List.intercalate [','] (operands.map (Nat.toDigits 10))) =
      assembleWords name operands) ∧
  (∀ n : Nat, numberValue ('0' :: 'x' :: Nat.toDigits 16 n) = some n) ∧
  (∀ line comment : List Char, (∀ c ∈ line, c ≠ ';') → assembleLine (line ++ ';' :: comment) = assembleLine line)
end

