-- ==== Sys2Proof/Laws/Assembler.lean ====
section
/-! SUPPORT. What the parts of an assembler line read as (30_encoding.md rule R75): numbers in a base, strings without
white space, and the parts between commas. -/

namespace Sys2Proof.Machine

/-! ## Numbers -/

/-- A digit reads as its value in every base of at most 16 that has it. -/
theorem digitValue_digitChar {base d : Nat} (hb : base ≤ 16) (hd : d < base) :
    digitValue base (Nat.digitChar d) = some d := by
  have h : d < 16 := by omega
  interval_cases d <;> simp [digitValue, Nat.digitChar, hd]

theorem digitsValue_append (base : Nat) (l m : List Char) (acc : Nat) :
    digitsValue base acc (l ++ m) = (digitsValue base acc l).bind (fun a => digitsValue base a m) := by
  induction l generalizing acc with
  | nil => rfl
  | cons c l ih =>
    simp only [List.cons_append, digitsValue, ih]
    cases digitValue base c <;> rfl

/-- The digits of a number in a base of at most 16 read as the number. -/
theorem digitsValue_toDigits {base : Nat} (h1 : 1 < base) (h16 : base ≤ 16) (n : Nat) :
    digitsValue base 0 (Nat.toDigits base n) = some n := by
  induction n using Nat.strongRecOn with
  | _ n ih =>
    by_cases hn : n < base
    · simp [Nat.toDigits_of_lt_base hn, digitsValue, digitValue_digitChar h16 hn]
    · rw [Nat.toDigits_of_base_le h1 (by omega), digitsValue_append, ih _ (Nat.div_lt_self (by omega) h1)]
      simp [digitsValue, digitValue_digitChar h16 (Nat.mod_lt n (by omega)), Nat.div_add_mod' n base]

/-- Decimal digits have no prefix `0x`, so they read as a decimal number. -/
theorem numberValue_eq_digitsValue {l : List Char} (hl : l ≠ []) (h : ∀ c ∈ l, c ≠ 'x') :
    numberValue l = digitsValue 10 0 l := by
  unfold numberValue
  split
  · exact absurd rfl hl
  · simp at h
  · simp at h
  · rfl

/-! ## White space and commas -/

/-- A string without white space is its own trimmed string. -/
theorem trimBlanks_of_forall_not_isBlank {l : List Char} (h : ∀ c ∈ l, isBlank c = false) : trimBlanks l = l := by
  have hd {m : List Char} (hm : ∀ c ∈ m, isBlank c = false) : m.dropWhile isBlank = m := by
    cases m with
    | nil => rfl
    | cons c m => simp [List.dropWhile, hm c (by simp)]
  rw [trimBlanks, hd h, hd (by simpa using h), List.reverse_reverse]

theorem splitCommas_of_forall_ne {l : List Char} (h : ∀ c ∈ l, c ≠ ',') : splitCommas l = [l] := by
  induction l with
  | nil => rfl
  | cons c l ih =>
    simp only [splitCommas, ih fun d hd => h d (List.mem_cons_of_mem _ hd)]
    simp [h c (by simp)]

theorem splitCommas_append_comma {l : List Char} (h : ∀ c ∈ l, c ≠ ',') (m : List Char) :
    splitCommas (l ++ ',' :: m) = l :: splitCommas m := by
  induction l with
  | nil => simp [splitCommas]
  | cons c l ih =>
    simp only [List.cons_append, splitCommas, ih fun d hd => h d (List.mem_cons_of_mem _ hd)]
    simp [h c (by simp)]

/-- The parts between the commas of parts joined by commas are the parts. -/
theorem splitCommas_intercalate {ps : List (List Char)} (hp : ps ≠ []) (h : ∀ p ∈ ps, ∀ c ∈ p, c ≠ ',') :
    splitCommas (List.intercalate [','] ps) = ps := by
  induction ps with
  | nil => exact absurd rfl hp
  | cons p ps ih =>
    cases ps with
    | nil => simpa using splitCommas_of_forall_ne (h p (by simp))
    | cons q ps =>
      rw [List.intercalate_cons_cons, List.append_assoc, List.singleton_append,
        splitCommas_append_comma (h p (by simp)), ih (by simp) fun r hr => h r (List.mem_cons_of_mem _ hr)]

end Sys2Proof.Machine
end

