-- ==== Sys2Proof/Laws/State.lean ====
section
/-! SUPPORT. What each field of the state is after each named update: one lemma per field per update, true by
unfolding, so that no proof unfolds a record update. -/

namespace Sys2Proof.Machine

/-! ## The completion step -/

@[simp] theorem complete_config (e : ErrCode) (s : State) : (complete e s).config = s.config := rfl
@[simp] theorem complete_block (e : ErrCode) (s : State) : (complete e s).block = s.block := rfl
@[simp] theorem complete_chain (e : ErrCode) (s : State) : (complete e s).chain = s.chain := rfl
@[simp] theorem complete_w (e : ErrCode) (s : State) : (complete e s).w = s.w := rfl
@[simp] theorem complete_key (e : ErrCode) (s : State) : (complete e s).key = s.key := rfl
@[simp] theorem complete_outlen (e : ErrCode) (s : State) : (complete e s).outlen = s.outlen := rfl
@[simp] theorem complete_result (e : ErrCode) (s : State) : (complete e s).result = s.result := rfl
@[simp] theorem complete_busy (e : ErrCode) (s : State) : (complete e s).busy = false := rfl
@[simp] theorem complete_err (e : ErrCode) (s : State) : (complete e s).err = e := rfl
@[simp] theorem complete_errSeen (e : ErrCode) (s : State) : (complete e s).errSeen = errSeenAfter e s.errSeen := rfl
@[simp] theorem complete_fault (e : ErrCode) (s : State) : (complete e s).fault = s.fault := rfl
@[simp] theorem complete_cmdLo (e : ErrCode) (s : State) : (complete e s).cmdLo = s.cmdLo := rfl
@[simp] theorem complete_cmdHi (e : ErrCode) (s : State) : (complete e s).cmdHi = s.cmdHi := rfl
@[simp] theorem complete_pending (e : ErrCode) (s : State) : (complete e s).pending = s.pending := rfl
@[simp] theorem complete_buffer (e : ErrCode) (s : State) : (complete e s).buffer = s.buffer := rfl
@[simp] theorem complete_draws (e : ErrCode) (s : State) : (complete e s).draws = s.draws := rfl
@[simp] theorem complete_schedule (e : ErrCode) (s : State) : (complete e s).schedule = s.schedule := rfl
@[simp] theorem complete_readData (e : ErrCode) (s : State) : (complete e s).readData = s.readData := rfl

@[simp] theorem errSeenAfter_ok (b : Bool) : errSeenAfter .ok b = b := rfl

theorem errSeenAfter_of_ne_ok {e : ErrCode} (h : e ≠ .ok) (b : Bool) : errSeenAfter e b = true := by
  cases e <;> first | rfl | exact absurd rfl h

/-- ERRSEEN after a completion: set if it was set or the code is not 0 (rule R29). -/
theorem errSeenAfter_eq_true_iff (e : ErrCode) (b : Bool) : errSeenAfter e b = true ↔ (b = true ∨ e ≠ .ok) := by
  cases e <;> simp [errSeenAfter]

/-! ## Reads and writes of the buffer -/

@[simp] theorem drew_config (s : State) (n : Nat) : (drew s n).config = s.config := rfl
@[simp] theorem drew_block (s : State) (n : Nat) : (drew s n).block = s.block := rfl
@[simp] theorem drew_chain (s : State) (n : Nat) : (drew s n).chain = s.chain := rfl
@[simp] theorem drew_w (s : State) (n : Nat) : (drew s n).w = s.w := rfl
@[simp] theorem drew_key (s : State) (n : Nat) : (drew s n).key = s.key := rfl
@[simp] theorem drew_outlen (s : State) (n : Nat) : (drew s n).outlen = s.outlen := rfl
@[simp] theorem drew_result (s : State) (n : Nat) : (drew s n).result = s.result := rfl
@[simp] theorem drew_busy (s : State) (n : Nat) : (drew s n).busy = s.busy := rfl
@[simp] theorem drew_err (s : State) (n : Nat) : (drew s n).err = s.err := rfl
@[simp] theorem drew_errSeen (s : State) (n : Nat) : (drew s n).errSeen = s.errSeen := rfl
@[simp] theorem drew_fault (s : State) (n : Nat) : (drew s n).fault = s.fault := rfl
@[simp] theorem drew_cmdLo (s : State) (n : Nat) : (drew s n).cmdLo = s.cmdLo := rfl
@[simp] theorem drew_cmdHi (s : State) (n : Nat) : (drew s n).cmdHi = s.cmdHi := rfl
@[simp] theorem drew_pending (s : State) (n : Nat) : (drew s n).pending = s.pending := rfl
@[simp] theorem drew_buffer (s : State) (n : Nat) : (drew s n).buffer = s.buffer := rfl
@[simp] theorem drew_draws (s : State) (n : Nat) : (drew s n).draws = s.draws + n := rfl
@[simp] theorem drew_schedule (s : State) (n : Nat) : (drew s n).schedule = s.schedule := rfl
@[simp] theorem drew_readData (s : State) (n : Nat) : (drew s n).readData = s.readData := rfl

@[simp] theorem drew_zero (s : State) : drew s 0 = s := rfl

@[simp] theorem memWrite_config (s : State) (a : Nat) (v : List Byte) : (memWrite s a v).config = s.config := rfl
@[simp] theorem memWrite_block (s : State) (a : Nat) (v : List Byte) : (memWrite s a v).block = s.block := rfl
@[simp] theorem memWrite_chain (s : State) (a : Nat) (v : List Byte) : (memWrite s a v).chain = s.chain := rfl
@[simp] theorem memWrite_w (s : State) (a : Nat) (v : List Byte) : (memWrite s a v).w = s.w := rfl
@[simp] theorem memWrite_key (s : State) (a : Nat) (v : List Byte) : (memWrite s a v).key = s.key := rfl
@[simp] theorem memWrite_outlen (s : State) (a : Nat) (v : List Byte) : (memWrite s a v).outlen = s.outlen := rfl
@[simp] theorem memWrite_result (s : State) (a : Nat) (v : List Byte) : (memWrite s a v).result = s.result := rfl
@[simp] theorem memWrite_busy (s : State) (a : Nat) (v : List Byte) : (memWrite s a v).busy = s.busy := rfl
@[simp] theorem memWrite_err (s : State) (a : Nat) (v : List Byte) : (memWrite s a v).err = s.err := rfl
@[simp] theorem memWrite_errSeen (s : State) (a : Nat) (v : List Byte) : (memWrite s a v).errSeen = s.errSeen := rfl
@[simp] theorem memWrite_fault (s : State) (a : Nat) (v : List Byte) : (memWrite s a v).fault = s.fault := rfl
@[simp] theorem memWrite_cmdLo (s : State) (a : Nat) (v : List Byte) : (memWrite s a v).cmdLo = s.cmdLo := rfl
@[simp] theorem memWrite_cmdHi (s : State) (a : Nat) (v : List Byte) : (memWrite s a v).cmdHi = s.cmdHi := rfl
@[simp] theorem memWrite_pending (s : State) (a : Nat) (v : List Byte) : (memWrite s a v).pending = s.pending := rfl
@[simp] theorem memWrite_buffer (s : State) (a : Nat) (v : List Byte) : (memWrite s a v).buffer = Memory.storeBytes s.buffer a v := rfl
@[simp] theorem memWrite_draws (s : State) (a : Nat) (v : List Byte) : (memWrite s a v).draws = s.draws := rfl
@[simp] theorem memWrite_schedule (s : State) (a : Nat) (v : List Byte) : (memWrite s a v).schedule = s.schedule := rfl
@[simp] theorem memWrite_readData (s : State) (a : Nat) (v : List Byte) : (memWrite s a v).readData = s.readData := rfl

@[simp] theorem memWrite_nil (s : State) (a : Nat) : memWrite s a [] = s := rfl

/-! ## The key -/

@[simp] theorem loadKey_config (s : State) (k : List Byte) : (loadKey s k).config = s.config := rfl
@[simp] theorem loadKey_block (s : State) (k : List Byte) : (loadKey s k).block = s.block := rfl
@[simp] theorem loadKey_chain (s : State) (k : List Byte) : (loadKey s k).chain = s.chain := rfl
@[simp] theorem loadKey_w (s : State) (k : List Byte) : (loadKey s k).w = keyExpansion k ++ s.w.drop (keyExpansion k).length := rfl
@[simp] theorem loadKey_key (s : State) (k : List Byte) : (loadKey s k).key = ⟨true, BitVec.ofNat 6 k.length, BitVec.ofNat 4 (k.length / 4), BitVec.ofNat 4 (k.length / 4 + 6)⟩ := rfl
@[simp] theorem loadKey_outlen (s : State) (k : List Byte) : (loadKey s k).outlen = s.outlen := rfl
@[simp] theorem loadKey_result (s : State) (k : List Byte) : (loadKey s k).result = s.result := rfl
@[simp] theorem loadKey_busy (s : State) (k : List Byte) : (loadKey s k).busy = s.busy := rfl
@[simp] theorem loadKey_err (s : State) (k : List Byte) : (loadKey s k).err = s.err := rfl
@[simp] theorem loadKey_errSeen (s : State) (k : List Byte) : (loadKey s k).errSeen = s.errSeen := rfl
@[simp] theorem loadKey_fault (s : State) (k : List Byte) : (loadKey s k).fault = s.fault := rfl
@[simp] theorem loadKey_cmdLo (s : State) (k : List Byte) : (loadKey s k).cmdLo = s.cmdLo := rfl
@[simp] theorem loadKey_cmdHi (s : State) (k : List Byte) : (loadKey s k).cmdHi = s.cmdHi := rfl
@[simp] theorem loadKey_pending (s : State) (k : List Byte) : (loadKey s k).pending = s.pending := rfl
@[simp] theorem loadKey_buffer (s : State) (k : List Byte) : (loadKey s k).buffer = s.buffer := rfl
@[simp] theorem loadKey_draws (s : State) (k : List Byte) : (loadKey s k).draws = s.draws := rfl
@[simp] theorem loadKey_schedule (s : State) (k : List Byte) : (loadKey s k).schedule = s.schedule := rfl
@[simp] theorem loadKey_readData (s : State) (k : List Byte) : (loadKey s k).readData = s.readData := rfl

/-! ## Mode output -/

@[simp] theorem modeOutput_config (dst len : Half) (s : State) (out : List Block) : (modeOutput dst len s out).config = s.config := rfl
@[simp] theorem modeOutput_block (dst len : Half) (s : State) (out : List Block) : (modeOutput dst len s out).block = s.block := rfl
@[simp] theorem modeOutput_chain (dst len : Half) (s : State) (out : List Block) : (modeOutput dst len s out).chain = s.chain := rfl
@[simp] theorem modeOutput_w (dst len : Half) (s : State) (out : List Block) : (modeOutput dst len s out).w = s.w := rfl
@[simp] theorem modeOutput_key (dst len : Half) (s : State) (out : List Block) : (modeOutput dst len s out).key = s.key := rfl
@[simp] theorem modeOutput_outlen (dst len : Half) (s : State) (out : List Block) : (modeOutput dst len s out).outlen = s.outlen := rfl
@[simp] theorem modeOutput_result (dst len : Half) (s : State) (out : List Block) : (modeOutput dst len s out).result = s.result := rfl
@[simp] theorem modeOutput_busy (dst len : Half) (s : State) (out : List Block) : (modeOutput dst len s out).busy = s.busy := rfl
@[simp] theorem modeOutput_err (dst len : Half) (s : State) (out : List Block) : (modeOutput dst len s out).err = s.err := rfl
@[simp] theorem modeOutput_errSeen (dst len : Half) (s : State) (out : List Block) : (modeOutput dst len s out).errSeen = s.errSeen := rfl
@[simp] theorem modeOutput_fault (dst len : Half) (s : State) (out : List Block) : (modeOutput dst len s out).fault = s.fault := rfl
@[simp] theorem modeOutput_cmdLo (dst len : Half) (s : State) (out : List Block) : (modeOutput dst len s out).cmdLo = s.cmdLo := rfl
@[simp] theorem modeOutput_cmdHi (dst len : Half) (s : State) (out : List Block) : (modeOutput dst len s out).cmdHi = s.cmdHi := rfl
@[simp] theorem modeOutput_pending (dst len : Half) (s : State) (out : List Block) : (modeOutput dst len s out).pending = s.pending := rfl
@[simp] theorem modeOutput_buffer (dst len : Half) (s : State) (out : List Block) : (modeOutput dst len s out).buffer = Memory.storeBytes s.buffer dst.toNat (bytesOfBlocks out) := rfl
@[simp] theorem modeOutput_draws (dst len : Half) (s : State) (out : List Block) : (modeOutput dst len s out).draws = s.draws + len.toNat := rfl
@[simp] theorem modeOutput_schedule (dst len : Half) (s : State) (out : List Block) : (modeOutput dst len s out).schedule = s.schedule := rfl
@[simp] theorem modeOutput_readData (dst len : Half) (s : State) (out : List Block) : (modeOutput dst len s out).readData = s.readData := rfl

/-! ## Issue and resets -/

@[simp] theorem issue_config (s : State) (v : Reg32) : (issue s v).config = s.config := rfl
@[simp] theorem issue_block (s : State) (v : Reg32) : (issue s v).block = s.block := rfl
@[simp] theorem issue_chain (s : State) (v : Reg32) : (issue s v).chain = s.chain := rfl
@[simp] theorem issue_w (s : State) (v : Reg32) : (issue s v).w = s.w := rfl
@[simp] theorem issue_key (s : State) (v : Reg32) : (issue s v).key = s.key := rfl
@[simp] theorem issue_outlen (s : State) (v : Reg32) : (issue s v).outlen = s.outlen := rfl
@[simp] theorem issue_result (s : State) (v : Reg32) : (issue s v).result = s.result := rfl
@[simp] theorem issue_busy (s : State) (v : Reg32) : (issue s v).busy = true := rfl
@[simp] theorem issue_err (s : State) (v : Reg32) : (issue s v).err = s.err := rfl
@[simp] theorem issue_errSeen (s : State) (v : Reg32) : (issue s v).errSeen = s.errSeen := rfl
@[simp] theorem issue_fault (s : State) (v : Reg32) : (issue s v).fault = s.fault := rfl
@[simp] theorem issue_cmdLo (s : State) (v : Reg32) : (issue s v).cmdLo = s.cmdLo := rfl
@[simp] theorem issue_cmdHi (s : State) (v : Reg32) : (issue s v).cmdHi = v := rfl
@[simp] theorem issue_pending (s : State) (v : Reg32) : (issue s v).pending = v ++ s.cmdLo := rfl
@[simp] theorem issue_buffer (s : State) (v : Reg32) : (issue s v).buffer = s.buffer := rfl
@[simp] theorem issue_draws (s : State) (v : Reg32) : (issue s v).draws = s.draws := rfl
@[simp] theorem issue_schedule (s : State) (v : Reg32) : (issue s v).schedule = s.schedule := rfl
@[simp] theorem issue_readData (s : State) (v : Reg32) : (issue s v).readData = s.readData := rfl

@[simp] theorem withIssued_config (s : State) (word : CmdWord) : (withIssued s word).config = s.config := rfl
@[simp] theorem withIssued_block (s : State) (word : CmdWord) : (withIssued s word).block = s.block := rfl
@[simp] theorem withIssued_chain (s : State) (word : CmdWord) : (withIssued s word).chain = s.chain := rfl
@[simp] theorem withIssued_w (s : State) (word : CmdWord) : (withIssued s word).w = s.w := rfl
@[simp] theorem withIssued_key (s : State) (word : CmdWord) : (withIssued s word).key = s.key := rfl
@[simp] theorem withIssued_outlen (s : State) (word : CmdWord) : (withIssued s word).outlen = s.outlen := rfl
@[simp] theorem withIssued_result (s : State) (word : CmdWord) : (withIssued s word).result = s.result := rfl
@[simp] theorem withIssued_busy (s : State) (word : CmdWord) : (withIssued s word).busy = true := rfl
@[simp] theorem withIssued_err (s : State) (word : CmdWord) : (withIssued s word).err = s.err := rfl
@[simp] theorem withIssued_errSeen (s : State) (word : CmdWord) : (withIssued s word).errSeen = s.errSeen := rfl
@[simp] theorem withIssued_fault (s : State) (word : CmdWord) : (withIssued s word).fault = s.fault := rfl
@[simp] theorem withIssued_cmdLo (s : State) (word : CmdWord) : (withIssued s word).cmdLo = word.extractLsb' 0 32 := rfl
@[simp] theorem withIssued_cmdHi (s : State) (word : CmdWord) : (withIssued s word).cmdHi = word.extractLsb' 32 32 := rfl
@[simp] theorem withIssued_pending (s : State) (word : CmdWord) : (withIssued s word).pending = word := rfl
@[simp] theorem withIssued_buffer (s : State) (word : CmdWord) : (withIssued s word).buffer = s.buffer := rfl
@[simp] theorem withIssued_draws (s : State) (word : CmdWord) : (withIssued s word).draws = s.draws := rfl
@[simp] theorem withIssued_schedule (s : State) (word : CmdWord) : (withIssued s word).schedule = .core :: s.schedule := rfl
@[simp] theorem withIssued_readData (s : State) (word : CmdWord) : (withIssued s word).readData = s.readData := rfl

@[simp] theorem resetOf_config (c : Config) : (State.resetOf c).config = c := rfl
@[simp] theorem resetOf_block (c : Config) : (State.resetOf c).block = Block.zero := rfl
@[simp] theorem resetOf_chain (c : Config) : (State.resetOf c).chain = Block.zero := rfl
@[simp] theorem resetOf_w (c : Config) : (State.resetOf c).w = resetW := rfl
@[simp] theorem resetOf_key (c : Config) : (State.resetOf c).key = KeyStatus.none := rfl
@[simp] theorem resetOf_outlen (c : Config) : (State.resetOf c).outlen = 0 := rfl
@[simp] theorem resetOf_result (c : Config) : (State.resetOf c).result = 0 := rfl
@[simp] theorem resetOf_busy (c : Config) : (State.resetOf c).busy = false := rfl
@[simp] theorem resetOf_err (c : Config) : (State.resetOf c).err = .ok := rfl
@[simp] theorem resetOf_errSeen (c : Config) : (State.resetOf c).errSeen = false := rfl
@[simp] theorem resetOf_fault (c : Config) : (State.resetOf c).fault = false := rfl
@[simp] theorem resetOf_cmdLo (c : Config) : (State.resetOf c).cmdLo = 0 := rfl
@[simp] theorem resetOf_cmdHi (c : Config) : (State.resetOf c).cmdHi = 0 := rfl
@[simp] theorem resetOf_pending (c : Config) : (State.resetOf c).pending = 0 := rfl
@[simp] theorem resetOf_buffer (c : Config) : (State.resetOf c).buffer = [] := rfl
@[simp] theorem resetOf_draws (c : Config) : (State.resetOf c).draws = 0 := rfl
@[simp] theorem resetOf_schedule (c : Config) : (State.resetOf c).schedule = [] := rfl
@[simp] theorem resetOf_readData (c : Config) : (State.resetOf c).readData = 0 := rfl

@[simp] theorem softReset_config (s : State) : (softReset s).config = s.config := rfl
@[simp] theorem softReset_block (s : State) : (softReset s).block = Block.zero := rfl
@[simp] theorem softReset_chain (s : State) : (softReset s).chain = Block.zero := rfl
@[simp] theorem softReset_w (s : State) : (softReset s).w = s.w := rfl
@[simp] theorem softReset_key (s : State) : (softReset s).key = KeyStatus.none := rfl
@[simp] theorem softReset_outlen (s : State) : (softReset s).outlen = 0 := rfl
@[simp] theorem softReset_result (s : State) : (softReset s).result = 0 := rfl
@[simp] theorem softReset_busy (s : State) : (softReset s).busy = false := rfl
@[simp] theorem softReset_err (s : State) : (softReset s).err = .ok := rfl
@[simp] theorem softReset_errSeen (s : State) : (softReset s).errSeen = false := rfl
@[simp] theorem softReset_fault (s : State) : (softReset s).fault = false := rfl
@[simp] theorem softReset_cmdLo (s : State) : (softReset s).cmdLo = 0 := rfl
@[simp] theorem softReset_cmdHi (s : State) : (softReset s).cmdHi = 0 := rfl
@[simp] theorem softReset_pending (s : State) : (softReset s).pending = 0 := rfl
@[simp] theorem softReset_buffer (s : State) : (softReset s).buffer = abortedBuffer s := rfl
@[simp] theorem softReset_draws (s : State) : (softReset s).draws = s.draws := rfl
@[simp] theorem softReset_schedule (s : State) : (softReset s).schedule = s.schedule := rfl
@[simp] theorem softReset_readData (s : State) : (softReset s).readData = s.readData := rfl

@[simp] theorem hardReset_config (s : State) : (hardReset s).config = s.config := rfl
@[simp] theorem hardReset_block (s : State) : (hardReset s).block = Block.zero := rfl
@[simp] theorem hardReset_chain (s : State) : (hardReset s).chain = Block.zero := rfl
@[simp] theorem hardReset_w (s : State) : (hardReset s).w = resetW := rfl
@[simp] theorem hardReset_key (s : State) : (hardReset s).key = KeyStatus.none := rfl
@[simp] theorem hardReset_outlen (s : State) : (hardReset s).outlen = 0 := rfl
@[simp] theorem hardReset_result (s : State) : (hardReset s).result = 0 := rfl
@[simp] theorem hardReset_busy (s : State) : (hardReset s).busy = false := rfl
@[simp] theorem hardReset_err (s : State) : (hardReset s).err = .ok := rfl
@[simp] theorem hardReset_errSeen (s : State) : (hardReset s).errSeen = false := rfl
@[simp] theorem hardReset_fault (s : State) : (hardReset s).fault = false := rfl
@[simp] theorem hardReset_cmdLo (s : State) : (hardReset s).cmdLo = 0 := rfl
@[simp] theorem hardReset_cmdHi (s : State) : (hardReset s).cmdHi = 0 := rfl
@[simp] theorem hardReset_pending (s : State) : (hardReset s).pending = 0 := rfl
@[simp] theorem hardReset_buffer (s : State) : (hardReset s).buffer = [] := rfl
@[simp] theorem hardReset_draws (s : State) : (hardReset s).draws = s.draws := rfl
@[simp] theorem hardReset_schedule (s : State) : (hardReset s).schedule = s.schedule := rfl
@[simp] theorem hardReset_readData (s : State) : (hardReset s).readData = s.readData := rfl

@[simp] theorem length_resetW : resetW.length = 60 := rfl

/-! ## How a command ends -/

@[simp] theorem finish_eq_next_iff (s t : State) : finish s = .next t ↔ complete .ok s = t := by simp [finish]

@[simp] theorem raise_eq_next_iff (e : ErrCode) (s t : State) : raise e s = .next t ↔ complete e s = t := by
  simp [raise]

/-- `raise` writes nothing but ERR, ERRSEEN and BUSY (rule R158). -/
theorem raise_of_ne_ok {e : ErrCode} (h : e ≠ .ok) (s : State) :
    raise e s = .next { s with err := e, errSeen := true, busy := false } := by
  simp [raise, complete, errSeenAfter_of_ne_ok h]

/-- `finish` writes nothing but ERR = 0 and BUSY (rule R161). -/
theorem finish_eq (s : State) : finish s = .next { s with err := .ok, busy := false } := rfl

end Sys2Proof.Machine
end

