-- ==== Sys2Proof/Laws/Memory.lean ====
section
/-! SUPPORT. The laws of the buffer: a read after a write, writes of byte strings, forgotten ranges, and the canonical
form that every operation keeps (20_memory.md rules R49, R51; 70_reset_and_hazards.md rule R175). -/

namespace Sys2Proof.Machine

variable {m : Memory} {a b n : Nat} {v : Byte}

/-! ## One byte -/

@[simp] theorem byte?_nil (a : Nat) : Memory.byte? [] a = none := rfl

theorem byte?_cons (c : Host.Cell) (m : Memory) (a : Nat) :
    Memory.byte? (c :: m) a = if a = c.1 then some c.2 else Memory.byte? m a := rfl

/-- An address below every listed one is not written. -/
theorem byte?_eq_none_of_forall_lt (h : ∀ c ∈ m, a < c.1) : Memory.byte? m a = none := by
  induction m with
  | nil => rfl
  | cons c m ih =>
    have hc := h c (by simp)
    rw [byte?_cons, if_neg (by omega)]
    exact ih fun d hd => h d (List.mem_cons_of_mem _ hd)

/-- A byte is written exactly when it is listed. -/
theorem byte?_ne_none_iff : Memory.byte? m a ≠ none ↔ ∃ c ∈ m, c.1 = a := by
  induction m with
  | nil => simp
  | cons c m ih =>
    rw [byte?_cons]
    by_cases h : a = c.1
    · simp [h]
    · rw [if_neg h, ih]
      simp [eq_comm (a := c.1), h]

/-- A read after a write: the value written at the address, the old one elsewhere. -/
theorem byte?_store (m : Memory) (a : Nat) (v : Byte) (b : Nat) :
    Memory.byte? (Memory.store m a v) b = if b = a then some v else Memory.byte? m b := by
  induction m with
  | nil => rfl
  | cons c m ih =>
    obtain ⟨k, x⟩ := c
    simp only [Memory.store]
    split
    · rw [byte?_cons]
    · split
      · subst_vars
        simp only [byte?_cons]
        split <;> rfl
      · simp only [byte?_cons, ih]
        by_cases hb : b = a
        · subst hb
          simp [*]
        · simp [hb]

@[simp] theorem byte?_store_self (m : Memory) (a : Nat) (v : Byte) : Memory.byte? (Memory.store m a v) a = some v := by
  simp [byte?_store]

theorem byte?_store_of_ne (h : b ≠ a) : Memory.byte? (Memory.store m a v) b = Memory.byte? m b := by
  simp [byte?_store, h]

/-! ## Byte strings -/

@[simp] theorem storeBytes_nil (m : Memory) (a : Nat) : Memory.storeBytes m a [] = m := by
  cases m <;> rfl

@[simp] theorem storeBytes_cons (m : Memory) (a : Nat) (v : Byte) (l : List Byte) :
    Memory.storeBytes m a (v :: l) = Memory.storeBytes (Memory.store m a v) (a + 1) l := by
  cases m <;> rfl

/-- A read after a byte string is written: byte i at address a + i, the old value outside the range. -/
theorem byte?_storeBytes (l : List Byte) (m : Memory) (a b : Nat) :
    Memory.byte? (Memory.storeBytes m a l) b =
      if a ≤ b ∧ b < a + l.length then l[b - a]? else Memory.byte? m b := by
  induction l generalizing m a with
  | nil => simp
  | cons v l ih =>
    rw [storeBytes_cons, ih, List.length_cons]
    by_cases h : a + 1 ≤ b ∧ b < a + 1 + l.length
    · rw [if_pos h, if_pos (by omega)]
      obtain ⟨d, rfl⟩ : ∃ d, b = a + 1 + d := ⟨b - (a + 1), by omega⟩
      rw [show a + 1 + d - (a + 1) = d by omega, show a + 1 + d - a = d + 1 by omega]
      rfl
    · rw [if_neg h, byte?_store]
      by_cases hb : b = a
      · subst hb
        simp
      · rw [if_neg hb, if_neg (by omega)]

theorem byte?_storeBytes_outside (l : List Byte) (m : Memory) (h : b < a ∨ a + l.length ≤ b) :
    Memory.byte? (Memory.storeBytes m a l) b = Memory.byte? m b := by
  rw [byte?_storeBytes, if_neg (by omega)]

theorem byte?_storeBytes_inside (l : List Byte) (m : Memory) (k : Nat) (h : k < l.length) :
    Memory.byte? (Memory.storeBytes m a l) (a + k) = l[k]? := by
  rw [byte?_storeBytes, if_pos (by omega), Nat.add_sub_cancel_left]

/-- A forgotten range is never written, every other byte is as it was (rule R175). -/
theorem byte?_forget (m : Memory) (a n b : Nat) :
    Memory.byte? (Memory.forget m a n) b = if a ≤ b ∧ b < a + n then none else Memory.byte? m b := by
  induction m with
  | nil => simp [Memory.forget]
  | cons c m ih =>
    have hf : Memory.forget (c :: m) a n =
        if c.1 < a ∨ a + n ≤ c.1 then c :: Memory.forget m a n else Memory.forget m a n := by
      by_cases h : c.1 < a ∨ a + n ≤ c.1 <;> simp [Memory.forget, h]
    rw [hf]
    by_cases h : c.1 < a ∨ a + n ≤ c.1
    · rw [if_pos h, byte?_cons, byte?_cons, ih]
      by_cases hb : b = c.1
      · rw [if_pos hb, if_pos hb, if_neg (by omega)]
      · rw [if_neg hb, if_neg hb]
    · rw [if_neg h, ih, byte?_cons]
      by_cases hb : a ≤ b ∧ b < a + n
      · rw [if_pos hb, if_pos hb]
      · rw [if_neg hb, if_neg hb, if_neg (by omega)]

/-! ## Reads -/

@[simp] theorem readBytes_zero (m : Memory) (d a : Nat) : Memory.readBytes m d a 0 = [] := rfl

@[simp] theorem readBytes_succ (m : Memory) (d a n : Nat) :
    Memory.readBytes m d a (n + 1) = Memory.readByte m d a :: Memory.readBytes m (d + 1) (a + 1) n := rfl

@[simp] theorem length_readBytes (m : Memory) (d a n : Nat) : (Memory.readBytes m d a n).length = n := by
  induction n generalizing d a with
  | zero => rfl
  | succ n ih => simp [ih]

@[simp] theorem length_memRead (s : State) (a n : Nat) : (memRead s a n).length = n := by simp [memRead]

theorem getElem?_readBytes (m : Memory) (d a n k : Nat) (h : k < n) :
    (Memory.readBytes m d a n)[k]? = some (Memory.readByte m (d + k) (a + k)) := by
  induction n generalizing d a k with
  | zero => omega
  | succ n ih =>
    cases k with
    | zero => rfl
    | succ k =>
      rw [readBytes_succ, List.getElem?_cons_succ, ih _ _ _ (by omega)]
      congr 2 <;> omega

/-- Byte k of a read is the byte at address a + k, its draw the k-th (rules R49, R51). -/
theorem getElem?_memRead (s : State) (a n k : Nat) (h : k < n) :
    (memRead s a n)[k]? = some (Memory.readByte s.buffer (s.draws + k) (a + k)) := getElem?_readBytes _ _ _ _ _ h

theorem readByte_of_written (d : Nat) (h : Memory.byte? m a = some v) : Memory.readByte m d a = v := by
  simp [Memory.readByte, h]

/-! ## The canonical form -/

theorem wf_nil : Memory.wf [] := List.Pairwise.nil

/-- Every address of a memory after a one-byte write was there before or is the one written. -/
theorem mem_store {c : Host.Cell} (h : c ∈ Memory.store m a v) : c ∈ m ∨ c = (a, v) := by
  induction m with
  | nil => simpa [Memory.store] using h
  | cons d m ih =>
    obtain ⟨k, x⟩ := d
    simp only [Memory.store] at h
    split at h
    · rcases List.mem_cons.1 h with h | h
      · exact .inr h
      · exact .inl h
    · split at h
      · rcases List.mem_cons.1 h with h | h
        · exact .inr h
        · exact .inl (List.mem_cons_of_mem _ h)
      · rcases List.mem_cons.1 h with h | h
        · exact .inl (h ▸ List.mem_cons_self)
        · exact (ih h).imp_left (List.mem_cons_of_mem _)

theorem wf_store (h : Memory.wf m) (a : Nat) (v : Byte) : Memory.wf (Memory.store m a v) := by
  induction m with
  | nil => exact List.pairwise_singleton _ _
  | cons c m ih =>
    obtain ⟨k, x⟩ := c
    have hk := List.pairwise_cons.1 h
    simp only [Memory.store]
    split
    · next hlt =>
      refine List.pairwise_cons.2 ⟨fun d hd => ?_, h⟩
      rcases List.mem_cons.1 hd with rfl | hd
      · exact hlt
      · exact Nat.lt_trans hlt (hk.1 d hd)
    · split
      · next heq =>
        subst heq
        exact List.pairwise_cons.2 ⟨hk.1, hk.2⟩
      · next h1 h2 =>
        refine List.pairwise_cons.2 ⟨fun d hd => ?_, ih hk.2⟩
        rcases mem_store hd with hd | rfl
        · exact hk.1 d hd
        · show k < a
          omega

theorem wf_storeBytes (h : Memory.wf m) (a : Nat) (l : List Byte) : Memory.wf (Memory.storeBytes m a l) := by
  induction l generalizing m a with
  | nil => simpa
  | cons v l ih => exact storeBytes_cons m a v l ▸ ih (wf_store h a v) (a + 1)

theorem wf_forget (h : Memory.wf m) (a n : Nat) : Memory.wf (Memory.forget m a n) := List.Pairwise.filter _ h

theorem wf_abortedBuffer {s : State} (h : Memory.wf s.buffer) : Memory.wf (abortedBuffer s) := by
  unfold abortedBuffer
  split
  · split
    · split
      · exact wf_forget h _ _
      · exact h
    · exact h
  · exact h

/-! ## The bytes stay in the buffer -/

/-- Every written byte lies below `n`. -/
def WithinBytes (m : Memory) (n : Nat) : Prop := ∀ c ∈ m, c.1 < n

theorem within_store (h : WithinBytes m n) (ha : a < n) : WithinBytes (Memory.store m a v) n := by
  intro c hc
  rcases mem_store hc with hc | rfl
  · exact h c hc
  · exact ha

theorem within_storeBytes (l : List Byte) (h : WithinBytes m n) (ha : a + l.length ≤ n) :
    WithinBytes (Memory.storeBytes m a l) n := by
  induction l generalizing m a with
  | nil => simpa
  | cons v l ih =>
    rw [List.length_cons] at ha
    exact storeBytes_cons m a v l ▸ ih (within_store h (by omega)) (by omega)

theorem within_forget (h : WithinBytes m n) (a k : Nat) : WithinBytes (Memory.forget m a k) n :=
  fun c hc => h c (List.mem_filter.1 hc).1

theorem within_abortedBuffer {s : State} (h : WithinBytes s.buffer n) : WithinBytes (abortedBuffer s) n := by
  unfold abortedBuffer
  split
  · split
    · split
      · exact within_forget h _ _
      · exact h
    · exact h
  · exact h

/-- Two memories in canonical form that read alike are equal: equal memories are equal data. -/
theorem eq_of_byte?_eq {m m' : Memory} (h : Memory.wf m) (h' : Memory.wf m')
    (hr : ∀ a, Memory.byte? m a = Memory.byte? m' a) : m = m' := by
  induction m generalizing m' with
  | nil =>
    cases m' with
    | nil => rfl
    | cons d m' => simpa [byte?_cons] using hr d.1
  | cons c m ih =>
    cases m' with
    | nil => simpa [byte?_cons] using hr c.1
    | cons d m' =>
      have hc := List.pairwise_cons.1 h
      have hd := List.pairwise_cons.1 h'
      have key : c.1 = d.1 := by
        rcases Nat.lt_trichotomy c.1 d.1 with hlt | heq | hgt
        · have := hr c.1
          rw [byte?_cons, if_pos rfl, byte?_cons, if_neg (by omega),
            byte?_eq_none_of_forall_lt fun e he => Nat.lt_trans hlt (hd.1 e he)] at this
          cases this
        · exact heq
        · have := hr d.1
          rw [byte?_cons, byte?_cons, if_pos rfl, if_neg (by omega),
            byte?_eq_none_of_forall_lt fun e he => Nat.lt_trans hgt (hc.1 e he)] at this
          cases this
      have val : c.2 = d.2 := by
        have := hr c.1
        rw [byte?_cons, if_pos rfl, byte?_cons, if_pos key] at this
        exact Option.some.inj this
      have tail : m = m' := by
        refine ih hc.2 hd.2 fun a => ?_
        by_cases ha : a = c.1
        · subst ha
          rw [byte?_eq_none_of_forall_lt fun e he => hc.1 e he,
            byte?_eq_none_of_forall_lt fun e he => key ▸ hd.1 e he]
        · have := hr a
          rwa [byte?_cons, if_neg ha, byte?_cons, if_neg (key ▸ ha)] at this
      rw [tail, Prod.ext key val]

end Sys2Proof.Machine
end

