-- ==== Sys2Proof/Laws/Bytes.lean ====
section
/-! SUPPORT. Byte strings, words and blocks: a block is its sixteen bytes, and the byte string of a sequence of blocks
has byte k of block i at 16i + k (42_round_transforms.md rule R100, 44_modes.md section 1). -/

namespace Sys2Proof.Machine

/-! ## Lengths -/

@[simp] theorem length_quadBytes (t : Quad) : (quadBytes t).length = 4 := rfl

@[simp] theorem length_blockBytes (s : Block) : (blockBytes s).length = 16 := rfl

@[simp] theorem length_wordsOf (n : Nat) (l : List Byte) : (wordsOf n l).length = n := by
  induction n generalizing l with
  | zero => rfl
  | succ n ih => simp [wordsOf, ih]

@[simp] theorem length_blocksOf (n : Nat) (l : List Byte) : (blocksOf n l).length = n := by
  induction n generalizing l with
  | zero => rfl
  | succ n ih => simp [blocksOf, ih]

@[simp] theorem length_bytesOfBlocks (bs : List Block) : (bytesOfBlocks bs).length = 16 * bs.length := by
  induction bs with
  | nil => rfl
  | cons b bs ih => simp [bytesOfBlocks, ih]; omega

@[simp] theorem length_littleEndianBytes (n : Nat) (v : Reg32) : (littleEndianBytes n v).length = n := by
  induction n generalizing v with
  | zero => rfl
  | succ n ih => simp [littleEndianBytes, ih]

/-! ## A block is its sixteen bytes -/

/-- A claim about every k below 16 is sixteen claims. -/
theorem forall_lt_sixteen {p : Nat → Prop} (h : p 0 ∧ p 1 ∧ p 2 ∧ p 3 ∧ p 4 ∧ p 5 ∧ p 6 ∧ p 7 ∧ p 8 ∧ p 9 ∧ p 10 ∧
    p 11 ∧ p 12 ∧ p 13 ∧ p 14 ∧ p 15) : ∀ k, k < 16 → p k := by
  intro k hk
  obtain ⟨h0, h1, h2, h3, h4, h5, h6, h7, h8, h9, h10, h11, h12, h13, h14, h15⟩ := h
  interval_cases k <;> assumption

theorem quad_ext_bytes {s t : Quad} (h : ∀ i, i < 4 → quadByte s i = quadByte t i) : s = t := by
  obtain ⟨a0, a1, a2, a3⟩ := s
  obtain ⟨b0, b1, b2, b3⟩ := t
  have h0 : a0 = b0 := h 0 (by omega)
  have h1 : a1 = b1 := h 1 (by omega)
  have h2 : a2 = b2 := h 2 (by omega)
  have h3 : a3 = b3 := h 3 (by omega)
  subst_vars
  rfl

theorem block_ext_columns {s t : Block} (h : ∀ c, c < 4 → blockColumn s c = blockColumn t c) : s = t := by
  obtain ⟨a0, a1, a2, a3⟩ := s
  obtain ⟨b0, b1, b2, b3⟩ := t
  have h0 : a0 = b0 := h 0 (by omega)
  have h1 : a1 = b1 := h 1 (by omega)
  have h2 : a2 = b2 := h 2 (by omega)
  have h3 : a3 = b3 := h 3 (by omega)
  subst_vars
  rfl

theorem blockByte_row_column (s : Block) (r c : Nat) (hr : r < 4) :
    blockByte s (r + 4 * c) = quadByte (blockColumn s c) r := by
  unfold blockByte
  rw [show (r + 4 * c) / 4 = c by omega, show (r + 4 * c) % 4 = r by omega]

theorem block_ext_bytes {s t : Block} (h : ∀ k, k < 16 → blockByte s k = blockByte t k) : s = t :=
  block_ext_columns fun c hc => quad_ext_bytes fun r hr => by
    rw [← blockByte_row_column s r c hr, ← blockByte_row_column t r c hr]
    exact h _ (by omega)

/-- Byte k of the byte string of a block is byte k of the block. -/
theorem getElem?_blockBytes (s : Block) : ∀ k, k < 16 → (blockBytes s)[k]? = some (blockByte s k) :=
  forall_lt_sixteen ⟨rfl, rfl, rfl, rfl, rfl, rfl, rfl, rfl, rfl, rfl, rfl, rfl, rfl, rfl, rfl, rfl⟩

/-- Byte k of the block of a byte string is byte k of the string. -/
theorem blockByte_blockOf (l : List Byte) : ∀ k, k < 16 → blockByte (blockOf l) k = l.getD k 0 := by
  apply forall_lt_sixteen
  simp [blockOf, quadOf, blockByte, blockColumn, quadByte, List.getD_eq_getElem?_getD]

@[simp] theorem blockOf_blockBytes (s : Block) : blockOf (blockBytes s) = s := rfl

@[simp] theorem blockOf_blockBytes_append (s : Block) (l : List Byte) : blockOf (blockBytes s ++ l) = s := rfl

theorem blockByte_blockXor (s t : Block) : ∀ k, k < 16 →
    blockByte (blockXor s t) k = blockByte s k ^^^ blockByte t k :=
  forall_lt_sixteen ⟨rfl, rfl, rfl, rfl, rfl, rfl, rfl, rfl, rfl, rfl, rfl, rfl, rfl, rfl, rfl, rfl⟩

@[simp] theorem blockXor_cancel_right (s t : Block) : blockXor (blockXor s t) t = s :=
  block_ext_bytes fun k hk => by simp [blockByte_blockXor _ _ k hk]

theorem blockByte_zero : ∀ k, k < 16 → blockByte Block.zero k = 0 :=
  forall_lt_sixteen ⟨rfl, rfl, rfl, rfl, rfl, rfl, rfl, rfl, rfl, rfl, rfl, rfl, rfl, rfl, rfl, rfl⟩

@[simp] theorem blockXor_zero (s : Block) : blockXor s Block.zero = s :=
  block_ext_bytes fun k hk => by simp [blockByte_blockXor _ _ k hk, blockByte_zero k hk]

/-! ## Sequences of words and blocks -/

/-- Word i of a byte string is its bytes 4i..4i+3 (rule R90). -/
theorem getElem?_wordsOf (n : Nat) (l : List Byte) (i : Nat) (h : i < n) :
    (wordsOf n l)[i]? = some (quadOf (l.drop (4 * i))) := by
  induction n generalizing l i with
  | zero => omega
  | succ n ih =>
    cases i with
    | zero => simp [wordsOf]
    | succ i =>
      rw [wordsOf, List.getElem?_cons_succ, ih _ _ (by omega), List.drop_drop]
      congr 3
      omega

/-- Block i of a byte string is its bytes 16i..16i+15. -/
theorem getElem?_blocksOf (n : Nat) (l : List Byte) (i : Nat) (h : i < n) :
    (blocksOf n l)[i]? = some (blockOf (l.drop (16 * i))) := by
  induction n generalizing l i with
  | zero => omega
  | succ n ih =>
    cases i with
    | zero => simp [blocksOf]
    | succ i =>
      rw [blocksOf, List.getElem?_cons_succ, ih _ _ (by omega), List.drop_drop]
      congr 3
      omega

/-- Byte 16i + k of the byte string of a sequence of blocks is byte k of block i. -/
theorem getElem?_bytesOfBlocks (bs : List Block) (i k : Nat) (hk : k < 16) :
    (bytesOfBlocks bs)[16 * i + k]? = (bs[i]?).map (fun b => blockByte b k) := by
  induction bs generalizing i with
  | nil => simp [bytesOfBlocks]
  | cons b bs ih =>
    cases i with
    | zero =>
      rw [bytesOfBlocks, List.getElem?_append_left (by simp; omega), Nat.mul_zero, Nat.zero_add,
        getElem?_blockBytes b k hk]
      rfl
    | succ i =>
      rw [bytesOfBlocks, List.getElem?_append_right (by simp; omega), length_blockBytes,
        show 16 * (i + 1) + k - 16 = 16 * i + k by omega, ih, List.getElem?_cons_succ]

/-- Cutting the byte string of a sequence of blocks gives the blocks back. -/
theorem blocksOf_bytesOfBlocks (bs : List Block) : blocksOf bs.length (bytesOfBlocks bs) = bs := by
  induction bs with
  | nil => rfl
  | cons b bs ih =>
    rw [List.length_cons, blocksOf, bytesOfBlocks, blockOf_blockBytes_append,
      List.drop_left' (length_blockBytes b), ih]

end Sys2Proof.Machine
end

