-- ==== Sys2Proof/Laws/Decode.lean ====
section
/-! SUPPORT. The fields of a packed word, and the word packed from its fields (30_encoding.md rules R69, R70). -/

namespace Sys2Proof

/-! ## Format M -/

section FormatM
variable (opc imm8 : Byte) (len src dst : Half)

/-- Bit i of a Format M word (rule R69). -/
theorem getLsbD_packM (i : Nat) : (packM opc imm8 len src dst).getLsbD i =
    if i < 8 then opc.getLsbD i else if i < 16 then imm8.getLsbD (i - 8) else if i < 32 then len.getLsbD (i - 16)
    else if i < 48 then src.getLsbD (i - 32) else dst.getLsbD (i - 48) := by
  have h : (packM opc imm8 len src dst).getLsbD i = BitVec.getLsbD (dst ++ src ++ len ++ imm8 ++ opc) i := rfl
  rw [h]
  grind

@[simp] theorem opcOf_packM : opcOf (packM opc imm8 len src dst) = opc := by
  apply BitVec.eq_of_getLsbD_eq
  intro i hi
  simp [opcOf, getLsbD_packM, hi]

@[simp] theorem imm8Of_packM : imm8Of (packM opc imm8 len src dst) = imm8 := by
  apply BitVec.eq_of_getLsbD_eq
  intro i hi
  simp only [imm8Of, BitVec.getLsbD_extractLsb', getLsbD_packM]
  grind

@[simp] theorem lenOf_packM : lenOf (packM opc imm8 len src dst) = len := by
  apply BitVec.eq_of_getLsbD_eq
  intro i hi
  simp only [lenOf, BitVec.getLsbD_extractLsb', getLsbD_packM]
  grind

@[simp] theorem srcOf_packM : srcOf (packM opc imm8 len src dst) = src := by
  apply BitVec.eq_of_getLsbD_eq
  intro i hi
  simp only [srcOf, BitVec.getLsbD_extractLsb', getLsbD_packM]
  grind

@[simp] theorem dstOf_packM : dstOf (packM opc imm8 len src dst) = dst := by
  apply BitVec.eq_of_getLsbD_eq
  intro i hi
  simp only [dstOf, BitVec.getLsbD_extractLsb', getLsbD_packM]
  grind

end FormatM

/-- A word is packed from its five Format M fields: they cover every bit. -/
theorem packM_fields (w : CmdWord) : packM (opcOf w) (imm8Of w) (lenOf w) (srcOf w) (dstOf w) = w := by
  apply BitVec.eq_of_getLsbD_eq
  intro i hi
  simp only [opcOf, imm8Of, lenOf, srcOf, dstOf, getLsbD_packM, BitVec.getLsbD_extractLsb']
  grind

/-! ## Format B -/

section FormatB
variable (opc a b : Byte)

/-- Bit i of a Format B word (rule R70). -/
theorem getLsbD_packB (i : Nat) : (packB opc a b).getLsbD i =
    if i < 8 then opc.getLsbD i else if i < 16 then a.getLsbD (i - 8) else if i < 24 then b.getLsbD (i - 16)
    else false := by
  have h : (packB opc a b).getLsbD i = BitVec.getLsbD ((0 : BitVec 40) ++ b ++ a ++ opc) i := rfl
  rw [h]
  grind

@[simp] theorem opcOf_packB : opcOf (packB opc a b) = opc := by
  apply BitVec.eq_of_getLsbD_eq
  intro i hi
  simp [opcOf, getLsbD_packB, hi]

@[simp] theorem aOf_packB : aOf (packB opc a b) = a := by
  apply BitVec.eq_of_getLsbD_eq
  intro i hi
  simp only [aOf, BitVec.getLsbD_extractLsb', getLsbD_packB]
  grind

@[simp] theorem bOf_packB : bOf (packB opc a b) = b := by
  apply BitVec.eq_of_getLsbD_eq
  intro i hi
  simp only [bOf, BitVec.getLsbD_extractLsb', getLsbD_packB]
  grind

@[simp] theorem rsvOf_packB : rsvOf (packB opc a b) = 0 := by
  apply BitVec.eq_of_getLsbD_eq
  intro i hi
  simp only [rsvOf, BitVec.getLsbD_extractLsb', getLsbD_packB, BitVec.ofNat_eq_ofNat, BitVec.getLsbD_zero]
  grind

end FormatB

/-- A word whose reserved field is zero is packed from its Format B fields. -/
theorem packB_fields (w : CmdWord) (h : rsvOf w = 0) : packB (opcOf w) (aOf w) (bOf w) = w := by
  have hr (j : Nat) (hj : j < 40) : w.getLsbD (24 + j) = false := by
    simpa [rsvOf, hj] using congrArg (fun v => v.getLsbD j) h
  apply BitVec.eq_of_getLsbD_eq
  intro i hi
  simp only [opcOf, aOf, bOf, getLsbD_packB, BitVec.getLsbD_extractLsb']
  have := hr (i - 24)
  grind

/-! ## Accepting a decoded word -/

theorem unusedZero_eq_command_iff (z : Bool) (d : Decoded) (i : Instr) :
    unusedZero z d = .command i ↔ z = true ∧ d = .command i := by
  cases z <;> simp [unusedZero]

theorem checkBlockSize_eq_command_iff (bs : Byte) (i j : Instr) :
    checkBlockSize bs i = .command j ↔ blockSizeOk bs = true ∧ i = j := by
  unfold checkBlockSize
  split <;> simp_all

theorem checkRoundIndex_eq_command_iff (r : Byte) (i j : Instr) :
    checkRoundIndex r i = .command j ↔ roundIndexOk r = true ∧ i = j := by
  unfold checkRoundIndex
  split <;> simp_all

end Sys2Proof
end

