-- ==== Sys2Proof/Laws/Meanings.lean ====
section
/-! SUPPORT. What the shared operations and the commands can do, said once: the reads and writes of blocks, the key
expansion's length, and the inversion lemma `exec_cases` that every claim over the commands can cite. -/

namespace Sys2Proof.Machine

/-! ## Reads of written bytes -/

/-- A read of a range that holds these bytes gives them, whatever the draws (rules R49, R51). -/
theorem memRead_of_holdsBytes {s : State} {a n : Nat} {d : List Byte} (hd : d.length = n)
    (h : HoldsBytes s.buffer a d) : memRead s a n = d := by
  apply List.ext_getElem?
  intro k
  by_cases hk : k < n
  · have hb := h k (by omega)
    rw [List.getElem?_eq_getElem (by omega)] at hb
    rw [getElem?_memRead s a n k hk, readByte_of_written _ hb, List.getElem?_eq_getElem (by omega)]
  · rw [List.getElem?_eq_none (by simp; omega), List.getElem?_eq_none (by omega)]

/-- Byte k of a block read at address a is the byte the buffer holds at a + k. -/
theorem blockByte_blockOf_memRead {s : State} {a k : Nat} {v : Byte} (hk : k < 16)
    (h : Memory.byte? s.buffer (a + k) = some v) : blockByte (blockOf (memRead s a 16)) k = v := by
  rw [blockByte_blockOf _ k hk, List.getD_eq_getElem?_getD, getElem?_memRead s a 16 k hk, readByte_of_written _ h]
  rfl

/-- Input block i of a mode command is the block the buffer holds at SRC + 16i (rule R138). -/
theorem getElem?_modeInput {s : State} {src len : Half} {i : Nat} {p : Block} (hi : i < len.toNat / 16)
    (h : HoldsBlock s.buffer (src.toNat + 16 * i) p) : (modeInput src len s)[i]? = some p := by
  rw [modeInput, getElem?_blocksOf _ _ _ hi]
  congr 1
  apply block_ext_bytes
  intro k hk
  rw [blockByte_blockOf _ k hk, List.getD_eq_getElem?_getD, List.getElem?_drop,
    getElem?_memRead s _ _ (16 * i + k) (by omega)]
  exact readByte_of_written _ (by rw [← Nat.add_assoc]; exact h k hk)

@[simp] theorem length_modeInput (src len : Half) (s : State) : (modeInput src len s).length = len.toNat / 16 := by
  simp [modeInput]

/-! ## Writes of blocks -/

/-- The sixteen bytes of a block stored at an address are that block there (rule R49). -/
theorem holdsBlock_storeBytes (m : Memory) (a : Nat) (b : Block) :
    HoldsBlock (Memory.storeBytes m a (blockBytes b)) a b := by
  intro k hk
  rw [byte?_storeBytes_inside _ _ _ hk, getElem?_blockBytes b k hk]

/-- Output block i of a mode command stands at DST + 16i (rule R139). -/
theorem holdsBlock_modeOutput {dst len : Half} {s : State} {out : List Block} {i : Nat} {b : Block}
    (h : out[i]? = some b) : HoldsBlock (modeOutput dst len s out).buffer (dst.toNat + 16 * i) b := by
  obtain ⟨hi, -⟩ := List.getElem?_eq_some_iff.1 h
  intro k hk
  rw [modeOutput, memWrite_buffer, Nat.add_assoc, byte?_storeBytes_inside _ _ _ (by simp; omega),
    getElem?_bytesOfBlocks _ _ _ hk, h]
  rfl

/-- A mode command's output leaves every byte outside its destination as it was. -/
theorem byte?_modeOutput_outside {dst len : Half} {s : State} {out : List Block} {a : Nat}
    (h : a < dst.toNat ∨ dst.toNat + 16 * out.length ≤ a) :
    Memory.byte? (modeOutput dst len s out).buffer a = Memory.byte? s.buffer a := by
  rw [modeOutput, memWrite_buffer, byte?_storeBytes_outside _ _ (by simpa using h)]
  rfl

/-! ## Lengths -/

@[simp] theorem length_expandLoop (nk n : Nat) (w : List Quad) : (expandLoop nk n w).length = w.length + n := by
  induction n generalizing w with
  | zero => rfl
  | succ n ih => simp [expandLoop, ih]; omega

/-- The expansion has 4·(Nr+1) words (rule R95). -/
@[simp] theorem length_keyExpansion (k : List Byte) : (keyExpansion k).length = 4 * (k.length / 4 + 7) := by
  simp [keyExpansion]; omega

/-- Step by step, the loop only appends: the words it starts with stay. -/
theorem getD_expandLoop_of_lt (nk n : Nat) (w : List Quad) (i : Nat) (h : i < w.length) :
    (expandLoop nk n w).getD i Quad.zero = w.getD i Quad.zero := by
  induction n generalizing w with
  | zero => rfl
  | succ n ih =>
    rw [expandLoop, ih _ (by simp; omega), List.getD_eq_getElem?_getD, List.getElem?_append_left h,
      ← List.getD_eq_getElem?_getD]

@[simp] theorem length_cbcE (w : List Quad) (nr : Nat) (iv : Block) (p : List Block) :
    (cbcE w nr iv p).1.length = p.length := by
  induction p generalizing iv with
  | nil => rfl
  | cons b p ih => simp [cbcE, ih]

@[simp] theorem length_cbcD (w : List Quad) (nr : Nat) (iv : Block) (c : List Block) :
    (cbcD w nr iv c).1.length = c.length := by
  induction c generalizing iv with
  | nil => rfl
  | cons b c ih => simp [cbcD, ih]

@[simp] theorem length_padBytes (d : List Byte) (bs : Byte) :
    (padBytes d bs).length = d.length + padCount d.length bs := by simp [padBytes]

/-! ## The shared checks -/

/-- The checks of the mode commands: three errors or the effect (rule R138). -/
theorem modeChecks_cases (dst src len : Half) (s : State) (effect : Outcome) :
    (∃ e, e ≠ .ok ∧ modeChecks dst src len s effect = raise e s) ∨
    (s.key.kv = true ∧ len.toNat % 16 = 0 ∧ s.InRange src.toNat len.toNat ∧ s.InRange dst.toNat len.toNat ∧
      modeChecks dst src len s effect = effect) := by
  unfold modeChecks
  split
  · exact .inl ⟨.noKey, by decide, rfl⟩
  next h1 =>
  split
  · exact .inl ⟨.invalidBlockLength, by decide, rfl⟩
  next h2 =>
  split
  · exact .inl ⟨.bufferRange, by decide, rfl⟩
  next h3 =>
  split
  · exact .inl ⟨.bufferRange, by decide, rfl⟩
  next h4 => exact .inr ⟨by simpa using h1, by omega, not_not.1 h3, not_not.1 h4, rfl⟩

/-! ## What a command can do -/

/-- The writes of a command whose checks pass, without the completion step. -/
def effectOf (i : Instr) (s : State) : State :=
  match i with
  | .nop => s
  | .keyexp src len => loadKey (drew s len.toNat) (memRead s src.toNat len.toNat)
  | .strk dst r => memWrite s dst.toNat (blockBytes (roundKey s.w r.toNat))
  | .ldst src => { drew s 16 with block := blockOf (memRead s src.toNat 16) }
  | .stst dst => memWrite s dst.toNat (blockBytes s.block)
  | .ldiv src _ => { drew s 16 with chain := blockOf (memRead s src.toNat 16) }
  | .stiv dst => memWrite s dst.toNat (blockBytes s.chain)
  | .subb => { s with block := subBytes s.block }
  | .invsubb => { s with block := invSubBytes s.block }
  | .shrow => { s with block := shiftRows s.block }
  | .invshrow => { s with block := invShiftRows s.block }
  | .mixcol => { s with block := mixColumns s.block }
  | .invmixcol => { s with block := invMixColumns s.block }
  | .ark r => { s with block := addRoundKey s.w s.block r.toNat }
  | .encblk => { s with block := cipher s.w s.key.nr.toNat s.block }
  | .decblk => { s with block := invCipher s.w s.key.nr.toNat s.block }
  | .ecbenc dst src len => modeOutput dst len s (ecbE s.w s.key.nr.toNat (modeInput src len s))
  | .ecbdec dst src len => modeOutput dst len s (ecbD s.w s.key.nr.toNat (modeInput src len s))
  | .cbcenc dst src len =>
    { modeOutput dst len s (cbcE s.w s.key.nr.toNat s.chain (modeInput src len s)).1 with
      chain := (cbcE s.w s.key.nr.toNat s.chain (modeInput src len s)).2 }
  | .cbcdec dst src len =>
    { modeOutput dst len s (cbcD s.w s.key.nr.toNat s.chain (modeInput src len s)).1 with
      chain := (cbcD s.w s.key.nr.toNat s.chain (modeInput src len s)).2 }
  | .pad dst src len bs =>
    { memWrite (drew s len.toNat) dst.toNat (padBytes (memRead s src.toNat len.toNat) bs) with
      outlen := BitVec.ofNat 17 (len.toNat + padCount len.toNat bs) }
  | .unpad src len bs =>
    { drew s len.toNat with
      outlen := BitVec.ofNat 17 ((unpadCheck (memRead s src.toNat len.toNat) bs).getD 0) }
  | .gfmul a b => { s with result := gfMul a b }
  | .sbox a => { s with result := sBox a }
  | .invsbox a => { s with result := invSBox a }

/-- The conditions under which a command has its effect (60_exceptions.md rules R157, R159). -/
structure Passes (i : Instr) (s : State) : Prop where
  key : ¬ KeyMissing i s
  roundIndex : ¬ RoundIndexAboveNr i s
  length : ¬ ∃ e, LengthError i e
  range : ¬ RangeError i s
  content : ¬ ContentError i s

/-- The two ways in which a command answers: it raises an error, having at most drawn free values, or it passes every
check and has its effect. -/
def Answers (i : Instr) (s : State) (o : Outcome) : Prop :=
  (∃ e n, e ≠ .ok ∧ o = .next (complete e (drew s n))) ∨ (Passes i s ∧ o = .next (complete .ok (effectOf i s)))

theorem answers_raise {i : Instr} {e : ErrCode} (he : e ≠ .ok) (s : State) : Answers i s (raise e s) :=
  .inl ⟨e, 0, he, rfl⟩

/-- The checks of a command without ranges and without a round index. -/
theorem passes_of_no_ranges {i : Instr} {s : State} (h1 : needsKey i = true → s.key.kv = true)
    (h2 : srcRange i = none) (h3 : dstRange i = none) (h4 : ∀ r, i = .ark r → r.toNat ≤ s.key.nr.toNat) :
    Passes i s where
  key := by
    rintro ⟨hn, hk⟩
    rw [h1 hn] at hk
    cases hk
  roundIndex := by
    rintro ⟨r, rfl | ⟨dst, rfl⟩, hr⟩
    · have := h4 r rfl
      omega
    · cases h3
  length := by
    rintro ⟨e, ⟨_, _, rfl, -⟩ | ⟨_, _, rfl, -⟩ | ⟨_, _, _, rfl | rfl | rfl | rfl, -⟩⟩ <;> cases h2
  range := by simp [RangeError, h2, h3]
  content := by
    rintro ⟨_, _, _, rfl, -⟩
    cases h2

theorem answers_keyexp (src len : Half) (s : State) : Answers (.keyexp src len) s (execKeyexp src len s) := by
  unfold execKeyexp
  split
  · exact answers_raise (by decide) s
  next h1 =>
  split
  · exact answers_raise (by decide) s
  next h2 =>
  have hl : len = 16 ∨ len = 24 ∨ len = 32 := by
    rw [Bool.not_eq_false] at h1
    simpa only [keyLengthOk, Bool.or_eq_true, beq_iff_eq, or_assoc] using h1
  refine .inr ⟨⟨by simp [KeyMissing, needsKey], by simp [RoundIndexAboveNr], ?_, ?_, by simp [ContentError]⟩, rfl⟩
  · obtain rfl | rfl | rfl := hl <;> simp [LengthError]
  · simpa [RangeError, srcRange, dstRange] using h2

theorem answers_strk (dst : Half) (r : Byte) (s : State) : Answers (.strk dst r) s (execStrk dst r s) := by
  unfold execStrk
  split
  · exact answers_raise (by decide) s
  next h1 =>
  split
  · exact answers_raise (by decide) s
  next h2 =>
  split
  · exact answers_raise (by decide) s
  next h3 =>
  refine .inr ⟨⟨by simpa [KeyMissing, needsKey] using h1, ?_, by simp [LengthError], ?_, by simp [ContentError]⟩, rfl⟩
  · simpa [RoundIndexAboveNr] using h2
  · simpa [RangeError, srcRange, dstRange] using h3

theorem answers_ldst (src : Half) (s : State) : Answers (.ldst src) s (execLdst src s) := by
  unfold execLdst
  split
  · exact answers_raise (by decide) s
  next h =>
  exact .inr ⟨⟨by simp [KeyMissing, needsKey], by simp [RoundIndexAboveNr], by simp [LengthError],
    by simpa [RangeError, srcRange, dstRange] using h, by simp [ContentError]⟩, rfl⟩

theorem answers_stst (dst : Half) (s : State) : Answers (.stst dst) s (execStst dst s) := by
  unfold execStst
  split
  · exact answers_raise (by decide) s
  next h =>
  exact .inr ⟨⟨by simp [KeyMissing, needsKey], by simp [RoundIndexAboveNr], by simp [LengthError],
    by simpa [RangeError, srcRange, dstRange] using h, by simp [ContentError]⟩, rfl⟩

theorem answers_ldiv (src len : Half) (s : State) : Answers (.ldiv src len) s (execLdiv src len s) := by
  unfold execLdiv
  split
  · exact answers_raise (by decide) s
  next h1 =>
  split
  · exact answers_raise (by decide) s
  next h2 =>
  exact .inr ⟨⟨by simp [KeyMissing, needsKey], by simp [RoundIndexAboveNr], by simp [LengthError, not_not.1 h1],
    by simpa [RangeError, srcRange, dstRange] using h2, by simp [ContentError]⟩, rfl⟩

theorem answers_stiv (dst : Half) (s : State) : Answers (.stiv dst) s (execStiv dst s) := by
  unfold execStiv
  split
  · exact answers_raise (by decide) s
  next h =>
  exact .inr ⟨⟨by simp [KeyMissing, needsKey], by simp [RoundIndexAboveNr], by simp [LengthError],
    by simpa [RangeError, srcRange, dstRange] using h, by simp [ContentError]⟩, rfl⟩

theorem answers_ark (r : Byte) (s : State) : Answers (.ark r) s (execArk r s) := by
  unfold execArk
  split
  · exact answers_raise (by decide) s
  next h1 =>
  split
  · exact answers_raise (by decide) s
  next h2 => exact .inr ⟨passes_of_no_ranges (fun _ => by simpa using h1) rfl rfl (by simpa using h2), rfl⟩

theorem answers_encblk (s : State) : Answers .encblk s (execEncblk s) := by
  unfold execEncblk
  split
  · exact answers_raise (by decide) s
  next h => exact .inr ⟨passes_of_no_ranges (fun _ => by simpa using h) rfl rfl (by simp), rfl⟩

theorem answers_decblk (s : State) : Answers .decblk s (execDecblk s) := by
  unfold execDecblk
  split
  · exact answers_raise (by decide) s
  next h => exact .inr ⟨passes_of_no_ranges (fun _ => by simpa using h) rfl rfl (by simp), rfl⟩

/-- The mode commands, whose checks are shared (rule R138). -/
theorem answers_mode {i : Instr} {dst src len : Half} {s : State}
    (hi : i = .ecbenc dst src len ∨ i = .ecbdec dst src len ∨ i = .cbcenc dst src len ∨ i = .cbcdec dst src len) :
    Answers i s (modeChecks dst src len s (finish (effectOf i s))) := by
  obtain ⟨e, he, h⟩ | ⟨h1, h2, h3, h4, h⟩ := modeChecks_cases dst src len s (finish (effectOf i s))
  · exact h ▸ answers_raise he s
  · rw [h]
    have hr : ¬ RangeError i s := by
      obtain rfl | rfl | rfl | rfl := hi <;>
      · rintro ⟨a, n, hr | hr, hn⟩ <;> cases hr <;> exact hn (by assumption)
    refine .inr ⟨⟨by simp [KeyMissing, h1], ?_, ?_, hr, ?_⟩, rfl⟩
    · obtain rfl | rfl | rfl | rfl := hi <;> simp [RoundIndexAboveNr]
    · obtain rfl | rfl | rfl | rfl := hi <;> simp [LengthError, h2]
    · obtain rfl | rfl | rfl | rfl := hi <;> simp [ContentError]

theorem answers_pad (dst src len : Half) (bs : Byte) (s : State) :
    Answers (.pad dst src len bs) s (execPad dst src len bs s) := by
  unfold execPad
  split
  · exact answers_raise (by decide) s
  next h1 =>
  split
  · exact answers_raise (by decide) s
  next h2 =>
  refine .inr ⟨⟨by simp [KeyMissing, needsKey], by simp [RoundIndexAboveNr], by simp [LengthError], ?_,
    by simp [ContentError]⟩, rfl⟩
  rintro ⟨a, n, hr | hr, hn⟩ <;> cases hr
  · exact h1 hn
  · exact h2 hn

theorem answers_unpad (src len : Half) (bs : Byte) (s : State) :
    Answers (.unpad src len bs) s (execUnpad src len bs s) := by
  unfold execUnpad
  split
  · exact answers_raise (by decide) s
  next h1 =>
  split
  · exact .inl ⟨.invalidPadding, len.toNat, by decide, rfl⟩
  next r hr =>
  refine .inr ⟨⟨by simp [KeyMissing, needsKey], by simp [RoundIndexAboveNr], by simp [LengthError],
    by simpa [RangeError, srcRange, dstRange] using h1, ?_⟩, by simp [effectOf, hr, finish]⟩
  rintro ⟨_, _, _, heq, hn⟩
  cases heq
  rw [hr] at hn
  cases hn

/-- The inversion lemma of the commands. -/
theorem exec_cases (i : Instr) (s : State) : Answers i s (exec i s) := by
  cases i with
  | nop => exact .inr ⟨passes_of_no_ranges (by simp [needsKey]) rfl rfl (by simp), rfl⟩
  | keyexp src len => exact answers_keyexp src len s
  | strk dst r => exact answers_strk dst r s
  | ldst src => exact answers_ldst src s
  | stst dst => exact answers_stst dst s
  | ldiv src len => exact answers_ldiv src len s
  | stiv dst => exact answers_stiv dst s
  | subb => exact .inr ⟨passes_of_no_ranges (by simp [needsKey]) rfl rfl (by simp), rfl⟩
  | invsubb => exact .inr ⟨passes_of_no_ranges (by simp [needsKey]) rfl rfl (by simp), rfl⟩
  | shrow => exact .inr ⟨passes_of_no_ranges (by simp [needsKey]) rfl rfl (by simp), rfl⟩
  | invshrow => exact .inr ⟨passes_of_no_ranges (by simp [needsKey]) rfl rfl (by simp), rfl⟩
  | mixcol => exact .inr ⟨passes_of_no_ranges (by simp [needsKey]) rfl rfl (by simp), rfl⟩
  | invmixcol => exact .inr ⟨passes_of_no_ranges (by simp [needsKey]) rfl rfl (by simp), rfl⟩
  | ark r => exact answers_ark r s
  | encblk => exact answers_encblk s
  | decblk => exact answers_decblk s
  | ecbenc dst src len => exact answers_mode (i := .ecbenc dst src len) (by simp)
  | ecbdec dst src len => exact answers_mode (i := .ecbdec dst src len) (by simp)
  | cbcenc dst src len => exact answers_mode (i := .cbcenc dst src len) (by simp)
  | cbcdec dst src len => exact answers_mode (i := .cbcdec dst src len) (by simp)
  | pad dst src len bs => exact answers_pad dst src len bs s
  | unpad src len bs => exact answers_unpad src len bs s
  | gfmul a b => exact .inr ⟨passes_of_no_ranges (by simp [needsKey]) rfl rfl (by simp), rfl⟩
  | sbox a => exact .inr ⟨passes_of_no_ranges (by simp [needsKey]) rfl rfl (by simp), rfl⟩
  | invsbox a => exact .inr ⟨passes_of_no_ranges (by simp [needsKey]) rfl rfl (by simp), rfl⟩

/-- Every command answers a next state. -/
theorem exec_answers_next (i : Instr) (s : State) : ∃ t, exec i s = .next t := by
  obtain ⟨e, n, -, h⟩ | ⟨-, h⟩ := exec_cases i s
  · exact ⟨_, h⟩
  · exact ⟨_, h⟩

end Sys2Proof.Machine
end

