-- ==== Sys2Proof/Laws/PerInstr.lean ====
section
/-! SUPPORT. The family OpcodeOfEncode, one lemma per command: the low byte of a command's word is the opcode of its
row in the table (30_encoding.md rules R67, R72), whatever its operands are. -/

namespace Sys2Proof.Laws

/-- The opcode of the command's word is the one its row gives (rule R72, `match(X)`). -/
def OpcodeOfEncode.Statement (i : Instr) : Prop := opcOf (encode i) = opcOf (matchOf i)

theorem OpcodeOfEncode.nop : OpcodeOfEncode.Statement .nop :=
  opcOf_packM _ _ _ _ _

theorem OpcodeOfEncode.keyexp (src len : Half) : OpcodeOfEncode.Statement (.keyexp src len) :=
  opcOf_packM _ _ _ _ _

theorem OpcodeOfEncode.strk (dst : Half) (r : Byte) : OpcodeOfEncode.Statement (.strk dst r) :=
  opcOf_packM _ _ _ _ _

theorem OpcodeOfEncode.ldst (src : Half) : OpcodeOfEncode.Statement (.ldst src) :=
  opcOf_packM _ _ _ _ _

theorem OpcodeOfEncode.stst (dst : Half) : OpcodeOfEncode.Statement (.stst dst) :=
  opcOf_packM _ _ _ _ _

theorem OpcodeOfEncode.ldiv (src len : Half) : OpcodeOfEncode.Statement (.ldiv src len) :=
  opcOf_packM _ _ _ _ _

theorem OpcodeOfEncode.stiv (dst : Half) : OpcodeOfEncode.Statement (.stiv dst) :=
  opcOf_packM _ _ _ _ _

theorem OpcodeOfEncode.subb : OpcodeOfEncode.Statement .subb :=
  opcOf_packM _ _ _ _ _

theorem OpcodeOfEncode.invsubb : OpcodeOfEncode.Statement .invsubb :=
  opcOf_packM _ _ _ _ _

theorem OpcodeOfEncode.shrow : OpcodeOfEncode.Statement .shrow :=
  opcOf_packM _ _ _ _ _

theorem OpcodeOfEncode.invshrow : OpcodeOfEncode.Statement .invshrow :=
  opcOf_packM _ _ _ _ _

theorem OpcodeOfEncode.mixcol : OpcodeOfEncode.Statement .mixcol :=
  opcOf_packM _ _ _ _ _

theorem OpcodeOfEncode.invmixcol : OpcodeOfEncode.Statement .invmixcol :=
  opcOf_packM _ _ _ _ _

theorem OpcodeOfEncode.ark (r : Byte) : OpcodeOfEncode.Statement (.ark r) :=
  opcOf_packM _ _ _ _ _

theorem OpcodeOfEncode.encblk : OpcodeOfEncode.Statement .encblk :=
  opcOf_packM _ _ _ _ _

theorem OpcodeOfEncode.decblk : OpcodeOfEncode.Statement .decblk :=
  opcOf_packM _ _ _ _ _

theorem OpcodeOfEncode.ecbenc (dst src len : Half) : OpcodeOfEncode.Statement (.ecbenc dst src len) :=
  opcOf_packM _ _ _ _ _

theorem OpcodeOfEncode.ecbdec (dst src len : Half) : OpcodeOfEncode.Statement (.ecbdec dst src len) :=
  opcOf_packM _ _ _ _ _

theorem OpcodeOfEncode.cbcenc (dst src len : Half) : OpcodeOfEncode.Statement (.cbcenc dst src len) :=
  opcOf_packM _ _ _ _ _

theorem OpcodeOfEncode.cbcdec (dst src len : Half) : OpcodeOfEncode.Statement (.cbcdec dst src len) :=
  opcOf_packM _ _ _ _ _

theorem OpcodeOfEncode.pad (dst src len : Half) (bs : Byte) : OpcodeOfEncode.Statement (.pad dst src len bs) :=
  opcOf_packM _ _ _ _ _

theorem OpcodeOfEncode.unpad (src len : Half) (bs : Byte) : OpcodeOfEncode.Statement (.unpad src len bs) :=
  opcOf_packM _ _ _ _ _

theorem OpcodeOfEncode.gfmul (a b : Byte) : OpcodeOfEncode.Statement (.gfmul a b) :=
  opcOf_packB _ _ _

theorem OpcodeOfEncode.sbox (a : Byte) : OpcodeOfEncode.Statement (.sbox a) :=
  opcOf_packB _ _ _

theorem OpcodeOfEncode.invsbox (a : Byte) : OpcodeOfEncode.Statement (.invsbox a) :=
  opcOf_packB _ _ _

end Sys2Proof.Laws
end

