-- ==== Sys2Proof/Tests/Slice0.lean ====
section
/-! SUPPORT. The model's own tests. Expected values come from the spec: the encodings of 30_encoding.md and the worked
values of 95_test_vectors.md, whose vector names (V-GF1, ..) the comments give. After them, one witness for the
hypotheses of each obligation that has some. -/

namespace Sys2Proof.Machine.Test

set_option Elab.async false

/-! ## Helpers -/

/-- The `n` bytes of a number written in hexadecimal, first byte first, as 95_test_vectors.md writes byte strings. -/
def hex (n v : Nat) : List Byte := (List.range n).map (fun i => BitVec.ofNat 8 (v >>> (8 * (n - 1 - i))))

/-- The block of 32 hexadecimal digits. -/
def blk (v : Nat) : Block := blockOf (hex 16 v)

/-- The bytes 00 01 .. of 95_test_vectors.md part 3. -/
def rising (n : Nat) : List Byte := (List.range n).map (BitVec.ofNat 8)

/-- A state with these bytes in the buffer from address `a` on. -/
def withBytes (s : State) (a : Nat) (l : List Byte) : State := memWrite s a l

/-- The start state B0 of 95_test_vectors.md part 3. -/
def b0 : State := withBytes State.reset 0 (rising 32)

/-- The start state B16: B0 with the key 00..0f. -/
def b16 : State := loadKey b0 (rising 16)

/-- The plaintext and the ciphertext of rule R121. -/
def katPlain : Block := blk 0x00112233445566778899aabbccddeeff

def katCipher : Block := blk 0x69c4e0d86a7b0430d8cdb78070b4c55a

/-- The state an outcome answers. -/
def stateOf (o : Outcome) : State :=
  match o with
  | .next t => t
  | .fault _ => State.reset
  | .refused _ => State.reset

/-- One step on a command word (written as 16 hexadecimal digits in the vectors). -/
def after (w : Nat) (s : State) : State := stateOf (step (s.withFetchWord 64 w))

/-- The buffer holds these bytes, all written. -/
def holds (s : State) (a : Nat) (l : List Byte) : Bool :=
  (List.range l.length).map (fun k => Memory.byte? s.buffer (a + k)) == l.map some

/-- A state about to make one host access. -/
def about (s : State) (a : Access) : State := { s with schedule := [.host a] }

/-- One step of a state about to make a host access. -/
def access (s : State) (a : Access) : State := stateOf (step (about s a))

theorem exec_stateOf (i : Instr) (s : State) : exec i s = .next (stateOf (exec i s)) := by
  obtain ⟨t, h⟩ := exec_answers_next i s
  simp [h, stateOf]

/-! ## WellFormed refuses each kind of ill-formed term -/

theorem test_wf_refuses_ark_15 : (Instr.ark 15).wellFormed = false := by decide
theorem test_wf_refuses_strk_255 : (Instr.strk 0x0100 255).wellFormed = false := by decide
theorem test_wf_refuses_pad_bs_0 : (Instr.pad 0x0200 0x0100 3 0).wellFormed = false := by decide
theorem test_wf_refuses_unpad_bs_0 : (Instr.unpad 0x0100 16 0).wellFormed = false := by decide
theorem test_wf_accepts_boundaries :
    (Instr.ark 14).wellFormed = true ∧ (Instr.strk 0 14).wellFormed = true ∧ (Instr.pad 0 0 0 1).wellFormed = true ∧
      (Instr.unpad 0 0 255).wellFormed = true := by decide

/-! ## Words written out from the encodings (30_encoding.md rules R69, R70, R72; 95_test_vectors.md part 3) -/

theorem test_decode_nop : decode 0x0000000000000000 = .command .nop := by decide
theorem test_decode_key_schedule :
    decode 0x00000ff000100001 = .command (.keyexp 0x0ff0 16) ∧
    decode 0x0100000000000e02 = .command (.strk 0x0100 14) := by decide
theorem test_decode_block_moves :
    decode 0x0000001000000010 = .command (.ldst 0x0010) ∧
    decode 0x0100000000000011 = .command (.stst 0x0100) ∧
    decode 0x0000001000100012 = .command (.ldiv 0x0010 16) ∧
    decode 0x0100000000000013 = .command (.stiv 0x0100) := by decide
theorem test_decode_round_transforms :
    decode 0x20 = .command .subb ∧ decode 0x21 = .command .invsubb ∧ decode 0x22 = .command .shrow ∧
    decode 0x23 = .command .invshrow ∧ decode 0x24 = .command .mixcol ∧ decode 0x25 = .command .invmixcol ∧
    decode 0x0a26 = .command (.ark 10) := by decide
theorem test_decode_block_cipher : decode 0x30 = .command .encblk ∧ decode 0x31 = .command .decblk := by decide
theorem test_decode_modes :
    decode 0x0200010000300040 = .command (.ecbenc 0x0200 0x0100 48) ∧
    decode 0x0200010000200041 = .command (.ecbdec 0x0200 0x0100 32) ∧
    decode 0x0200010000300042 = .command (.cbcenc 0x0200 0x0100 48) ∧
    decode 0x0200fff0000f0043 = .command (.cbcdec 0x0200 0xfff0 15) := by decide
theorem test_decode_padding :
    decode 0x0fe0010000101050 = .command (.pad 0x0fe0 0x0100 16 16) ∧
    decode 0x0000010000100f51 = .command (.unpad 0x0100 16 15) := by decide
theorem test_decode_bytes :
    decode 0x0000000000835760 = .command (.gfmul 0x57 0x83) ∧ decode 0x5361 = .command (.sbox 0x53) ∧
    decode 0x6362 = .command (.invsbox 0x63) := by decide

/-- V-GF13, V-KS23, V-RT21, V-SY4, V-PD7, V-KS14: each reason a word is no command. -/
theorem test_decode_illegal :
    decode 0x0000000001835760 = .illegal .unusedFieldNotZero ∧
    decode 0x0100000000010002 = .illegal .unusedFieldNotZero ∧
    decode 0x0000000100000024 = .illegal .unusedFieldNotZero ∧
    decode 0x0000000000000003 = .illegal .reservedOpcode ∧
    decode 0x0200010000030050 = .illegal .blockSizeZero ∧
    decode 0x0100000000000f02 = .illegal .roundIndexAbove14 := by decide

/-- V-PD22, V-SY2, V-BC9: a field the command does not use. -/
theorem test_decode_unused_fields :
    decode 0x0200010000101051 = .illegal .unusedFieldNotZero ∧
    decode 0x0000000000000100 = .illegal .unusedFieldNotZero ∧
    decode 0x0000000000100030 = .illegal .unusedFieldNotZero := by decide

theorem test_decodeTableWord : decodeTableWord 64 0x26 = some (.ark 0) ∧ decodeTableWord 64 0x03 = none := by decide

/-! ## One step per command (95_test_vectors.md part 3) -/

/-- V-SY1. -/
theorem test_nop : after 0x00 { b0 with err := .noKey, errSeen := true } =
    { b0 with errSeen := true, cmdLo := 0, cmdHi := 0, pending := 0 } := by decide

/-- V-KS1: the key status; the last word is that of 95 part 2.3. -/
theorem test_keyexp :
    (after 0x0000000000100001 b0).key = ⟨true, 16, 4, 10⟩ ∧
    (after 0x0000000000100001 b0).w.getD 43 Quad.zero = quadOf (hex 4 0x4d2b30c5) := by decide +kernel
/-- V-KS10: the length is checked before the range. -/
theorem test_keyexp_length_first : (after 0x0000fff000140001 b0).err = .invalidKeyLength := by decide +kernel

/-- 95 part 2.3: the schedules of 24 and 32 bytes; W[12] of the latter takes the extra SubWord. -/
theorem test_keyExpansion_24 : (keyExpansion (rising 24)).getD 51 Quad.zero = quadOf (hex 4 0xe3a41d5d) := by
  decide +kernel
theorem test_keyExpansion_32 :
    (keyExpansion (rising 32)).getD 12 Quad.zero = quadOf (hex 4 0x1651a8cd) ∧
    (keyExpansion (rising 32)).getD 59 Quad.zero = quadOf (hex 4 0x6d68de36) := by decide +kernel

/-- V-KS17. -/
theorem test_strk :
    holds (after 0x0100000000000a02 b16) 0x100 (hex 16 0x13111d7fe3944a17f307a78b4d2b30c5) = true := by decide +kernel
/-- V-KS22: the round index is checked before the range. -/
theorem test_strk_index_first : (after 0x0ff1000000000b02 b16).err = .illegalCommand := by decide +kernel

/-- V-RT1. -/
theorem test_ldst : (after 0x0000001000000010 b0).block = blk 0x101112131415161718191a1b1c1d1e1f := by decide +kernel
/-- V-RT2. -/
theorem test_ldst_range : (after 0x00000ff100000010 b0).err = .bufferRange := by decide +kernel
/-- V-RT4. -/
theorem test_stst : holds (after 0x0100000000000011 { b0 with block := katPlain }) 0x100 (blockBytes katPlain) = true := by
  decide +kernel
/-- V-MD1. -/
theorem test_ldiv : (after 0x0000001000100012 b0).chain = blk 0x101112131415161718191a1b1c1d1e1f := by decide +kernel
/-- V-MD3: 32 bytes are no IV, though they lie in the buffer. -/
theorem test_ldiv_length : (after 0x0000001000200012 b0).err = .invalidBlockLength := by decide +kernel
/-- V-MD5. -/
theorem test_stiv : holds (after 0x0100000000000013 { b0 with chain := blk 0xa0a1a2a3a4a5a6a7a8a9aaabacadaeaf }) 0x100
    (hex 16 0xa0a1a2a3a4a5a6a7a8a9aaabacadaeaf) = true := by decide +kernel

/-- STATE = 00 01 .. 0f in B16. -/
def r16 : State := { b16 with block := blockOf (rising 16) }

/-- V-RT5 to V-RT10, V-RT18. -/
theorem test_subb : (after 0x20 r16).block = blk 0x637c777bf26b6fc53001672bfed7ab76 := by decide +kernel
theorem test_invsubb : (after 0x21 r16).block = blk 0x52096ad53036a538bf40a39e81f3d7fb := by decide +kernel
theorem test_shrow : (after 0x22 r16).block = blk 0x00050a0f04090e03080d02070c01060b := by decide +kernel
theorem test_invshrow : (after 0x23 r16).block = blk 0x000d0a0704010e0b0805020f0c090603 := by decide +kernel
theorem test_mixcol : (after 0x24 r16).block = blk 0x02070005060304010a0f080d0e0b0c09 := by decide +kernel
theorem test_invmixcol : (after 0x25 r16).block = blk 0x0a0f080d0e0b0c090207000506030401 := by decide +kernel
theorem test_ark : (after 0x0a26 r16).block = blk 0x13101f7ce7914c10fb0ead8041263eca := by decide +kernel
/-- V-RT15: no key. -/
theorem test_ark_noKey : (after 0x26 b0).err = .noKey ∧ (after 0x26 b0).errSeen = true := by decide +kernel

/-- V-BC1, V-BC2. -/
theorem test_encblk : (after 0x30 { b16 with block := katPlain }).block = katCipher := by decide +kernel
theorem test_decblk : (after 0x31 { b16 with block := katCipher }).block = katPlain := by decide +kernel

/-- V-MD6, its first two blocks: equal plaintext gives equal ciphertext. -/
theorem test_ecbenc :
    holds (after 0x0200010000200040 (withBytes b16 0x100 (blockBytes katPlain ++ blockBytes katPlain))) 0x200
      (blockBytes katCipher ++ blockBytes katCipher) = true := by decide +kernel
/-- V-MD17: NoKey comes before the length. -/
theorem test_ecbenc_noKey : (after 0x0200010000110040 b0).err = .noKey := by decide +kernel
/-- V-MD7, its first block. -/
theorem test_ecbdec :
    holds (after 0x0200010000100041 (withBytes b16 0x100 (blockBytes katCipher))) 0x200 (blockBytes katPlain) = true := by
  decide +kernel
/-- V-MD19: the length is checked before the range. -/
theorem test_ecbdec_length_first : (after 0x0200fff0000f0041 b16).err = .invalidBlockLength := by decide +kernel
/-- V-MD10: in place, two blocks, a zero IV. -/
theorem test_cbcenc :
    (after 0x0100010000200042 (withBytes b16 0x100 (blockBytes katPlain ++ blockBytes katPlain))).chain =
      blk 0x7d7786be32d059a60ca8021a65dd9f09 := by decide +kernel
/-- V-MD13: LEN = 0 keeps CHAIN and completes. -/
theorem test_cbcenc_empty :
    (after 0x0200010000000042 { b16 with chain := katPlain, err := .noKey }).chain = katPlain ∧
    (after 0x0200010000000042 { b16 with chain := katPlain, err := .noKey }).err = .ok := by decide +kernel
/-- V-MD9 cut to its first block, in place; CHAIN becomes the ciphertext block. -/
theorem test_cbcdec :
    holds (after 0x0100010000100043 { withBytes b16 0x100 (hex 16 0xc196d7dd2ce48e256413e116a787ea90) with
      chain := blk 0xa0a1a2a3a4a5a6a7a8a9aaabacadaeaf }) 0x100 (blockBytes katPlain) = true ∧
    (after 0x0100010000100043 (withBytes b16 0x100 (hex 16 0xc196d7dd2ce48e256413e116a787ea90))).chain =
      blk 0xc196d7dd2ce48e256413e116a787ea90 := by decide +kernel

/-- V-PD6: in place. -/
theorem test_pad :
    holds (after 0x0100010000030350 (withBytes b0 0x100 [0x41, 0x42, 0x43])) 0x100 (hex 6 0x414243030303) = true ∧
    (after 0x0100010000030350 (withBytes b0 0x100 [0x41, 0x42, 0x43])).outlen = 6 := by decide +kernel
/-- V-PD10: one byte past the buffer. -/
theorem test_pad_range : (after 0x0ff10100000f1050 b0).err = .bufferRange := by decide +kernel
/-- V-PD11. -/
theorem test_unpad : (after 0x0000010000071051 (withBytes b0 0x100 (hex 7 0x41424304040404))).outlen = 3 := by
  decide +kernel
/-- V-PD17: the count exceeds the length, and OUTLEN is kept. -/
theorem test_unpad_invalid :
    (after 0x0000010000031051 { withBytes b0 0x100 [4, 4, 4] with outlen := 7 }).err = .invalidPadding ∧
    (after 0x0000010000031051 { withBytes b0 0x100 [4, 4, 4] with outlen := 7 }).outlen = 7 := by decide +kernel

/-- V-GF1, V-GF8, V-GF11. -/
theorem test_gfmul : (after 0x0000000000835760 b0).result = 0xc1 := by decide +kernel
theorem test_sbox : (after 0x5361 b0).result = 0xed := by decide +kernel
theorem test_invsbox : (after 0xed62 b0).result = 0x53 := by decide +kernel
/-- V-GF13: an illegal word writes nothing but ERR and ERRSEEN. -/
theorem test_illegal_word :
    (after 0x0000000001835760 b0).err = .illegalCommand ∧ (after 0x0000000001835760 b0).result = 0 ∧
    (after 0x0000000001835760 b0).busy = false := by decide +kernel

/-- The steps `withFetchWord` prepares run from the reset state. -/
theorem test_fetch_at_reset : (after 0x0000000000835760 State.reset).result = 0xc1 := by decide

/-! ## Host accesses (95_test_vectors.md part 4) -/

/-- V-H1, V-H3, V-H4, V-H7. -/
theorem test_host_registers :
    (access b0 (.read 32 0x000)).readData = 0x41455331 ∧ (access b0 (.read 32 0x020)).readData = 0x00001000 ∧
    (access b16 (.read 32 0x018)).readData = 0x000A0410 ∧
    (access { b0 with err := .invalidKeyLength, errSeen := true } (.read 32 0x004)).readData = 0x00010100 := by
  decide +kernel
/-- V-H9, V-H10: only bit 16 of a STATUS write does anything. -/
theorem test_host_clears_errSeen :
    (access { b0 with errSeen := true, fault := true } (.write 32 0x004 0xFFFFFFFF)) =
      { b0 with fault := true } := by decide +kernel
/-- V-H11, V-H12, V-H17: violations read 0 and set FAULT. -/
theorem test_host_violations :
    (access b0 (.read 16 0x004)).fault = true ∧ (access b0 (.read 32 0x006)).fault = true ∧
    (access b0 (.read 16 0x10001)).fault = true ∧ (access b0 (.read 16 0x10001)).readData = 0 := by decide +kernel
/-- V-H15, V-H16, V-H19: the buffer is little-endian, and reads 0 past BUF_BYTES. -/
theorem test_host_buffer_reads :
    (access b0 (.read 32 0x10000)).readData = 0x03020100 ∧ (access b0 (.read 16 0x10002)).readData = 0x0302 ∧
    (access b0 (.read 32 0x11000)).readData = 0 ∧ (access b0 (.read 32 0x11000)).fault = false := by decide +kernel
/-- V-H18. -/
theorem test_host_buffer_write :
    holds (access b0 (.write 32 0x10100 0xDDCCBBAA)) 0x100 [0xaa, 0xbb, 0xcc, 0xdd] = true := by decide +kernel
/-- V-H20, V-H21: CMD_LO only stores; CMD_HI issues. -/
theorem test_host_issue :
    (access b0 (.write 32 0x008 0x00100001)).busy = false ∧
    (access { b0 with cmdLo := 0x00100001 } (.write 32 0x00C 0)).busy = true ∧
    (access { b0 with cmdLo := 0x00100001 } (.write 32 0x00C 0)).pending = 0x00100001 := by decide +kernel
/-- V-H23, V-H22: with a command pending OUTLEN is a violation and STATUS is not. -/
theorem test_host_busy :
    (access (withIssued b0 0x00100001) (.read 32 0x010)).fault = true ∧
    (access (withIssued b0 0x00100001) (.read 32 0x004)).readData = 1 ∧
    (access (withIssued b0 0x00100001) (.read 32 0x004)).fault = false := by decide +kernel
/-- Rules R41, R56: with a command pending, a CTRL write with bit 0 = 0 neither disturbs it nor sets FAULT. -/
theorem test_host_ctrl_without_reset :
    access (withIssued b0 0x00100001) (.write 32 0x01C 0xFFFFFFFE) =
      { withIssued b0 0x00100001 with schedule := [] } := by decide +kernel
/-- V-H24: a soft reset aborts the pending command; rule R175: its destination becomes never written. -/
theorem test_host_soft_reset :
    (access (withIssued { b16 with fault := true } 0x0000000000000011) (.write 32 0x01C 1)).key = KeyStatus.none ∧
    (access (withIssued { b16 with fault := true } 0x0000000000000011) (.write 32 0x01C 1)).fault = false ∧
    Memory.byte? (access (withIssued b16 0x0000000000000011) (.write 32 0x01C 1)).buffer 15 = none ∧
    Memory.byte? (access (withIssued b16 0x0000000000000011) (.write 32 0x01C 1)).buffer 16 = some 16 := by
  decide +kernel

/-! ## The assembler (30_encoding.md rules R75 to R77) -/

theorem test_assemble :
    assembledWords (assembleLine "cbcenc 0x0200, 0x0100, 48 ; chain".toList) = [0x0200010000300042] ∧
    assembleLine "xtime 0x57".toList = .commands [.gfmul 0x57 0x02] ∧
    assembleLine "  ; nothing".toList = .commands [] := by decide +kernel
/-- V-KS10, V-KS20, V-PD8, V-PD11: the operand order of R75's table. -/
theorem test_assemble_operand_order :
    assembledWords (assembleLine "keyexp 0xfff0, 20".toList) = [0x0000fff000140001] ∧
    assembledWords (assembleLine "strk 0x0100, 14".toList) = [0x0100000000000e02] ∧
    assembledWords (assembleLine "pad 0x0fe0, 0x0100, 16, 16".toList) = [0x0fe0010000101050] ∧
    assembledWords (assembleLine "unpad 0x0100, 7, 16".toList) = [0x0000010000071051] := by decide +kernel
theorem test_assemble_refuses :
    assembleLine "ark 15".toList = .refused .roundIndexAbove14 ∧
    assembleLine "pad 0, 0, 3, 0".toList = .refused .blockSizeZero ∧
    assembleLine "gfmul 0x57".toList = .refused .missingOperand ∧
    assembleLine "nop 1".toList = .refused .extraOperand ∧
    assembleLine "sbox 256".toList = .refused .operandTooWide ∧
    assembleLine "aes".toList = .refused .unknownMnemonic := by decide +kernel

/-! ## Witnesses: the hypotheses of each obligation can be met together, at the boundaries of their ranges -/

/-- A state with this word pending and the core's turn next. -/
def due (s : State) (w : CmdWord) : State := withIssued s w

theorem witness_DecodeOfEncode :
    (Instr.strk 0xFFFF 14).wellFormed = true ∧ (Instr.pad 0 0xFFFF 0 1).wellFormed = true ∧
    (Instr.unpad 0 0 255).wellFormed = true := by decide

theorem witness_EncodeOfDecode : decode 0x0000010000100f51 = .command (.unpad 0x0100 16 15) := by decide

theorem witness_DecodeFollowsMaskAndMatch :
    decode 0x0a26 = .command ((Instr.ark 0).withFieldsOf 0x0a26) ∧
    decode (due b0 0x0f26).pending = .illegal .roundIndexAbove14 := by decide

theorem witness_IllegalWordsOnlyReport :
    (opcOf 0x0000000000000063).toNat ∉
      [0x00, 0x01, 0x02, 0x10, 0x11, 0x12, 0x13, 0x20, 0x21, 0x22, 0x23, 0x24, 0x25, 0x26, 0x30, 0x31, 0x40, 0x41,
        0x42, 0x43, 0x50, 0x51, 0x60, 0x61, 0x62] ∧
    (due b0 0x63).busy = true ∧ CoreHasTurn (due b0 0x63) [] ∧
    decode (due b0 0x63).pending = .illegal .reservedOpcode :=
  ⟨by decide, rfl, .inl rfl, by decide⟩

theorem witness_StepRunsTheDueTurn :
    ((due b0 0x20).busy = true ∧ CoreHasTurn (due b0 0x20) [] ∧ decode (due b0 0x20).pending = .command .subb) ∧
    (b0.busy = false ∧ CoreHasTurn b0 []) ∧
    ((about b0 (.read 32 0)).schedule = .host (.read 32 0) :: []) ∧
    ({ b0 with schedule := [.hardReset] } : State).schedule = .hardReset :: [] ∧
    decodeTableWord 64 0x20 = some .subb :=
  ⟨⟨rfl, .inl rfl, by decide⟩, ⟨rfl, .inr ⟨rfl, rfl⟩⟩, rfl, rfl, by decide⟩

theorem witness_NothingStopsTheMachine :
    (about { b0 with err := .noKey, errSeen := true, fault := true } (.write 32 0x00C 0)).busy = false ∧
    (about { b0 with err := .noKey, errSeen := true, fault := true } (.write 32 0x00C 0)).schedule =
      .host (.write 32 (b0.config.base + 0x00C) 0) :: [] := ⟨rfl, rfl⟩

theorem witness_IssueProtocolRunsTheWord :
    ({ b0 with cmdLo := 7, schedule := issueTurns b0.config 0x20 } : State).busy = false ∧
    ({ b0 with cmdLo := 7, schedule := issueTurns b0.config 0x20 } : State).schedule =
      issueTurns b0.config 0x20 ++ [] := ⟨rfl, rfl⟩

theorem witness_ResetMeetsInv :
    Config.default.Legal ∧ Config.Legal ⟨256, 0⟩ ∧ Config.Legal ⟨65536, 0x20000⟩ := by decide

/-- The invariant holds of a state with a key, so that its clause on W is met by an expansion. -/
theorem inv_b16 : Inv (due b16 0x20) where
  config := by decide
  canonical := by decide +kernel
  inBuffer := by decide +kernel
  wordCount := by decide +kernel
  keyStatus :=
    { withoutKey := by intro h; cases h
      withKey := fun _ => ⟨rising 16, by decide, by decide, by decide, by decide, by decide +kernel⟩ }
  latched := by decide
  outlenInBuffer := by decide

theorem witness_StepKeepsInv :
    Inv (due b16 0x20) ∧ step (due b16 0x20) = .next (stateOf (exec .subb { due b16 0x20 with schedule := [] })) :=
  ⟨inv_b16, rfl⟩

theorem witness_FailedCommandWritesNothing :
    coreStep (due b0 0x26) = .next (stateOf (exec (.ark 0) (due b0 0x26))) ∧
    (stateOf (exec (.ark 0) (due b0 0x26))).err ≠ .ok := ⟨exec_stateOf (.ark 0) _, by decide⟩

theorem witness_FirstFailingCheckIsReported_decode :
    decode (due b0 0x0f26).pending = .illegal .roundIndexAbove14 ∧
    coreStep (due b0 0x0f26) = .next (complete .illegalCommand (due b0 0x0f26)) := ⟨by decide, rfl⟩

theorem witness_FirstFailingCheckIsReported_key :
    (Instr.ark 0).wellFormed = true ∧ exec (.ark 0) b0 = .next (stateOf (exec (.ark 0) b0)) ∧
    KeyMissing (.ark 0) b0 := ⟨by decide, exec_stateOf _ _, by decide, rfl⟩

theorem witness_FirstFailingCheckIsReported_index :
    (Instr.ark 11).wellFormed = true ∧ exec (.ark 11) b16 = .next (stateOf (exec (.ark 11) b16)) ∧
    ¬ KeyMissing (.ark 11) b16 ∧ RoundIndexAboveNr (.ark 11) b16 :=
  ⟨by decide, exec_stateOf _ _, by simp [KeyMissing, b16], 11, .inl rfl, by decide⟩

theorem witness_FirstFailingCheckIsReported_length :
    (Instr.keyexp 0xfff0 20).wellFormed = true ∧
    exec (.keyexp 0xfff0 20) b0 = .next (stateOf (exec (.keyexp 0xfff0 20) b0)) ∧
    ¬ KeyMissing (.keyexp 0xfff0 20) b0 ∧ ¬ RoundIndexAboveNr (.keyexp 0xfff0 20) b0 ∧
    LengthError (.keyexp 0xfff0 20) .invalidKeyLength ∧ RangeError (.keyexp 0xfff0 20) b0 :=
  ⟨by decide, exec_stateOf _ _, by simp [KeyMissing, needsKey], by simp [RoundIndexAboveNr],
    .inl ⟨_, _, rfl, by decide, by decide, by decide, rfl⟩, _, _, .inl rfl, by decide⟩

theorem witness_FirstFailingCheckIsReported_range :
    (Instr.ldst 0x0ff1).wellFormed = true ∧ exec (.ldst 0x0ff1) b0 = .next (stateOf (exec (.ldst 0x0ff1) b0)) ∧
    ¬ KeyMissing (.ldst 0x0ff1) b0 ∧ ¬ RoundIndexAboveNr (.ldst 0x0ff1) b0 ∧
    (¬ ∃ e, LengthError (.ldst 0x0ff1) e) ∧ RangeError (.ldst 0x0ff1) b0 :=
  ⟨by decide, exec_stateOf _ _, by simp [KeyMissing, needsKey], by simp [RoundIndexAboveNr], by simp [LengthError],
    _, _, .inl rfl, by decide⟩

theorem witness_FirstFailingCheckIsReported_content :
    (Instr.unpad 0 0 16).wellFormed = true ∧ exec (.unpad 0 0 16) b0 = .next (stateOf (exec (.unpad 0 0 16) b0)) ∧
    ¬ KeyMissing (.unpad 0 0 16) b0 ∧ ¬ RoundIndexAboveNr (.unpad 0 0 16) b0 ∧
    (¬ ∃ e, LengthError (.unpad 0 0 16) e) ∧ ¬ RangeError (.unpad 0 0 16) b0 ∧ ContentError (.unpad 0 0 16) b0 :=
  ⟨by decide, exec_stateOf _ _, by simp [KeyMissing, needsKey], by simp [RoundIndexAboveNr], by simp [LengthError],
    by simp [RangeError, srcRange, dstRange], _, _, _, rfl, by decide⟩

theorem witness_FirstFailingCheckIsReported_none :
    (Instr.ldst 0x0ff0).wellFormed = true ∧ Passes (.ldst 0x0ff0) b0 :=
  ⟨by decide, by simp [KeyMissing, needsKey], by simp [RoundIndexAboveNr], by simp [LengthError],
    by simp [RangeError, srcRange, dstRange]; decide, by simp [ContentError]⟩

theorem witness_CommandsWriteOnlyTheirDestination :
    (Instr.stst 0x0ff0).wellFormed = true ∧ exec (.stst 0x0ff0) b0 = .next (stateOf (exec (.stst 0x0ff0) b0)) ∧
    (stateOf (exec (.stst 0x0ff0) b0)).err = .ok ∧ dstRange (.stst 0x0ff0) = some (0x0ff0, 16) ∧
    (∀ b n, dstRange (.stst 0x0ff0) = some (b, n) → 0x0fef < b ∨ b + n ≤ 0x0fef) :=
  ⟨by decide, exec_stateOf _ _, by decide, rfl, by rintro b n h; cases h; decide⟩

theorem witness_OnlyListedCommandsWriteEachRegister :
    ((stateOf (exec .subb b0)).block ≠ b0.block) ∧
    ((stateOf (exec (.ldiv 0 16) b0)).chain ≠ b0.chain) ∧
    ((stateOf (exec (.keyexp 0 16) b0)).key ≠ b0.key) ∧
    ((stateOf (exec (.pad 0 0 0 1) b0)).outlen ≠ b0.outlen) ∧
    ((stateOf (exec (.sbox 0) b0)).result ≠ b0.result) := by decide +kernel

theorem witness_CommandsLeaveTheHostSide :
    coreStep (due b0 0x26) = .next (stateOf (exec (.ark 0) (due b0 0x26))) := exec_stateOf (.ark 0) _

theorem witness_StaleKeyWordsAreUnobservable :
    SameButStaleW b16 { b16 with w := b16.w.set 59 ⟨1, 2, 3, 4⟩ } ∧ b16.w.set 59 ⟨1, 2, 3, 4⟩ ≠ b16.w :=
  ⟨⟨rfl, by decide +kernel, by decide +kernel⟩, by decide +kernel⟩

theorem witness_OnlyResetClearsFaultOrKey :
    step (about { b16 with fault := true } (.write 32 0x01C 1)) =
      .next (softReset { b16 with fault := true }) ∧
    ({ b16 with fault := true } : State).fault = true ∧ (softReset { b16 with fault := true }).fault = false ∧
    b16.key.kv = true ∧ (softReset { b16 with fault := true }).key.kv = false := ⟨rfl, rfl, rfl, rfl, rfl⟩

theorem witness_GfMulIsTheFieldProduct :
    (0x01 : Byte) ≠ 0 ∧ (0xFF : Byte) ≠ 0 ∧ [7, 0, 1, 2, 3, 4, 5, 6].Perm (List.range 8) := by decide

theorem witness_SBoxTables : (((0 : Byte) = 0 ∧ (0 : Byte) = 0) ∨ gfMul 0 0 = 0x01) ∧ gfMul 0x53 0xCA = 0x01 := by
  decide

theorem witness_KeyExpansionFollowsTheRecurrence :
    (rising 16).length = 16 ∧ (rising 24).length = 24 ∧ (rising 32).length = 32 ∧
    (8 ≤ 59 ∧ 59 < 4 * (8 + 6 + 1)) ∧ (56 % 8 = 0 ∧ 56 / 8 = 7) ∧ (6 < 8 ∧ 12 % 8 = 4) ∧ (40 % 4 = 0 ∧ 40 / 4 = 10) := by
  decide

theorem witness_KeyexpLoadsTheKey :
    ((0 : Half).toNat ≠ 16 ∧ (0 : Half).toNat ≠ 24 ∧ (0 : Half).toNat ≠ 32) ∧
    ((16 : Half).toNat = 16 ∧ ¬ (0x0ff1 : Half).toNat + (16 : Half).toNat ≤ b0.config.bufBytes) ∧
    ((16 : Half).toNat = 16 ∧ (0x0ff0 : Half).toNat + (16 : Half).toNat ≤ b0.config.bufBytes) ∧
    ((rising 32).length = (32 : Half).toNat ∧ HoldsBytes b0.buffer 0 (rising 32)) ∧ b0.w.length = 60 := by
  unfold HoldsBytes
  decide +kernel

theorem witness_RoundKeySlices :
    (rising 32).length = 32 ∧ (4 * (14 + 1) ≤ (keyExpansion (rising 32)).length ∧ 14 ≤ 14 ∧ 15 < 16) := by
  simp [rising]

theorem witness_StrkStoresTheRoundKey :
    b16.key.kv = true ∧ (10 : Byte).toNat ≤ b16.key.nr.toNat ∧
    (0x0ff0 : Half).toNat + 16 ≤ b16.config.bufBytes := by decide

theorem witness_LoadsFillTheRegister :
    (0x0ff0 : Half).toNat + 16 ≤ b0.config.bufBytes ∧ (0x0010 : Half).toNat + 16 ≤ b0.config.bufBytes ∧
    Memory.byte? b0.buffer ((0x0010 : Half).toNat + 15) = some 31 := by decide +kernel

theorem witness_StoresWriteTheRegister : (0x0ff0 : Half).toNat + 16 ≤ b0.config.bufBytes := by decide

theorem witness_ByteAndRowTransforms : 15 < 16 ∧ 3 < 4 := by decide

theorem witness_ColumnTransforms : 3 < 4 := by decide

theorem witness_AddRoundKeyAndArk :
    b0.key.kv = false ∧ (b16.key.kv = true ∧ ¬ (11 : Byte).toNat ≤ b16.key.nr.toNat) ∧
    (b16.key.kv = true ∧ (10 : Byte).toNat ≤ b16.key.nr.toNat) := by decide

/-- Two blocks that agree in column 3, in row 1 and in byte 15 and not elsewhere. -/
theorem witness_TransformAlgebra :
    blockColumn Block.zero 3 = blockColumn (blk 0x01000000000000000000000000000000) 3 ∧
    (∀ j, j < 4 → blockByte Block.zero (1 + 4 * j) =
      blockByte (blk 0x01000000000000000000000000000000) (1 + 4 * j)) ∧
    blockByte Block.zero 15 = blockByte (blk 0x01000000000000000000000000000000) 15 := by decide

theorem witness_BlockCommandsTransformState : b16.key.kv = true ∧ b0.key.kv = false := ⟨rfl, rfl⟩

theorem witness_CipherRoundTrip : b16.key.kv = true := rfl

theorem witness_BlockCommandsEqualTheirSequences : b16.key.kv = true ∧ b16.key.nr.toNat = 10 := ⟨rfl, by decide⟩

/-- B16 with two plaintext blocks at 0x100. -/
def twoBlocks : State := withBytes b16 0x100 (blockBytes katPlain ++ blockBytes katPlain)

/-- The hypotheses that the statements on ECB, CBC encryption and CBC decryption share. -/
theorem witness_modes :
    twoBlocks.key.kv = true ∧ (32 : Half).toNat % 16 = 0 ∧
    (0x0100 : Half).toNat + (32 : Half).toNat ≤ twoBlocks.config.bufBytes ∧
    (0x0fe0 : Half).toNat + (32 : Half).toNat ≤ twoBlocks.config.bufBytes := by decide

theorem witness_EcbTransformsEachBlock :
    1 < (32 : Half).toNat / 16 ∧ HoldsBlock twoBlocks.buffer ((0x0100 : Half).toNat + 16 * 1) katPlain := by
  unfold HoldsBlock
  decide +kernel

theorem witness_CbcencChainsTheBlocks :
    HoldsBlock twoBlocks.buffer ((0x0100 : Half).toNat + 16 * 1) katPlain ∧
    HoldsBlock (stateOf (exec (.cbcenc 0x0fe0 0x0100 32) twoBlocks)).buffer ((0x0fe0 : Half).toNat + 16 * (1 - 1))
      katCipher ∧ (32 : Half).toNat ≠ 0 ∧ (0 : Half).toNat = 0 := by
  unfold HoldsBlock
  decide +kernel

theorem witness_CbcdecChainsTheBlocks :
    HoldsBlock twoBlocks.buffer ((0x0100 : Half).toNat + 16 * 1) katPlain ∧
    HoldsBlock twoBlocks.buffer ((0x0100 : Half).toNat + 16 * (1 - 1)) katPlain ∧
    HoldsBlock twoBlocks.buffer ((0x0100 : Half).toNat + 16 * ((32 : Half).toNat / 16 - 1)) katPlain := by
  unfold HoldsBlock
  decide +kernel

theorem witness_ModesCheckTheLengthFirst :
    b16.key.kv = true ∧ (17 : Half).toNat % 16 ≠ 0 ∧
    ((0 : Half).toNat = 0 ∧ (0x1000 : Half).toNat ≤ b16.config.bufBytes) := by decide

theorem witness_ModesIgnoreState :
    exec (.ecbenc 0x0fe0 0x0100 32) twoBlocks = .next (stateOf (exec (.ecbenc 0x0fe0 0x0100 32) twoBlocks)) ∧
    exec (.cbcdec 0x0fe0 0x0100 17) twoBlocks = .next (stateOf (exec (.cbcdec 0x0fe0 0x0100 17) twoBlocks)) :=
  ⟨exec_stateOf _ _, exec_stateOf _ _⟩

theorem witness_ModeLaws : [katPlain, katCipher, katPlain][0]? = [katPlain, katCipher, katPlain][2]? := rfl

theorem witness_PadAppendsTheCount :
    (1 : Byte) ≠ 0 ∧ (255 : Byte) ≠ 0 ∧
    (0 : Half).toNat + (16 : Half).toNat ≤ b0.config.bufBytes ∧
    (0x0fe0 : Half).toNat + ((16 : Half).toNat + ((16 : Byte).toNat - (16 : Half).toNat % (16 : Byte).toNat)) ≤
      b0.config.bufBytes ∧
    (15 < (16 : Half).toNat ∧ Memory.byte? b0.buffer ((0 : Half).toNat + 15) = some 15) ∧
    ((16 : Half).toNat ≤ 31 ∧ 31 < (16 : Half).toNat + 16) := by decide +kernel

theorem witness_UnpadCheckConditions : unpadCheck (hex 7 0x41424304040404) 16 = some 3 := by decide +kernel

theorem witness_UnpadReportsTheLength :
    (0 : Half).toNat + (32 : Half).toNat ≤ b0.config.bufBytes ∧ (rising 32).length = (32 : Half).toNat ∧
    HoldsBytes b0.buffer (0 : Half).toNat (rising 32) ∧ unpadCheck (rising 32) 16 = none ∧
    HoldsBytes b0.buffer (1 : Half).toNat [1] ∧ unpadCheck [1] 1 = some 0 := by
  unfold HoldsBytes
  decide +kernel

theorem witness_PaddingRoundTrip :
    (1 : Byte) ≠ 0 ∧ (255 : Byte) ≠ 0 ∧ 1 ≤ [(0x41 : Byte), 3, 4, 3].length ∧
    [(0x41 : Byte), 3, 4, 3].getD 3 0 = 3 ∧
    (4 - 3 ≤ 2 ∧ 2 < 4 ∧ [(0x41 : Byte), 3, 4, 3].getD 2 0 ≠ 3) ∧ (16 : Byte).toNat < (17 : Byte).toNat := by decide

theorem witness_PadThenUnpadGivesTheLength :
    (255 : Byte) ≠ 0 ∧ exec (.pad 0x0100 0 0 255) b0 = .next (stateOf (exec (.pad 0x0100 0 0 255) b0)) ∧
    (stateOf (exec (.pad 0x0100 0 0 255) b0)).err = .ok ∧
    (stateOf (exec (.pad 0x0100 0 0 255) b0)).outlen.toNat < 65536 :=
  ⟨by decide, exec_stateOf _ _, by decide +kernel, by decide +kernel⟩

theorem witness_ViolationsOnlySetFault_sets :
    step (about b0 (.read 16 4)) = .next (access b0 (.read 16 4)) ∧ (about b0 (.read 16 4)).fault = false ∧
    (access b0 (.read 16 4)).fault = true := ⟨rfl, rfl, rfl⟩

/-- The four cases of the claim: a violation and an allowed access, with BUSY = 0 and with BUSY = 1. -/
theorem witness_ViolationsOnlySetFault :
    (0x1FFFF < 0x20000 ∧ (about b0 (.read 8 0x1FFFF)).busy = false ∧ (8 = 8 ∧ 0x1FFFF % (8 / 8) = 0)) ∧
    (0x0FFFE < 0x20000 ∧ ¬ (0x0FFFE % 4 = 0) ∧ ¬ (0x10000 ≤ 0x0FFFE)) ∧
    ((about (due b0 0x20) (.write 32 0x01C 0)).busy = true ∧
      (about (due b0 0x20) (.write 32 0x01C 0)).schedule = .host (.write 32 (b0.config.base + 0x01C) 0) :: []) ∧
    ((about (due b0 0x20) (.read 32 0x010)).busy = true ∧ ¬ (0x010 = 0x000 ∨ 0x010 = 0x004 ∨ 0x010 = 0x020)) := by
  decide

theorem witness_RegisterReads :
    (about b0 (.read 32 0x0FFFC)).schedule = .host (.read 32 (b0.config.base + 0x0FFFC)) :: [] ∧
    (b0.busy = false ∧ 0x0FFFC < 0x10000 ∧ 0x0FFFC % 4 = 0) ∧ 0x024 ≤ 0x0FFFC ∧
    ((about (due b0 0x20) (.read 32 0x004)).busy = true) := by decide

theorem witness_StatusAndKeycfgFields :
    exec (.keyexp 0 32) b0 = .next (stateOf (exec (.keyexp 0 32) b0)) ∧
    (stateOf (exec (.keyexp 0 32) b0)).err = .ok := ⟨exec_stateOf _ _, by decide +kernel⟩

theorem witness_RegisterWrites :
    (about b0 (.write 32 0x0FFFC 1)).schedule = .host (.write 32 (b0.config.base + 0x0FFFC) 1) :: [] ∧
    b0.busy = false ∧ 0x0FFFC < 0x10000 ∧ 0x0FFFC % 4 = 0 ∧ 0x020 ≤ 0x0FFFC := by decide

/-- The clause on CTRL, with a command pending. -/
theorem witness_RegisterWrites_ctrl :
    (about (due b0 0x20) (.write 32 0x01C 0xFFFFFFFE)).schedule =
      .host (.write 32 (b0.config.base + 0x01C) 0xFFFFFFFE) :: [] ∧
    (0xFFFFFFFE : Reg32).getLsbD 0 = false ∧ (about (due b0 0x20) (.write 32 0x01C 0xFFFFFFFE)).busy = true := by
  decide

theorem witness_SoftReset :
    (about (due b16 0x11) (.write 32 0x01C 1)).schedule = .host (.write 32 (b16.config.base + 0x01C) 1) :: [] ∧
    (1 : Reg32).getLsbD 0 = true ∧ (due b16 0x11).busy = true ∧ decode (due b16 0x11).pending = .command (.stst 0) ∧
    dstRange (.stst 0) = some (0, 16) ∧ b16.busy = false := by decide

theorem witness_BufferAccessIsLittleEndian :
    (about b0 (.write 32 (0x10000 + 0x0ffc) 1)).schedule =
      .host (.write 32 (b0.config.base + 0x10000 + 0x0ffc) 1) :: [] ∧
    (about b0 (.read 16 (0x10000 + 30))).schedule = .host (.read 16 (b0.config.base + 0x10000 + 30)) :: [] ∧
    b0.busy = false ∧ 0x0ffc % (32 / 8) = 0 ∧ 0x0ffc + 32 / 8 ≤ b0.config.bufBytes ∧ b0.config.bufBytes ≤ 65536 ∧
    Memory.byte? b0.buffer (30 + 1) = some 31 := by decide +kernel

theorem witness_UnbackedWindowReadsZero :
    b0.busy = false ∧ 0x1000 % (32 / 8) = 0 ∧ b0.config.bufBytes ≤ 0x1000 ∧ 0x0FFFF < 0x10000 ∧
    (about b0 (.read 8 (0x10000 + 0x0FFFF))).schedule =
      .host (.read 8 (b0.config.base + 0x10000 + 0x0FFFF)) :: [] := by decide

theorem witness_HostReadsHaveNoSideEffect :
    (about (due b0 0x20) (.read 16 7)).schedule = .host (.read 16 7) :: [] := rfl

theorem witness_UnwrittenByteReadsDrawAfresh :
    (about b0 (.read 8 (0x10000 + 0x0fff))).schedule = .host (.read 8 (b0.config.base + 0x10000 + 0x0fff)) :: [] ∧
    b0.busy = false ∧ 0x0fff < b0.config.bufBytes ∧ b0.config.bufBytes ≤ 65536 ∧
    Memory.byte? b0.buffer 0x0fff = none := by decide +kernel

theorem witness_HardReset :
    ({ due b16 0x20 with schedule := [.hardReset] } : State).schedule = .hardReset :: [] := rfl

theorem witness_AssembledLinesDecode :
    assembleLine "enc16 0x0200, 0x0100".toList = .commands [.ldst 0x0100, .encblk, .stst 0x0200] ∧
    operandCount ['a', 'e', 's'] = none ∧ operandCount ['p', 'a', 'd'] = some 4 ∧
    (14 < 15 ∧ 15 < 256 ∧ 0xFFFF < 65536) ∧ 256 ≤ 256 := by decide +kernel

theorem witness_MnemonicsAssembleToTheirWords :
    (['m', 'i', 'x', 'c', 'o', 'l'], (0x24 : Byte)) ∈ [(['m', 'i', 'x', 'c', 'o', 'l'], (0x24 : Byte))] ∧
    (14 : Byte).toNat ≤ 14 ∧ (1 : Byte) ≠ 0 ∧ (255 : Byte) ≠ 0 ∧ ['p', 'a', 'd'] ≠ [] ∧
    (∀ c ∈ ['p', 'a', 'd'], isBlank c = false ∧ c ≠ ';') ∧ (∀ c ∈ ['n', 'o', 'p', ' '], c ≠ ';') := by
  refine ⟨by simp, by decide, by decide, by decide, by simp, ?_, ?_⟩ <;> simp [isBlank]

end Sys2Proof.Machine.Test
end

section
/-! PROOFS. What a step can do: whose turn it is, and how the core's step and a host access answer. -/

namespace Sys2Proof.Machine

/-! ## Whose turn it is -/

/-- With the core to move, a step is the core's turn (20_memory.md rule R62). -/
theorem step_of_coreHasTurn {s : State} {rest : List Turn} (h : CoreHasTurn s rest) :
    step s = coreTurn { s with schedule := rest } := by
  obtain h | ⟨h, rfl⟩ := h
  · simp only [step, h]
  · simp only [step, h]
    rw [← h]

theorem step_of_host {s : State} {a : Access} {rest : List Turn} (h : s.schedule = .host a :: rest) :
    step s = .next (hostAccess a { s with schedule := rest }) := by
  simp only [step, h]

theorem step_of_hardReset {s : State} {rest : List Turn} (h : s.schedule = .hardReset :: rest) :
    step s = .next (hardReset { s with schedule := rest }) := by
  simp only [step, h]

/-- Every schedule gives the turn to the core, to the host or to the reset input. -/
theorem turn_cases (s : State) :
    (∃ rest, CoreHasTurn s rest) ∨ (∃ a rest, s.schedule = .host a :: rest) ∨
      ∃ rest, s.schedule = .hardReset :: rest := by
  match h : s.schedule with
  | [] => exact .inl ⟨[], .inr ⟨h, rfl⟩⟩
  | .core :: rest => exact .inl ⟨rest, .inl h⟩
  | .host a :: rest => exact .inr (.inl ⟨a, rest, rfl⟩)
  | .hardReset :: rest => exact .inr (.inr ⟨rest, rfl⟩)

/-! ## The core's turn -/

theorem coreTurn_of_idle {s : State} (h : s.busy = false) : coreTurn s = .next s := by simp [coreTurn, h]

theorem coreTurn_of_busy {s : State} (h : s.busy = true) : coreTurn s = coreStep s := by simp [coreTurn, h]

theorem coreStep_of_command {s : State} {i : Instr} (h : decode s.pending = .command i) : coreStep s = exec i s := by
  simp only [coreStep, h]

theorem coreStep_of_illegal {s : State} {why : Illegal} (h : decode s.pending = .illegal why) :
    coreStep s = raise .illegalCommand s := by
  simp only [coreStep, h]

/-- The core's step ends with an error, having at most drawn free values, or has the effect of the pending command
(60_exceptions.md rules R158, R161). -/
theorem coreStep_cases (s : State) :
    (∃ e n, e ≠ .ok ∧ coreStep s = .next (complete e (drew s n))) ∨
      ∃ i, decode s.pending = .command i ∧ Passes i s ∧ coreStep s = .next (complete .ok (effectOf i s)) := by
  match h : decode s.pending with
  | .illegal why => exact .inl ⟨.illegalCommand, 0, by decide, coreStep_of_illegal h⟩
  | .command i =>
    rw [coreStep_of_command h]
    obtain herr | ⟨hpass, heff⟩ := exec_cases i s
    · exact .inl herr
    · exact .inr ⟨i, rfl, hpass, heff⟩

/-! ## What the checks of a command give -/

theorem Passes.srcInRange {i : Instr} {s : State} {a n : Nat} (h : Passes i s) (hr : srcRange i = some (a, n)) :
    s.InRange a n :=
  not_not.1 fun hn => h.range ⟨a, n, .inl hr, hn⟩

theorem Passes.dstInRange {i : Instr} {s : State} {a n : Nat} (h : Passes i s) (hr : dstRange i = some (a, n)) :
    s.InRange a n :=
  not_not.1 fun hn => h.range ⟨a, n, .inr hr, hn⟩

/-- KEYEXP passes only with a key of 16, 24 or 32 bytes (41_key_schedule.md rule R98). -/
theorem Passes.keyLength {s : State} {src len : Half} (h : Passes (.keyexp src len) s) :
    len.toNat = 16 ∨ len.toNat = 24 ∨ len.toNat = 32 := by
  by_contra hl
  simp only [not_or] at hl
  obtain ⟨h1, h2, h3⟩ := hl
  exact h.length ⟨_, .inl ⟨src, len, rfl, h1, h2, h3, rfl⟩⟩

/-- The mode commands pass only with a whole number of blocks (44_modes.md rule R138). -/
theorem Passes.modeLength {i : Instr} {s : State} {dst src len : Half} (h : Passes i s)
    (hi : i = .ecbenc dst src len ∨ i = .ecbdec dst src len ∨ i = .cbcenc dst src len ∨ i = .cbcdec dst src len) :
    len.toNat % 16 = 0 :=
  not_not.1 fun hl => h.length ⟨_, .inr (.inr ⟨dst, src, len, hi, hl, rfl⟩)⟩

/-! ## Host accesses -/

/-- A read in the register space returns the register and does nothing else (20_memory.md rule R59). -/
theorem hostRead_register {s : State} {width off : Nat} (hok : readAllowed s width off = true) (hoff : off < 0x10000) :
    hostRead s width off = { s with readData := readRegister s off } := by
  rw [hostRead, if_pos hok, if_pos hoff]

/-- A write in the register space does what the register map says. -/
theorem hostWrite_register {s : State} {width off : Nat} (hok : writeAllowed s width off = true)
    (hoff : off < 0x10000) (v : Reg32) : hostWrite s width off v = writeRegister s off v := by
  rw [hostWrite, if_pos hok, if_pos hoff]

theorem windowOffset_base_add {c : Config} {off : Nat} (h : off < 0x20000) :
    windowOffset c (c.base + off) = some off := by
  rw [windowOffset, if_pos (by omega), Nat.add_sub_cancel_left]

/-- A host read by platform address is the read at its offset in the window (20_memory.md rule R46). -/
theorem hostAccess_read {s : State} {off : Nat} (h : off < 0x20000) (width : Nat) :
    hostAccess (.read width (s.config.base + off)) s = hostRead s width off := by
  simp only [hostAccess, windowOffset_base_add h]

theorem hostAccess_write {s : State} {off : Nat} (h : off < 0x20000) (width : Nat) (v : Reg32) :
    hostAccess (.write width (s.config.base + off) v) s = hostWrite s width off v := by
  simp only [hostAccess, windowOffset_base_add h]

/-- With BUSY = 1 the one register a host can write is CTRL (20_memory.md rule R56). -/
theorem busy_eq_false_of_writeAllowed {s : State} {width off : Nat} (h : writeAllowed s width off = true)
    (hoff : off ≠ 0x01C) : s.busy = false := by
  by_contra hb
  rw [Bool.not_eq_false] at hb
  simp [writeAllowed, hb, busyWriteOk, hoff] at h

/-- What a host read can do: nothing, a violation, a register or unbacked read, or a buffer read with its draws. -/
theorem hostRead_cases (s : State) (width off : Nat) :
    (∃ n v, hostRead s width off = { drew s n with readData := v }) ∨
      hostRead s width off = { s with fault := true, readData := 0 } := by
  unfold hostRead
  split
  · split
    · exact .inl ⟨0, _, rfl⟩
    · split
      · exact .inl ⟨_, _, rfl⟩
      · exact .inl ⟨0, _, rfl⟩
  · exact .inr rfl

/-- What a host write can do: nothing, a violation, a buffer write inside the buffer, or an allowed register write. -/
theorem hostWrite_cases (s : State) (width off : Nat) (v : Reg32) :
    hostWrite s width off v = s ∨ hostWrite s width off v = { s with fault := true } ∨
      (∃ a l, s.InRange a l.length ∧ hostWrite s width off v = memWrite s a l) ∨
      (writeAllowed s width off = true ∧ hostWrite s width off v = writeRegister s off v) := by
  unfold hostWrite
  split
  next hok =>
    split
    · exact .inr (.inr (.inr ⟨hok, rfl⟩))
    · split
      next hr => exact .inr (.inr (.inl ⟨_, _, by simpa using hr, rfl⟩))
      · exact .inl rfl
  · exact .inr (.inl rfl)

/-- What an allowed register write can do (10_state.md rules R35, R36, R37, R41, R43). -/
theorem writeRegister_cases {s : State} {width off : Nat} (hok : writeAllowed s width off = true) (v : Reg32) :
    writeRegister s off v = s ∨ writeRegister s off v = { s with errSeen := false } ∨
      (s.busy = false ∧ writeRegister s off v = { s with cmdLo := v }) ∨
      (s.busy = false ∧ writeRegister s off v = issue s v) ∨ writeRegister s off v = softReset s := by
  unfold writeRegister
  split
  · split
    · exact .inr (.inl rfl)
    · exact .inl rfl
  · exact .inr (.inr (.inl ⟨busy_eq_false_of_writeAllowed hok (by decide), rfl⟩))
  · exact .inr (.inr (.inr (.inl ⟨busy_eq_false_of_writeAllowed hok (by decide), rfl⟩)))
  · split
    · exact .inr (.inr (.inr (.inr rfl)))
    · exact .inl rfl
  · exact .inl rfl

end Sys2Proof.Machine
end

section
/-! PROOFS. The invariant: it holds at reset, every update of the state keeps it, and so does every step. -/

namespace Sys2Proof.Machine

/-! ## The updates that the invariant does not see -/

namespace Inv

variable {s : State}

theorem withSchedule (h : Inv s) (l : List Turn) : Inv { s with schedule := l } :=
  { h with keyStatus := { h.keyStatus with } }

theorem withBlock (h : Inv s) (b : Block) : Inv { s with block := b } :=
  { h with keyStatus := { h.keyStatus with } }

theorem withChain (h : Inv s) (b : Block) : Inv { s with chain := b } :=
  { h with keyStatus := { h.keyStatus with } }

theorem withResult (h : Inv s) (r : Byte) : Inv { s with result := r } :=
  { h with keyStatus := { h.keyStatus with } }

theorem withReadData (h : Inv s) (v : Reg32) : Inv { s with readData := v } :=
  { h with keyStatus := { h.keyStatus with } }

theorem withFault (h : Inv s) (b : Bool) : Inv { s with fault := b } :=
  { h with keyStatus := { h.keyStatus with } }

theorem withErrSeen (h : Inv s) (b : Bool) : Inv { s with errSeen := b } :=
  { h with keyStatus := { h.keyStatus with } }

theorem drew (h : Inv s) (n : Nat) : Inv (drew s n) :=
  { h with keyStatus := { h.keyStatus with } }

/-! ## The updates of its clauses -/

theorem complete (h : Inv s) (e : ErrCode) : Inv (complete e s) :=
  { h with keyStatus := { h.keyStatus with }, latched := by simp }

theorem withOutlen (h : Inv s) {n : Nat} (hn : n ≤ s.config.bufBytes) :
    Inv { s with outlen := BitVec.ofNat 17 n } :=
  { h with
    keyStatus := { h.keyStatus with }
    outlenInBuffer := Nat.le_trans (BitVec.toNat_ofNat n 17 ▸ Nat.mod_le _ _) hn }

theorem withCmdLo (h : Inv s) (hb : s.busy = false) (v : Reg32) : Inv { s with cmdLo := v } :=
  { h with keyStatus := { h.keyStatus with }, latched := by simp [hb] }

/-- Issuing latches PENDING from CMD_HI and CMD_LO (rule R31). -/
theorem issue (h : Inv s) (v : Reg32) : Inv (issue s v) :=
  { h with keyStatus := { h.keyStatus with }, latched := fun _ => rfl }

theorem memWrite (h : Inv s) {a : Nat} {l : List Byte} (hr : s.InRange a l.length) : Inv (memWrite s a l) :=
  { h with
    canonical := wf_storeBytes h.canonical a l
    inBuffer := within_storeBytes l h.inBuffer hr
    keyStatus := { h.keyStatus with } }

/-- After KEYEXP, W starts with the expansion of the key, and the key status says so (rule R24). -/
theorem loadKey (h : Inv s) {k : List Byte} (hk : k.length = 16 ∨ k.length = 24 ∨ k.length = 32) :
    Inv (loadKey s k) := by
  have hw := h.wordCount
  refine { h with wordCount := ?_, keyStatus := ⟨by simp, fun _ => ⟨k, hk, ?_⟩⟩ }
  · simp only [loadKey_w, List.length_append, List.length_drop, length_keyExpansion]
    omega
  · have htake (n : Nat) (hn : n = (keyExpansion k).length) :
        (keyExpansion k ++ s.w.drop (keyExpansion k).length).take n = keyExpansion k := hn ▸ List.take_left
    simp only [loadKey_key, loadKey_w]
    obtain hk | hk | hk := hk <;> refine ⟨?_, ?_, ?_, htake _ ?_⟩ <;> simp [hk]

end Inv

/-! ## Reset -/

/-- Settles O10: each row of the table is the field's value in `State.resetOf`. -/
theorem resetHoldsTheTable : Obligations.ResetHoldsTheTable := by
  intro c
  exact ⟨rfl, rfl, rfl, rfl, rfl, fun k hk => ⟨blockByte_zero k hk, blockByte_zero k hk⟩, rfl, rfl, rfl, rfl, rfl,
    byte?_nil⟩

theorem keyStatusOk_of_none {s : State} (h : s.key = KeyStatus.none) : KeyStatusOk s where
  withoutKey _ := by rw [h]; exact ⟨rfl, rfl, rfl⟩
  withKey hk := by rw [h] at hk; cases hk

theorem inv_resetOf {c : Config} (h : c.Legal) : Inv (State.resetOf c) where
  config := h
  canonical := wf_nil
  inBuffer := by simp
  wordCount := length_resetW
  keyStatus := keyStatusOk_of_none rfl
  latched := by simp
  outlenInBuffer := by simp

/-- Settles O11: there is no key and no written byte at reset. -/
theorem resetMeetsInv : Obligations.ResetMeetsInv := fun _ h => inv_resetOf h

namespace Inv

variable {s : State}

theorem hardReset (h : Inv s) : Inv (hardReset s) :=
  { inv_resetOf h.config with keyStatus := keyStatusOk_of_none rfl }

theorem softReset (h : Inv s) : Inv (softReset s) :=
  { inv_resetOf h.config with
    canonical := wf_abortedBuffer h.canonical
    inBuffer := within_abortedBuffer h.inBuffer
    wordCount := h.wordCount
    keyStatus := keyStatusOk_of_none rfl }

end Inv

/-! ## The commands -/

/-- The stripped length UNPAD reports is at most the length it was given (45_padding.md rule R144). -/
theorem unpadCheck_getD_le (d : List Byte) (bs : Byte) : (unpadCheck d bs).getD 0 ≤ d.length := by
  unfold unpadCheck
  split
  · exact Nat.zero_le _
  · split
    · exact Nat.sub_le _ _
    · exact Nat.zero_le _

namespace Inv

variable {s : State}

/-- The output of a mode command has the length of its destination range, so it stays in the buffer. -/
theorem modeOutput (h : Inv s) {i : Instr} {dst src len : Half} (hp : Passes i s)
    (hi : i = .ecbenc dst src len ∨ i = .ecbdec dst src len ∨ i = .cbcenc dst src len ∨ i = .cbcdec dst src len)
    {out : List Block} (ho : out.length = len.toNat / 16) : Inv (modeOutput dst len s out) := by
  have hlen := hp.modeLength hi
  have hdst : s.InRange dst.toNat len.toNat := hp.dstInRange (by obtain rfl | rfl | rfl | rfl := hi <;> rfl)
  refine (h.drew len.toNat).memWrite ?_
  rw [length_bytesOfBlocks, ho, Nat.mul_div_cancel' (Nat.dvd_of_mod_eq_zero hlen)]
  exact hdst

theorem effectOf (h : Inv s) {i : Instr} (hp : Passes i s) : Inv (effectOf i s) := by
  cases i with
  | nop => exact h
  | keyexp src len => exact (h.drew _).loadKey (by simpa using hp.keyLength)
  | strk dst r => exact h.memWrite (hp.dstInRange rfl)
  | stst dst => exact h.memWrite (hp.dstInRange rfl)
  | stiv dst => exact h.memWrite (hp.dstInRange rfl)
  | ldst src => exact (h.drew _).withBlock _
  | ldiv src len => exact (h.drew _).withChain _
  | subb => exact h.withBlock _
  | invsubb => exact h.withBlock _
  | shrow => exact h.withBlock _
  | invshrow => exact h.withBlock _
  | mixcol => exact h.withBlock _
  | invmixcol => exact h.withBlock _
  | ark r => exact h.withBlock _
  | encblk => exact h.withBlock _
  | decblk => exact h.withBlock _
  | ecbenc dst src len => exact h.modeOutput (src := src) hp (by simp) (by simp [ecbE])
  | ecbdec dst src len => exact h.modeOutput (src := src) hp (by simp) (by simp [ecbD])
  | cbcenc dst src len => exact (h.modeOutput (src := src) hp (by simp) (by simp)).withChain _
  | cbcdec dst src len => exact (h.modeOutput (src := src) hp (by simp) (by simp)).withChain _
  | pad dst src len bs =>
    have hdst := hp.dstInRange rfl
    exact ((h.drew _).memWrite (by simpa using hdst)).withOutlen (Nat.le_trans (Nat.le_add_left _ _) hdst)
  | unpad src len bs =>
    have hsrc := hp.srcInRange rfl
    have hle := unpadCheck_getD_le (memRead s src.toNat len.toNat) bs
    rw [length_memRead] at hle
    exact (h.drew _).withOutlen (Nat.le_trans hle (Nat.le_trans (Nat.le_add_left _ _) hsrc))
  | gfmul a b => exact h.withResult _
  | sbox a => exact h.withResult _
  | invsbox a => exact h.withResult _

/-! ## The turns -/

theorem coreTurn {t : State} (h : Inv s) (hs : coreTurn s = .next t) : Inv t := by
  cases hb : s.busy with
  | false =>
    rw [coreTurn_of_idle hb] at hs
    cases hs
    exact h
  | true =>
    rw [coreTurn_of_busy hb] at hs
    obtain ⟨e, n, -, hr⟩ | ⟨i, -, hp, hr⟩ := coreStep_cases s
    · cases hr.symm.trans hs
      exact (h.drew n).complete e
    · cases hr.symm.trans hs
      exact (h.effectOf hp).complete .ok

theorem writeRegister (h : Inv s) {width off : Nat} (hok : writeAllowed s width off = true) (v : Reg32) :
    Inv (writeRegister s off v) := by
  obtain hw | hw | ⟨hb, hw⟩ | ⟨-, hw⟩ | hw := writeRegister_cases hok v <;> rw [hw]
  · exact h
  · exact h.withErrSeen false
  · exact h.withCmdLo hb v
  · exact h.issue v
  · exact h.softReset

theorem hostRead (h : Inv s) (width off : Nat) : Inv (hostRead s width off) := by
  obtain ⟨n, v, hr⟩ | hr := hostRead_cases s width off <;> rw [hr]
  · exact (h.drew n).withReadData v
  · exact (h.withFault true).withReadData 0

theorem hostWrite (h : Inv s) (width off : Nat) (v : Reg32) : Inv (hostWrite s width off v) := by
  obtain hw | hw | ⟨a, l, hr, hw⟩ | ⟨hok, hw⟩ := hostWrite_cases s width off v <;> rw [hw]
  · exact h
  · exact h.withFault true
  · exact h.memWrite hr
  · exact h.writeRegister hok v

theorem hostAccess (h : Inv s) (a : Access) : Inv (hostAccess a s) := by
  cases a with
  | read width addr =>
    simp only [Machine.hostAccess]
    split
    · exact h.hostRead _ _
    · exact h
  | write width addr v =>
    simp only [Machine.hostAccess]
    split
    · exact h.hostWrite _ _ v
    · exact h

end Inv

/-- Settles O12: the turn that is due is the core's, a host access or a hard reset, and each keeps the invariant. -/
theorem stepKeepsInv : Obligations.StepKeepsInv := by
  intro s t h hs
  obtain ⟨rest, ht⟩ | ⟨a, rest, ht⟩ | ⟨rest, ht⟩ := turn_cases s
  · rw [step_of_coreHasTurn ht] at hs
    exact (h.withSchedule rest).coreTurn hs
  · rw [step_of_host ht] at hs
    cases hs
    exact (h.withSchedule rest).hostAccess a
  · rw [step_of_hardReset ht] at hs
    cases hs
    exact (h.withSchedule rest).hardReset

end Sys2Proof.Machine
end

section
/-! PROOFS. The due turn, and the register map as the host reads and writes it. -/

namespace Sys2Proof.Machine

/-! ## The due turn -/

theorem command_of_decodeTableWord {nbits w : Nat} {i : Instr} (h : decodeTableWord nbits w = some i) :
    decode (BitVec.ofNat 64 (w % 2 ^ nbits)) = .command i := by
  unfold decodeTableWord at h
  cases hd : decode (BitVec.ofNat 64 (w % 2 ^ nbits)) with
  | command j => rw [hd] at h; cases h; rfl
  | illegal why => rw [hd] at h; cases h

theorem step_of_busy_command {s : State} {rest : List Turn} {i : Instr} (hb : s.busy = true)
    (ht : CoreHasTurn s rest) (hd : decode s.pending = .command i) : step s = exec i { s with schedule := rest } := by
  rw [step_of_coreHasTurn ht, coreTurn_of_busy (s := { s with schedule := rest }) hb,
    coreStep_of_command (s := { s with schedule := rest }) hd]

/-- Settles O6: the clauses are the turns of `step`, and `withFetchWord` leaves the core's turn on the given word. -/
theorem stepRunsTheDueTurn : Obligations.StepRunsTheDueTurn := by
  refine ⟨fun s rest i hb ht hd => step_of_busy_command hb ht hd, fun s rest hb ht => ?_,
    fun s rest a ht => step_of_host ht, fun s rest ht => step_of_hardReset ht, fun s nbits w i hw => ?_⟩
  · rw [step_of_coreHasTurn ht, coreTurn_of_idle (s := { s with schedule := rest }) hb]
  · exact ⟨{ s.withFetchWord nbits w with schedule := s.schedule },
      step_of_busy_command (rest := s.schedule) rfl (.inl rfl) (command_of_decodeTableWord hw), rfl, rfl⟩

/-! ## Reads of registers -/

/-- An unassigned offset past BUFSIZE reads 0 (rule R43). -/
theorem readRegister_unassigned (s : State) {off : Nat} (h : 0x024 ≤ off) : readRegister s off = 0 := by
  obtain ⟨k, rfl⟩ := Nat.exists_eq_add_of_le' h
  rfl

theorem shapeOk_register {off : Nat} (hoff : off < 0x10000) (hal : off % 4 = 0) : shapeOk 32 off = true := by
  simp [shapeOk, hoff, hal]

/-- The register reads that are allowed: any aligned one with BUSY = 0, and ID, STATUS and BUFSIZE at any time. -/
theorem readAllowed_register {s : State} {off : Nat}
    (h : (s.busy = false ∧ off < 0x10000 ∧ off % 4 = 0) ∨ off = 0x000 ∨ off = 0x004 ∨ off = 0x020) :
    readAllowed s 32 off = true ∧ off < 0x10000 := by
  obtain ⟨hb, hoff, hal⟩ | h := h
  · exact ⟨by simp [readAllowed, hb, shapeOk_register hoff hal], hoff⟩
  · refine ⟨?_, by omega⟩
    have hshape : shapeOk 32 off = true := shapeOk_register (by omega) (by omega)
    cases hb : s.busy <;> simp [readAllowed, hb, hshape, busyReadOk, or_assoc, h]

theorem eq_setWidth_of_toNat_eq {n : Nat} {v : Reg32} {x : BitVec n} (h : v.toNat = x.toNat) : v = x.setWidth 32 := by
  apply BitVec.eq_of_toNat_eq
  rw [BitVec.toNat_setWidth, ← h, Nat.mod_eq_of_lt v.isLt]

/-- Settles O50: the access is allowed, and what it returns is the register at its offset. -/
theorem registerReads : Obligations.RegisterReads := by
  intro s rest off v ht hacc hval
  obtain ⟨hok, hoff⟩ := readAllowed_register hacc
  have hread : step s = .next { s with schedule := rest, readData := readRegister s off } := by
    rw [step_of_host ht]
    congr 1
    exact (hostAccess_read (s := { s with schedule := rest }) (by omega) 32).trans (hostRead_register hok hoff)
  have hv : v = readRegister s off := by
    obtain ⟨rfl, rfl⟩ | ⟨rfl, rfl⟩ | ⟨rfl, rfl⟩ | ⟨rfl, rfl⟩ | ⟨rfl, h⟩ | ⟨rfl, h⟩ | ⟨rfl, rfl⟩ | ⟨rfl, rfl⟩ |
      ⟨rfl | h, rfl⟩ := hval
    · rfl
    · rfl
    · rfl
    · rfl
    · exact eq_setWidth_of_toNat_eq h
    · exact eq_setWidth_of_toNat_eq h
    · rfl
    · rfl
    · rfl
    · exact (readRegister_unassigned s h).symm
  rw [hread, hv]

/-! ## Writes of registers -/

/-- An allowed 32-bit write in the register space does what the register map says. -/
theorem step_of_registerWrite {s : State} {rest : List Turn} {off : Nat} {v : Reg32}
    (ht : s.schedule = .host (.write 32 (s.config.base + off) v) :: rest)
    (hok : writeAllowed s 32 off = true) (hoff : off < 0x10000) :
    step s = .next (writeRegister { s with schedule := rest } off v) := by
  rw [step_of_host ht]
  congr 1
  exact (hostAccess_write (s := { s with schedule := rest }) (by omega) 32 v).trans
    (hostWrite_register (s := { s with schedule := rest }) hok hoff v)

theorem writeAllowed_of_idle {s : State} {off : Nat} (hb : s.busy = false) (hoff : off < 0x10000) (hal : off % 4 = 0) :
    writeAllowed s 32 off = true := by
  simp [writeAllowed, hb, shapeOk_register hoff hal]

/-- CTRL can be written at any time (20_memory.md rule R56). -/
theorem writeAllowed_ctrl (s : State) : writeAllowed s 32 0x01C = true := by
  cases hb : s.busy <;> simp [writeAllowed, hb, busyWriteOk, shapeOk]

/-- STATUS bit 16 clears ERRSEEN, and no other bit does anything (rule R35). -/
theorem writeRegister_status (s : State) (v : Reg32) :
    writeRegister s 0x004 v = { s with errSeen := s.errSeen && !v.getLsbD 16 } := by
  simp only [writeRegister]
  cases v.getLsbD 16 <;> simp

theorem writeRegister_ctrl {s : State} {v : Reg32} (h : v.getLsbD 0 = false) : writeRegister s 0x01C v = s := by
  simp only [writeRegister, h, Bool.false_eq_true, if_false]

/-- A write of a read-only register or of an unassigned offset is ignored (rules R34, R43). -/
theorem writeRegister_ignored (s : State) {off : Nat} (v : Reg32)
    (h : off = 0x000 ∨ off = 0x010 ∨ off = 0x014 ∨ off = 0x018 ∨ 0x020 ≤ off) : writeRegister s off v = s := by
  obtain rfl | rfl | rfl | rfl | h := h
  · rfl
  · rfl
  · rfl
  · rfl
  · obtain ⟨k, rfl⟩ := Nat.exists_eq_add_of_le' h
    rfl

/-- Settles O52: each write is allowed and is the register map's row. -/
theorem registerWrites : Obligations.RegisterWrites := by
  constructor
  · intro s rest v ht hv
    rw [step_of_registerWrite ht (writeAllowed_ctrl s) (by decide), writeRegister_ctrl hv]
  · intro s rest off v ht hb hoff hal
    rw [step_of_registerWrite ht (writeAllowed_of_idle hb hoff hal) hoff]
    refine ⟨?_, ?_, ?_, fun h => ?_⟩
    · rintro rfl
      rw [writeRegister_status]
    · rintro rfl
      rfl
    · rintro rfl
      rfl
    · rw [writeRegister_ignored _ v h]

/-! ## The fields of STATUS and KEYCFG -/

theorem getLsbD_statusWord (s : State) (i : Nat) : (statusWord s).getLsbD i =
    (if i = 0 then s.busy else if i = 1 then s.key.kv
      else if 8 ≤ i ∧ i < 12 then (errBits s.err).getLsbD (i - 8)
      else if i = 16 then s.errSeen else if i = 17 then s.fault else false) := by
  unfold statusWord
  grind

theorem getLsbD_keycfgWord (s : State) (i : Nat) : (keycfgWord s).getLsbD i =
    (if i < 6 then s.key.keyLen.getLsbD i else if 8 ≤ i ∧ i < 12 then s.key.nk.getLsbD (i - 8)
      else if 16 ≤ i ∧ i < 20 then s.key.nr.getLsbD (i - 16) else false) := by
  unfold keycfgWord
  grind

/-- A command that ends with ERR = 0 has passed its checks and had its effect. -/
theorem effect_of_ok {i : Instr} {s t : State} (h : exec i s = .next t) (hok : t.err = .ok) :
    Passes i s ∧ t = complete .ok (effectOf i s) := by
  obtain ⟨e, n, he, hr⟩ | ⟨hp, hr⟩ := exec_cases i s
  · cases hr.symm.trans h
    exact absurd hok he
  · cases hr.symm.trans h
    exact ⟨hp, rfl⟩

/-- Settles O51: the words are concatenations of their fields, and KEYEXP completes with one of three lengths. -/
theorem statusAndKeycfgFields : Obligations.StatusAndKeycfgFields := by
  refine ⟨fun s => ⟨fun i _ => getLsbD_statusWord s i, fun i _ => getLsbD_keycfgWord s i,
    ⟨rfl, rfl, rfl, rfl, rfl, rfl, rfl⟩⟩, fun s t src len h hok => ?_⟩
  obtain ⟨hp, rfl⟩ := effect_of_ok h hok
  obtain hl | hl | hl := hp.keyLength
  · exact .inl ⟨hl, by simp [keycfgWord, effectOf, hl]⟩
  · exact .inr (.inl ⟨hl, by simp [keycfgWord, effectOf, hl]⟩)
  · exact .inr (.inr ⟨hl, by simp [keycfgWord, effectOf, hl]⟩)

end Sys2Proof.Machine
end

section
/-! PROOFS. Which commands write which register, by the effect of each command. -/

namespace Sys2Proof.Machine

/-! ## The registers an effect changes -/

variable {i : Instr} {s t : State}

/-- A register that neither an error nor the completion step writes changes only by the command's effect. -/
theorem effectOf_ne_of_exec_ne {α : Type} (f : State → α) (hcomplete : ∀ e u, f (complete e u) = f u)
    (hdrew : ∀ n u, f (drew u n) = f u) (h : exec i s = .next t) (hne : f t ≠ f s) : f (effectOf i s) ≠ f s := by
  obtain ⟨e, n, -, hr⟩ | ⟨-, hr⟩ := exec_cases i s
  · cases hr.symm.trans h
    exact absurd ((hcomplete e _).trans (hdrew n s)) hne
  · cases hr.symm.trans h
    rwa [hcomplete] at hne

/-- The commands that write STATE (10_state.md rule R21). -/
theorem command_of_effectOf_block_ne (h : (effectOf i s).block ≠ s.block) :
    (∃ src, i = .ldst src) ∨ i = .subb ∨ i = .invsubb ∨ i = .shrow ∨ i = .invshrow ∨
      i = .mixcol ∨ i = .invmixcol ∨ (∃ r, i = .ark r) ∨ i = .encblk ∨ i = .decblk := by
  cases i <;> simp [effectOf] at h ⊢

/-- The commands that write CHAIN (rule R22). -/
theorem command_of_effectOf_chain_ne (h : (effectOf i s).chain ≠ s.chain) :
    (∃ src len, i = .ldiv src len) ∨ (∃ dst src len, i = .cbcenc dst src len) ∨
      (∃ dst src len, i = .cbcdec dst src len) := by
  cases i <;> simp [effectOf] at h ⊢

/-- The one command that writes W and the key status (rules R23, R24). -/
theorem command_of_effectOf_key_ne (h : ((effectOf i s).w, (effectOf i s).key) ≠ (s.w, s.key)) :
    ∃ src len, i = .keyexp src len := by
  cases i <;> simp [effectOf] at h ⊢

/-- The commands that write OUTLEN (rule R25). -/
theorem command_of_effectOf_outlen_ne (h : (effectOf i s).outlen ≠ s.outlen) :
    (∃ dst src len bs, i = .pad dst src len bs) ∨ (∃ src len bs, i = .unpad src len bs) := by
  cases i <;> simp [effectOf] at h ⊢

/-- The commands that write RESULT (rule R26). -/
theorem command_of_effectOf_result_ne (h : (effectOf i s).result ≠ s.result) :
    (∃ a b, i = .gfmul a b) ∨ (∃ a, i = .sbox a) ∨ (∃ a, i = .invsbox a) := by
  cases i <;> simp [effectOf] at h ⊢

/-- W and the key status change only by KEYEXP. -/
theorem command_of_exec_key_ne (h : exec i s = .next t) (hne : (t.w, t.key) ≠ (s.w, s.key)) :
    ∃ src len, i = .keyexp src len :=
  command_of_effectOf_key_ne
    (effectOf_ne_of_exec_ne (fun u => (u.w, u.key)) (fun _ _ => rfl) (fun _ _ => rfl) h hne)

/-- Settles O16: each list is that of the commands whose effect changes the register. -/
theorem onlyListedCommandsWriteEachRegister : Obligations.OnlyListedCommandsWriteEachRegister := by
  intro i s t h
  have effect {α : Type} (f : State → α) (hcomplete : ∀ e u, f (complete e u) = f u)
      (hdrew : ∀ n u, f (drew u n) = f u) (hne : f t ≠ f s) : f (effectOf i s) ≠ f s :=
    effectOf_ne_of_exec_ne f hcomplete hdrew h hne
  refine ⟨fun hne => ?_, fun hne => ?_, fun hne => ?_, fun hne => ?_, fun hne => ?_⟩
  · exact command_of_effectOf_block_ne (effect State.block (fun _ _ => rfl) (fun _ _ => rfl) hne)
  · exact command_of_effectOf_chain_ne (effect State.chain (fun _ _ => rfl) (fun _ _ => rfl) hne)
  · exact command_of_exec_key_ne h (by simpa [Prod.ext_iff, or_iff_not_imp_left] using hne)
  · exact command_of_effectOf_outlen_ne (effect State.outlen (fun _ _ => rfl) (fun _ _ => rfl) hne)
  · exact command_of_effectOf_result_ne (effect State.result (fun _ _ => rfl) (fun _ _ => rfl) hne)

end Sys2Proof.Machine
end

section
/-! PROOFS. The words of W that no command can read stay unobservable. A command reads W by round keys of index at most
NR, so it answers alike from two states that agree on those words. -/

namespace Sys2Proof.Machine

/-! ## Ciphers that agree on the round keys -/

section RoundKeys

variable {w w' : List Quad} {nr : Nat}

/-- The round keys 0 .. n are the first 4·(n+1) words. -/
theorem roundKey_eq_of_take_eq (h : w'.take (4 * (nr + 1)) = w.take (4 * (nr + 1))) {r : Nat} (hr : r ≤ nr) :
    roundKey w' r = roundKey w r := by
  have hget (j : Nat) (hj : j < 4) : w'.getD (4 * r + j) Quad.zero = w.getD (4 * r + j) Quad.zero := by
    have hlt : 4 * r + j < 4 * (nr + 1) := by omega
    rw [List.getD_eq_getElem?_getD, List.getD_eq_getElem?_getD, ← List.getElem?_take_of_lt hlt, h,
      List.getElem?_take_of_lt hlt]
  have h0 : w'.getD (4 * r) Quad.zero = w.getD (4 * r) Quad.zero := hget 0 (by decide)
  simp only [roundKey, h0, hget 1 (by decide), hget 2 (by decide), hget 3 (by decide)]

variable (hk : ∀ r, r ≤ nr → roundKey w' r = roundKey w r)
include hk

theorem cipherRounds_congr (n r : Nat) (hr : r + n ≤ nr + 1) (b : Block) :
    cipherRounds w' r n b = cipherRounds w r n b := by
  induction n generalizing r b with
  | zero => rfl
  | succ n ih =>
    rw [cipherRounds, cipherRounds, ih (r + 1) (by omega), addRoundKey, addRoundKey, hk r (by omega)]

theorem cipher_congr : cipher w' nr = cipher w nr := by
  funext b
  simp only [cipher, addRoundKey]
  rw [hk 0 (Nat.zero_le _), hk nr (Nat.le_refl _), cipherRounds_congr hk _ _ (by omega)]

theorem invCipherRounds_congr (r : Nat) (hr : r ≤ nr) (b : Block) :
    invCipherRounds w' r b = invCipherRounds w r b := by
  induction r generalizing b with
  | zero => rfl
  | succ r ih =>
    rw [invCipherRounds, invCipherRounds, ih (by omega), addRoundKey, addRoundKey, hk (r + 1) hr]

theorem invCipher_congr : invCipher w' nr = invCipher w nr := by
  funext b
  simp only [invCipher, addRoundKey]
  rw [hk 0 (Nat.zero_le _), hk nr (Nat.le_refl _), invCipherRounds_congr hk _ (Nat.sub_le _ _)]

theorem cbcE_congr (iv : Block) (p : List Block) : cbcE w' nr iv p = cbcE w nr iv p := by
  induction p generalizing iv with
  | nil => rfl
  | cons b p ih => simp only [cbcE, cipher_congr hk, ih]

theorem cbcD_congr (iv : Block) (c : List Block) : cbcD w' nr iv c = cbcD w nr iv c := by
  induction c generalizing iv with
  | nil => rfl
  | cons b c ih => simp only [cbcD, invCipher_congr hk, ih]

end RoundKeys

/-! ## The commands -/

/-- The outcome with another W. -/
def outcomeWithW (w : List Quad) (o : Outcome) : Outcome :=
  match o with
  | .next s => .next { s with w := w }
  | .fault r => .fault r
  | .refused r => .refused r

/-- The states whose W is replaced by one with the same readable round keys. -/
def SameRoundKeys (s : State) (w : List Quad) : Prop :=
  s.key.kv = true → ∀ r, r ≤ s.key.nr.toNat → roundKey w r = roundKey s.w r

theorem memWrite_withW (s : State) (w : List Quad) (a : Nat) (l : List Byte) :
    memWrite { s with w := w } a l = { memWrite s a l with w := w } := rfl

section WithW

variable {s : State} {w : List Quad}

theorem execStrk_withW (h : SameRoundKeys s w) (dst : Half) (r : Byte) :
    execStrk dst r { s with w := w } = outcomeWithW w (execStrk dst r s) := by
  simp only [execStrk, apply_ite (outcomeWithW w), memWrite_withW]
  refine ite_congr rfl (fun _ => rfl) fun hkv => ite_congr rfl (fun _ => rfl) fun hr => ?_
  rw [h (Bool.not_eq_false _ ▸ hkv) _ (Nat.not_lt.1 hr)]
  rfl

theorem execArk_withW (h : SameRoundKeys s w) (r : Byte) :
    execArk r { s with w := w } = outcomeWithW w (execArk r s) := by
  simp only [execArk, addRoundKey, apply_ite (outcomeWithW w)]
  refine ite_congr rfl (fun _ => rfl) fun hkv => ite_congr rfl (fun _ => rfl) fun hr => ?_
  rw [h (Bool.not_eq_false _ ▸ hkv) _ (Nat.not_lt.1 hr)]
  rfl

theorem execEncblk_withW (h : SameRoundKeys s w) : execEncblk { s with w := w } = outcomeWithW w (execEncblk s) := by
  simp only [execEncblk, apply_ite (outcomeWithW w)]
  refine ite_congr rfl (fun _ => rfl) fun hkv => ?_
  rw [cipher_congr (h (Bool.not_eq_false _ ▸ hkv))]
  rfl

theorem execDecblk_withW (h : SameRoundKeys s w) : execDecblk { s with w := w } = outcomeWithW w (execDecblk s) := by
  simp only [execDecblk, apply_ite (outcomeWithW w)]
  refine ite_congr rfl (fun _ => rfl) fun hkv => ?_
  rw [invCipher_congr (h (Bool.not_eq_false _ ▸ hkv))]
  rfl

/-- The checks of the mode commands do not see W, so only the effects have to agree, and only under a key. -/
theorem modeChecks_withW {dst src len : Half} {effect effect' : Outcome}
    (h : s.key.kv = true → effect' = outcomeWithW w effect) :
    modeChecks dst src len { s with w := w } effect' = outcomeWithW w (modeChecks dst src len s effect) := by
  simp only [modeChecks, apply_ite (outcomeWithW w)]
  exact ite_congr rfl (fun _ => rfl) fun hkv => ite_congr rfl (fun _ => rfl) fun _ => ite_congr rfl (fun _ => rfl)
    fun _ => ite_congr rfl (fun _ => rfl) fun _ => h (Bool.not_eq_false _ ▸ hkv)

/-- A command but KEYEXP answers alike whatever the other words of W are, and leaves them. -/
theorem exec_withW {i : Instr} (hi : ∀ src len, i ≠ .keyexp src len) (h : SameRoundKeys s w) :
    exec i { s with w := w } = outcomeWithW w (exec i s) := by
  cases i with
  | nop => rfl
  | keyexp src len => exact absurd rfl (hi src len)
  | strk dst r => exact execStrk_withW h dst r
  | ldst src =>
    simp only [exec, execLdst, apply_ite (outcomeWithW w)]
    rfl
  | stst dst =>
    simp only [exec, execStst, apply_ite (outcomeWithW w), memWrite_withW]
    rfl
  | ldiv src len =>
    simp only [exec, execLdiv, apply_ite (outcomeWithW w)]
    rfl
  | stiv dst =>
    simp only [exec, execStiv, apply_ite (outcomeWithW w), memWrite_withW]
    rfl
  | subb => rfl
  | invsubb => rfl
  | shrow => rfl
  | invshrow => rfl
  | mixcol => rfl
  | invmixcol => rfl
  | ark r => exact execArk_withW h r
  | encblk => exact execEncblk_withW h
  | decblk => exact execDecblk_withW h
  | ecbenc dst src len =>
    refine modeChecks_withW fun hkv => ?_
    rw [ecbE, cipher_congr (h hkv)]
    rfl
  | ecbdec dst src len =>
    refine modeChecks_withW fun hkv => ?_
    rw [ecbD, invCipher_congr (h hkv)]
    rfl
  | cbcenc dst src len =>
    refine modeChecks_withW fun hkv => ?_
    rw [cbcE_congr (h hkv)]
    rfl
  | cbcdec dst src len =>
    refine modeChecks_withW fun hkv => ?_
    rw [cbcD_congr (h hkv)]
    rfl
  | pad dst src len bs =>
    simp only [exec, execPad, apply_ite (outcomeWithW w)]
    rfl
  | unpad src len bs =>
    simp only [exec, execUnpad, apply_ite (outcomeWithW w)]
    refine ite_congr rfl (fun _ => rfl) fun _ => ?_
    have hread : memRead { s with w := w } src.toNat len.toNat = memRead s src.toNat len.toNat := rfl
    rw [hread]
    cases unpadCheck (memRead s src.toNat len.toNat) bs <;> rfl
  | gfmul a b => rfl
  | sbox a => rfl
  | invsbox a => rfl

end WithW

/-! ## Two runs -/

theorem SameButStaleW.refl (s : State) : SameButStaleW s s := ⟨rfl, rfl, rfl⟩

section TwoRuns

variable {s t : State}

/-- What does not depend on W is the same in both states. -/
theorem SameButStaleW.congr (h : SameButStaleW s t) {α : Type} (f : State → α)
    (hf : ∀ w, f { s with w := w } = f s) : f t = f s :=
  (congrArg f h.1).trans (hf t.w)

/-- Two states that differ only in unreadable words have the same round keys to read. -/
theorem SameButStaleW.sameRoundKeys (h : SameButStaleW s t) : SameRoundKeys s t.w := by
  obtain ⟨heq, -, hreach⟩ := h
  intro hkv r hr
  rw [heq] at hreach
  simp only [reachableW, hkv, if_true] at hreach
  exact roundKey_eq_of_take_eq hreach hr

/-- An update that keeps W keeps the two states alike if it keeps the key status, or leaves no key. -/
theorem SameButStaleW.update (h : SameButStaleW s t) {u : State} (hw : u.w = s.w)
    (hk : u.key = s.key ∨ u.key = KeyStatus.none) : SameButStaleW u { u with w := t.w } := by
  obtain ⟨heq, hlen, hreach⟩ := h
  refine ⟨rfl, hw ▸ hlen, ?_⟩
  rw [heq] at hreach
  obtain hk | hk := hk
  · simpa only [reachableW, hw, hk] using hreach
  · simp only [reachableW, hk, KeyStatus.none, Bool.false_eq_true, if_false]

theorem SameButStaleW.withSchedule (h : SameButStaleW s t) (rest : List Turn) :
    SameButStaleW { s with schedule := rest } { t with schedule := rest } := by
  obtain ⟨heq, hlen, hreach⟩ := h
  exact ⟨congrArg (fun u : State => { u with schedule := rest }) heq, hlen, hreach⟩

theorem SameButStaleW.complete (h : SameButStaleW s t) (e : ErrCode) :
    SameButStaleW (complete e s) (complete e t) := by
  obtain ⟨heq, hlen, hreach⟩ := h
  exact ⟨congrArg (Machine.complete e) heq, hlen, hreach⟩

/-- Two choices by the same condition are related if their branches are. -/
theorem rel_ite {α : Type} (R : α → α → Prop) {c : Prop} [Decidable c] {a b a' b' : α} (h1 : c → R a a')
    (h2 : ¬ c → R b b') : R (if c then a else b) (if c then a' else b') := by
  split
  next hc => exact h1 hc
  next hc => exact h2 hc

/-- The two outcomes are next states that differ only in unreadable words. -/
def AnswerAlike (o o' : Outcome) : Prop := ∃ s' t', o = .next s' ∧ o' = .next t' ∧ SameButStaleW s' t'

theorem answerAlike_next (h : SameButStaleW s t) : AnswerAlike (.next s) (.next t) := ⟨s, t, rfl, rfl, h⟩

theorem keyLengthOk_iff (len : Half) :
    keyLengthOk len = true ↔ len.toNat = 16 ∨ len.toNat = 24 ∨ len.toNat = 32 := by
  simp [keyLengthOk, ← BitVec.toNat_inj, or_assoc]

/-- A loaded key hides the words behind its expansion: KV = 1, and 4·(NR+1) is the expansion's length. -/
theorem sameButStaleW_loadKey {k : List Byte} (hk : k.length = 16 ∨ k.length = 24 ∨ k.length = 32) {w : List Quad}
    (hlen : w.length = s.w.length) : SameButStaleW (loadKey s k) (loadKey { s with w := w } k) := by
  refine ⟨rfl, by simp [hlen], ?_⟩
  have hnr : 4 * ((BitVec.ofNat 4 (k.length / 4 + 6)).toNat + 1) = (keyExpansion k).length := by
    obtain hk | hk | hk := hk <;> simp [hk]
  simp only [reachableW, loadKey_key, loadKey_w, if_true, hnr, List.take_left]

theorem execKeyexp_answersAlike (h : SameButStaleW s t) (src len : Half) :
    AnswerAlike (execKeyexp src len s) (execKeyexp src len t) := by
  have hraise (e : ErrCode) : AnswerAlike (raise e s) (raise e t) := answerAlike_next (h.complete e)
  have ⟨heq, hlen, _⟩ := h
  rw [heq] at hraise ⊢
  refine rel_ite AnswerAlike (fun _ => hraise _) fun hk => rel_ite AnswerAlike (fun _ => hraise _) fun _ => ?_
  have hk' := (keyLengthOk_iff len).1 (Bool.not_eq_false _ ▸ hk)
  exact answerAlike_next ((sameButStaleW_loadKey (s := drew s len.toNat) (by simpa using hk') hlen).complete .ok)

theorem exec_answersAlike (h : SameButStaleW s t) (i : Instr) : AnswerAlike (exec i s) (exec i t) := by
  by_cases hi : ∃ src len, i = .keyexp src len
  · obtain ⟨src, len, rfl⟩ := hi
    exact execKeyexp_answersAlike h src len
  · obtain ⟨s', hs⟩ := exec_answers_next i s
    have hkept : (s'.w, s'.key) = (s.w, s.key) := by
      by_contra hne
      exact hi (command_of_exec_key_ne hs hne)
    have ht : exec i t = outcomeWithW t.w (exec i s) := by
      conv_lhs => rw [h.1]
      exact exec_withW (fun src len heq => hi ⟨src, len, heq⟩) h.sameRoundKeys
    rw [ht, hs]
    obtain ⟨hw, hk⟩ := Prod.mk.inj hkept
    exact answerAlike_next (h.update hw (.inl hk))

theorem coreTurn_answersAlike (h : SameButStaleW s t) : AnswerAlike (coreTurn s) (coreTurn t) := by
  have hpending : t.pending = s.pending := h.congr State.pending fun _ => rfl
  have hbusy : t.busy = s.busy := h.congr State.busy fun _ => rfl
  cases hb : s.busy with
  | false =>
    rw [coreTurn_of_idle hb, coreTurn_of_idle (hbusy.trans hb)]
    exact answerAlike_next h
  | true =>
    rw [coreTurn_of_busy hb, coreTurn_of_busy (hbusy.trans hb)]
    cases hd : decode s.pending with
    | command i =>
      rw [coreStep_of_command hd, coreStep_of_command (hpending ▸ hd)]
      exact exec_answersAlike h i
    | illegal why =>
      rw [coreStep_of_illegal hd, coreStep_of_illegal (hpending ▸ hd)]
      exact answerAlike_next (h.complete .illegalCommand)

/-! ## Host accesses -/

theorem SameButStaleW.hostRead (h : SameButStaleW s t) (width off : Nat) :
    SameButStaleW (hostRead s width off) (hostRead t width off) := by
  rw [h.1]
  refine rel_ite SameButStaleW (fun _ => rel_ite SameButStaleW (fun _ => ?_) fun _ =>
    rel_ite SameButStaleW (fun _ => ?_) fun _ => ?_) fun _ => ?_
  · exact h.update (u := { s with readData := _ }) rfl (.inl rfl)
  · exact h.update (u := { drew s _ with readData := _ }) rfl (.inl rfl)
  · exact h.update (u := { s with readData := _ }) rfl (.inl rfl)
  · exact h.update (u := { s with fault := true, readData := _ }) rfl (.inl rfl)

theorem SameButStaleW.writeRegister (h : SameButStaleW s t) (off : Nat) (v : Reg32) :
    SameButStaleW (writeRegister s off v) (writeRegister t off v) := by
  rw [h.1]
  have hs : SameButStaleW s { s with w := t.w } := h.update rfl (.inl rfl)
  unfold Machine.writeRegister
  split
  · refine rel_ite SameButStaleW (fun _ => ?_) fun _ => hs
    exact h.update (u := { s with errSeen := false }) rfl (.inl rfl)
  · exact h.update (u := { s with cmdLo := v }) rfl (.inl rfl)
  · exact h.update (u := issue s v) rfl (.inl rfl)
  · refine rel_ite SameButStaleW (fun _ => ?_) fun _ => hs
    exact h.update (u := softReset s) rfl (.inr rfl)
  · exact hs

theorem SameButStaleW.hostWrite (h : SameButStaleW s t) (width off : Nat) (v : Reg32) :
    SameButStaleW (hostWrite s width off v) (hostWrite t width off v) := by
  have hreg := h.writeRegister off v
  have hs : SameButStaleW s { s with w := t.w } := h.update rfl (.inl rfl)
  rw [h.1] at hreg ⊢
  refine rel_ite SameButStaleW (fun _ => rel_ite SameButStaleW (fun _ => hreg) fun _ =>
    rel_ite SameButStaleW (fun _ => ?_) fun _ => hs) fun _ => ?_
  · exact h.update (u := memWrite s _ _) rfl (.inl rfl)
  · exact h.update (u := { s with fault := true }) rfl (.inl rfl)

theorem SameButStaleW.hostAccess (h : SameButStaleW s t) (a : Access) :
    SameButStaleW (hostAccess a s) (hostAccess a t) := by
  have hc : t.config = s.config := h.congr State.config fun _ => rfl
  cases a with
  | read width addr =>
    simp only [Machine.hostAccess, hc]
    cases windowOffset s.config addr with
    | none => exact h
    | some off => exact h.hostRead width off
  | write width addr v =>
    simp only [Machine.hostAccess, hc]
    cases windowOffset s.config addr with
    | none => exact h
    | some off => exact h.hostWrite width off v

end TwoRuns

/-- Settles O18: the two states take the same turn, and each turn answers alike. -/
theorem staleKeyWordsAreUnobservable : Obligations.StaleKeyWordsAreUnobservable := by
  intro s t h
  have hsched : t.schedule = s.schedule := h.congr State.schedule fun _ => rfl
  obtain ⟨rest, hs⟩ | ⟨a, rest, hs⟩ | ⟨rest, hs⟩ := turn_cases s
  · have ht : CoreHasTurn t rest := by rwa [CoreHasTurn, hsched]
    rw [step_of_coreHasTurn hs, step_of_coreHasTurn ht]
    exact coreTurn_answersAlike (h.withSchedule rest)
  · rw [step_of_host hs, step_of_host (hsched.trans hs)]
    exact answerAlike_next ((h.withSchedule rest).hostAccess a)
  · rw [step_of_hardReset hs, step_of_hardReset (hsched.trans hs), (h.withSchedule rest).congr hardReset fun _ => rfl]
    exact answerAlike_next (.refl _)

end Sys2Proof.Machine
end

section
/-! PROOFS. The destination of a command: its effect stores a byte string over the destination range, and nothing else
in the buffer. -/

namespace Sys2Proof.Machine

variable {i : Instr} {s t : State}

/-- What a command does to the buffer: it has no destination and leaves the buffer, or it stores one byte for each
address of its destination range (20_memory.md rule R57). -/
def StoresToDestination (i : Instr) (s t : State) : Prop :=
  (dstRange i = none ∧ t.buffer = s.buffer) ∨
    ∃ b l, dstRange i = some (b, l.length) ∧ t.buffer = Memory.storeBytes s.buffer b l

/-- The output of a mode command fills its destination range: the input has LEN/16 blocks, and LEN is a whole number
of blocks (44_modes.md rule R138). -/
theorem storesToDestination_modeOutput {dst src len : Half} (hp : Passes i s)
    (hi : i = .ecbenc dst src len ∨ i = .ecbdec dst src len ∨ i = .cbcenc dst src len ∨ i = .cbcdec dst src len)
    {out : List Block} (ho : out.length = len.toNat / 16) (ht : t.buffer = (modeOutput dst len s out).buffer) :
    StoresToDestination i s t := by
  have hlen : (bytesOfBlocks out).length = len.toNat := by
    rw [length_bytesOfBlocks, ho, Nat.mul_div_cancel' (Nat.dvd_of_mod_eq_zero (hp.modeLength hi))]
  have hdst : dstRange i = some (dst.toNat, len.toNat) := by obtain rfl | rfl | rfl | rfl := hi <;> rfl
  exact .inr ⟨dst.toNat, bytesOfBlocks out, by rw [hdst, hlen], ht⟩

theorem storesToDestination_effectOf (hp : Passes i s) : StoresToDestination i s (effectOf i s) := by
  cases i with
  | strk dst r => exact .inr ⟨_, _, rfl, rfl⟩
  | stst dst => exact .inr ⟨_, _, rfl, rfl⟩
  | stiv dst => exact .inr ⟨_, _, rfl, rfl⟩
  | ecbenc dst src len => exact storesToDestination_modeOutput (src := src) hp (by simp) (by simp [ecbE]) rfl
  | ecbdec dst src len => exact storesToDestination_modeOutput (src := src) hp (by simp) (by simp [ecbD]) rfl
  | cbcenc dst src len => exact storesToDestination_modeOutput (src := src) hp (by simp) (by simp) rfl
  | cbcdec dst src len => exact storesToDestination_modeOutput (src := src) hp (by simp) (by simp) rfl
  | pad dst src len bs =>
    exact .inr ⟨_, padBytes (memRead s src.toNat len.toNat) bs, by simp [dstRange], rfl⟩
  | _ => exact .inl ⟨rfl, rfl⟩

theorem StoresToDestination.byte?_outside (h : StoresToDestination i s t) {a : Nat}
    (ha : ∀ b n, dstRange i = some (b, n) → a < b ∨ b + n ≤ a) :
    Memory.byte? t.buffer a = Memory.byte? s.buffer a := by
  obtain ⟨-, hbuf⟩ | ⟨b, l, hdst, hbuf⟩ := h
  · rw [hbuf]
  · rw [hbuf, byte?_storeBytes_outside l _ (ha b _ hdst)]

theorem StoresToDestination.byte?_ne_none (h : StoresToDestination i s t) {b n a : Nat}
    (hr : dstRange i = some (b, n)) (hb : b ≤ a) (ha : a < b + n) : Memory.byte? t.buffer a ≠ none := by
  obtain ⟨hdst, -⟩ | ⟨b', l, hdst, hbuf⟩ := h
  · cases hdst.symm.trans hr
  · cases hdst.symm.trans hr
    rw [hbuf, byte?_storeBytes, if_pos ⟨hb, ha⟩, List.getElem?_eq_getElem (by omega)]
    exact Option.some_ne_none _

/-- Settles O15: an error stores nothing, and an effect stores its byte string over the destination range. -/
theorem commandsWriteOnlyTheirDestination : Obligations.CommandsWriteOnlyTheirDestination := by
  intro i s t _ h
  refine ⟨fun a ha => ?_, fun hok b n a hr hb hlt => ?_⟩
  · obtain ⟨e, n, -, hs⟩ | ⟨hp, hs⟩ := exec_cases i s
    · cases hs.symm.trans h
      rfl
    · cases hs.symm.trans h
      exact (storesToDestination_effectOf hp).byte?_outside ha
  · obtain ⟨hp, rfl⟩ := effect_of_ok h hok
    exact (storesToDestination_effectOf hp).byte?_ne_none hr hb hlt

end Sys2Proof.Machine
end

section
/-! PROOFS. Host accesses: which ones are violations, what an access of the buffer window does, and what a read leaves
unchanged. -/

namespace Sys2Proof.Machine

/-! ## The turn of a host access in the window -/

section Turns

variable {s : State} {rest : List Turn} {width off : Nat} {v : Reg32}

theorem step_of_read (ht : s.schedule = .host (.read width (s.config.base + off)) :: rest) (hoff : off < 0x20000) :
    step s = .next (hostRead { s with schedule := rest } width off) := by
  rw [step_of_host ht]
  exact congrArg _ (hostAccess_read (s := { s with schedule := rest }) hoff width)

theorem step_of_write (ht : s.schedule = .host (.write width (s.config.base + off) v) :: rest)
    (hoff : off < 0x20000) : step s = .next (hostWrite { s with schedule := rest } width off v) := by
  rw [step_of_host ht]
  exact congrArg _ (hostAccess_write (s := { s with schedule := rest }) hoff width v)

end Turns

/-! ## Violations -/

section Violations

variable {s t : State} {width off : Nat} {v : Reg32}

theorem hostRead_violation (h : ¬ readAllowed s width off = true) :
    hostRead s width off = { s with fault := true, readData := 0 } := by
  rw [hostRead, if_neg h]

theorem hostWrite_violation (h : ¬ writeAllowed s width off = true) :
    hostWrite s width off v = { s with fault := true } := by
  rw [hostWrite, if_neg h]

theorem shapeOk_iff : shapeOk width off = true ↔
    (off < 0x10000 ∧ width = 32 ∧ off % 4 = 0) ∨
      (0x10000 ≤ off ∧ (width = 8 ∨ width = 16 ∨ width = 32) ∧ off % (width / 8) = 0) := by
  by_cases h : off < 0x10000
  · simp [shapeOk, h]
  · simp [shapeOk, h, or_assoc, Nat.not_lt.1 h]

theorem readAllowed_iff : readAllowed s width off = true ↔
    if s.busy then width = 32 ∧ (off = 0x000 ∨ off = 0x004 ∨ off = 0x020)
    else (off < 0x10000 ∧ width = 32 ∧ off % 4 = 0) ∨
      (0x10000 ≤ off ∧ (width = 8 ∨ width = 16 ∨ width = 32) ∧ off % (width / 8) = 0) := by
  cases hb : s.busy
  · simp [readAllowed, hb, shapeOk_iff]
  · simp [readAllowed, hb, busyReadOk, or_assoc]

theorem writeAllowed_iff : writeAllowed s width off = true ↔
    if s.busy then width = 32 ∧ off = 0x01C
    else (off < 0x10000 ∧ width = 32 ∧ off % 4 = 0) ∨
      (0x10000 ≤ off ∧ (width = 8 ∨ width = 16 ∨ width = 32) ∧ off % (width / 8) = 0) := by
  cases hb : s.busy
  · simp [writeAllowed, hb, shapeOk_iff]
  · simp [writeAllowed, hb, busyWriteOk]

theorem hostRead_fault (h : readAllowed s width off = true) : (hostRead s width off).fault = s.fault := by
  rw [hostRead, if_pos h]
  split
  · rfl
  · split <;> rfl

/-- An allowed write sets no FAULT; a soft reset clears it. -/
theorem hostWrite_fault (h : writeAllowed s width off = true) (hf : (hostWrite s width off v).fault = true) :
    s.fault = true := by
  rw [hostWrite, if_pos h] at hf
  split at hf
  · obtain hw | hw | ⟨-, hw⟩ | ⟨-, hw⟩ | hw := writeRegister_cases h v <;> rw [hw] at hf
    · exact hf
    · exact hf
    · exact hf
    · exact hf
    · cases hf
  · split at hf <;> exact hf

@[simp] theorem effectOf_fault (i : Instr) (s : State) : (effectOf i s).fault = s.fault := by
  cases i <;> rfl

theorem coreTurn_fault (h : coreTurn s = .next t) : t.fault = s.fault := by
  cases hb : s.busy with
  | false =>
    rw [coreTurn_of_idle hb] at h
    cases h
    rfl
  | true =>
    rw [coreTurn_of_busy hb] at h
    obtain ⟨e, n, -, hr⟩ | ⟨i, -, -, hr⟩ := coreStep_cases s
    · cases hr.symm.trans h
      rfl
    · cases hr.symm.trans h
      simp

/-- No turn but the host's sets FAULT: a command leaves it, and a hard reset clears it. -/
theorem hostTurn_of_fault_set (h : step s = .next t) (hs : s.fault = false) (ht : t.fault = true) :
    ∃ a rest, s.schedule = .host a :: rest := by
  obtain ⟨rest, hturn⟩ | hturn | ⟨rest, hturn⟩ := turn_cases s
  · rw [step_of_coreHasTurn hturn] at h
    cases hs.symm.trans ((coreTurn_fault h).symm.trans ht)
  · exact hturn
  · rw [step_of_hardReset hturn] at h
    cases h
    cases ht

end Violations

/-- Settles O49: the two conditions are `readAllowed` and `writeAllowed`, which every branch of an access turns on. -/
theorem violationsOnlySetFault : Obligations.ViolationsOnlySetFault := by
  refine ⟨fun s t h hs ht => hostTurn_of_fault_set h hs ht,
    fun s rest width off v hoff => ⟨fun ht => ?_, fun ht => ?_⟩⟩
  · have hok := readAllowed_iff (s := { s with schedule := rest }) (width := width) (off := off)
    rw [step_of_read ht hoff]
    exact ⟨fun hbad => by rw [hostRead_violation (mt hok.1 hbad)],
      fun h => ⟨_, rfl, hostRead_fault (hok.2 h)⟩⟩
  · have hok := writeAllowed_iff (s := { s with schedule := rest }) (width := width) (off := off)
    rw [step_of_write ht hoff]
    exact ⟨fun hbad => by rw [hostWrite_violation (mt hok.1 hbad)],
      fun h => ⟨_, rfl, hostWrite_fault (hok.2 h)⟩⟩

/-! ## Little-endian values (20_memory.md rule R52) -/

/-- Byte j of a written value in address order is its bits 8j+7:8j. -/
theorem getElem?_littleEndianBytes {n j : Nat} (v : Reg32) (h : j < n) :
    (littleEndianBytes n v)[j]? = some (v.extractLsb' (8 * j) 8) := by
  induction n generalizing v j with
  | zero => omega
  | succ n ih =>
    cases j with
    | zero => simp [littleEndianBytes, BitVec.setWidth_eq_extractLsb']
    | succ j =>
      rw [littleEndianBytes, List.getElem?_cons_succ, ih _ (by omega)]
      congr 1
      apply BitVec.eq_of_getLsbD_eq
      intro k hk
      simp [hk, Nat.mul_add, Nat.add_comm, Nat.add_left_comm]

/-- Bit i of the value of a byte string is bit i mod 8 of byte i div 8, and bits past the string are 0. -/
theorem getLsbD_littleEndianValue (l : List Byte) {i : Nat} (h : i < 32) :
    (littleEndianValue l).getLsbD i = (l.getD (i / 8) 0).getLsbD (i % 8) := by
  induction l generalizing i with
  | nil => simp [littleEndianValue]
  | cons b l ih =>
    by_cases hi : i < 8
    · simp [littleEndianValue, hi, h, Nat.div_eq_of_lt hi, Nat.mod_eq_of_lt hi]
    · obtain ⟨k, rfl⟩ := Nat.exists_eq_add_of_le' (Nat.not_lt.1 hi)
      have hk : k < 32 := by omega
      simpa [littleEndianValue, h, hk] using ih hk

theorem extractLsb'_littleEndianValue {l : List Byte} {j : Nat} {b : Byte} (hj : j < 4) (h : l[j]? = some b) :
    (littleEndianValue l).extractLsb' (8 * j) 8 = b := by
  apply BitVec.eq_of_getLsbD_eq
  intro k hk
  have hdiv : (8 * j + k) / 8 = j := by omega
  have hmod : (8 * j + k) % 8 = k := by omega
  simp [hk, getLsbD_littleEndianValue l (show 8 * j + k < 32 by omega), hdiv, hmod, h]

theorem getLsbD_littleEndianValue_of_le (l : List Byte) {i : Nat} (h : 8 * l.length ≤ i) :
    (littleEndianValue l).getLsbD i = false := by
  by_cases hi : i < 32
  · have hlen : l.length ≤ i / 8 := by omega
    simp [getLsbD_littleEndianValue l hi, hlen]
  · exact BitVec.getLsbD_of_ge _ _ (Nat.not_lt.1 hi)

/-! ## Accesses of the buffer window (rules R47, R52, R54) -/

section Window

variable {s : State} {rest : List Turn} {width a : Nat} {v : Reg32}

/-- An access of the buffer window that the architecture allows: BUSY = 0, a width of 8, 16 or 32 bits, and natural
alignment (rules R54, R56). -/
structure BufferAccessOk (s : State) (width a : Nat) : Prop where
  idle : s.busy = false
  widthOk : width = 8 ∨ width = 16 ∨ width = 32
  aligned : a % (width / 8) = 0
  inWindow : a < 0x10000

theorem BufferAccessOk.shapeOk (h : BufferAccessOk s width a) : shapeOk width (0x10000 + a) = true := by
  obtain ⟨-, hw, hal, -⟩ := h
  refine shapeOk_iff.2 (.inr ⟨Nat.le_add_right _ _, hw, ?_⟩)
  obtain rfl | rfl | rfl := hw <;> omega

theorem BufferAccessOk.readAllowed (h : BufferAccessOk s width a) : readAllowed s width (0x10000 + a) = true := by
  simp [Machine.readAllowed, h.idle, h.shapeOk]

theorem BufferAccessOk.writeAllowed (h : BufferAccessOk s width a) : writeAllowed s width (0x10000 + a) = true := by
  simp [Machine.writeAllowed, h.idle, h.shapeOk]

theorem BufferAccessOk.one_le_bytes (h : BufferAccessOk s width a) : 1 ≤ width / 8 := by
  obtain hw | hw | hw := h.widthOk <;> subst hw <;> decide

/-- An access inside a buffer of at most 65536 bytes lies in the window. -/
theorem bufferAccessOk_of_inRange (hb : s.busy = false) (hw : width = 8 ∨ width = 16 ∨ width = 32)
    (hal : a % (width / 8) = 0) (hr : a + width / 8 ≤ s.config.bufBytes) (hmax : s.config.bufBytes ≤ 65536) :
    BufferAccessOk s width a :=
  ⟨hb, hw, hal, by omega⟩

theorem BufferAccessOk.hostRead_inRange (h : BufferAccessOk s width a) (hr : s.InRange a (width / 8)) :
    hostRead s width (0x10000 + a) =
      { drew s (width / 8) with readData := littleEndianValue (memRead s a (width / 8)) } := by
  rw [hostRead, if_pos h.readAllowed, if_neg (by omega), Nat.add_sub_cancel_left, if_pos hr]

theorem BufferAccessOk.hostRead_unbacked (h : BufferAccessOk s width a) (hr : ¬ s.InRange a (width / 8)) :
    hostRead s width (0x10000 + a) = { s with readData := 0 } := by
  rw [hostRead, if_pos h.readAllowed, if_neg (by omega), Nat.add_sub_cancel_left, if_neg hr]

theorem BufferAccessOk.hostWrite_inRange (h : BufferAccessOk s width a) (hr : s.InRange a (width / 8)) :
    hostWrite s width (0x10000 + a) v = memWrite s a (littleEndianBytes (width / 8) v) := by
  rw [hostWrite, if_pos h.writeAllowed, if_neg (by omega), Nat.add_sub_cancel_left, if_pos hr]

theorem BufferAccessOk.hostWrite_unbacked (h : BufferAccessOk s width a) (hr : ¬ s.InRange a (width / 8)) :
    hostWrite s width (0x10000 + a) v = s := by
  rw [hostWrite, if_pos h.writeAllowed, if_neg (by omega), Nat.add_sub_cancel_left, if_neg hr]

theorem BufferAccessOk.withSchedule (h : BufferAccessOk s width a) (rest : List Turn) :
    BufferAccessOk { s with schedule := rest } width a :=
  { h with }

theorem BufferAccessOk.step_of_read (h : BufferAccessOk s width a)
    (ht : s.schedule = .host (.read width (s.config.base + 0x10000 + a)) :: rest) :
    step s = .next (hostRead { s with schedule := rest } width (0x10000 + a)) := by
  rw [Nat.add_assoc] at ht
  exact Machine.step_of_read ht (Nat.add_lt_add_left h.inWindow _)

theorem BufferAccessOk.step_of_write (h : BufferAccessOk s width a)
    (ht : s.schedule = .host (.write width (s.config.base + 0x10000 + a) v) :: rest) :
    step s = .next (hostWrite { s with schedule := rest } width (0x10000 + a) v) := by
  rw [Nat.add_assoc] at ht
  exact Machine.step_of_write ht (Nat.add_lt_add_left h.inWindow _)

end Window

/-- Settles O54: the bytes of a write and of a read are those of the little-endian value. -/
theorem bufferAccessIsLittleEndian : Obligations.BufferAccessIsLittleEndian := by
  constructor
  · intro s rest width a v ht hb hw hal hr hmax
    have hok := bufferAccessOk_of_inRange hb hw hal hr hmax
    refine ⟨_, hok.step_of_write ht, ?_⟩
    rw [(hok.withSchedule rest).hostWrite_inRange hr]
    refine ⟨rfl, fun b hout => byte?_storeBytes_outside _ _ (by simpa using hout), fun j hj => ?_⟩
    exact (byte?_storeBytes_inside _ _ j (by simpa using hj)).trans (getElem?_littleEndianBytes v hj)
  · intro s rest width a ht hb hw hal hr hmax
    have hok := bufferAccessOk_of_inRange hb hw hal hr hmax
    refine ⟨_, hok.step_of_read ht, ?_⟩
    rw [(hok.withSchedule rest).hostRead_inRange hr]
    refine ⟨rfl, fun j b hj hheld => extractLsb'_littleEndianValue (by omega) ?_,
      fun i hi => getLsbD_littleEndianValue_of_le _ ?_⟩
    · rw [getElem?_memRead _ _ _ _ hj, readByte_of_written _ hheld]
    · rw [length_memRead]
      omega

/-- Settles O55: from BUF_BYTES on no byte of an access is in range. -/
theorem unbackedWindowReadsZero : Obligations.UnbackedWindowReadsZero := by
  intro s rest width a v hb hw hal hle hwin
  have hok : BufferAccessOk s width a := ⟨hb, hw, hal, hwin⟩
  have hr : ¬ s.InRange a (width / 8) := by
    have hone := hok.one_le_bytes
    simp only [State.InRange]
    omega
  constructor
  · intro ht
    rw [hok.step_of_read ht, (hok.withSchedule rest).hostRead_unbacked hr]
  · intro ht
    rw [hok.step_of_write ht, (hok.withSchedule rest).hostWrite_unbacked hr]

/-- Settles O57: the read is in range, and its one byte is the free value of the draw. -/
theorem unwrittenByteReadsDrawAfresh : Obligations.UnwrittenByteReadsDrawAfresh := by
  intro s rest a ht hb ha hmax hnone
  have hok : BufferAccessOk s 8 a := ⟨hb, .inl rfl, Nat.mod_one a, by omega⟩
  have hbyte : memRead { s with schedule := rest } a (8 / 8) = [Config.freeByte s.draws] := by
    simp [memRead, Memory.readByte, hnone]
  rw [hok.step_of_read ht, (hok.withSchedule rest).hostRead_inRange ha, hbyte]
  simp [littleEndianValue, drew]

/-! ## What a read leaves unchanged (rule R59) -/

theorem hostAccess_read_frame (s : State) (width addr : Nat) :
    ∃ v n f, hostAccess (.read width addr) s = { s with readData := v, draws := n, fault := f } ∧
      (s.fault = true → f = true) := by
  cases hoff : windowOffset s.config addr with
  | none => exact ⟨s.readData, s.draws, s.fault, by simp only [hostAccess, hoff], id⟩
  | some off =>
    simp only [hostAccess, hoff]
    obtain ⟨n, v, hr⟩ | hr := hostRead_cases s width off <;> rw [hr]
    · exact ⟨v, s.draws + n, s.fault, rfl, id⟩
    · exact ⟨0, s.draws, true, rfl, fun _ => rfl⟩

/-- Settles O56: a read writes at most the value read, the draws and FAULT, which it never clears. -/
theorem hostReadsHaveNoSideEffect : Obligations.HostReadsHaveNoSideEffect := by
  intro s rest width addr ht
  obtain ⟨v, n, f, hr, hf⟩ := hostAccess_read_frame { s with schedule := rest } width addr
  exact ⟨_, (step_of_host ht).trans (congrArg _ hr), rfl, hf, fun _ => rfl⟩

end Sys2Proof.Machine
end

section
/-! PROOFS. The command word: its fields are all of it, decoding undoes encoding and encoding undoes decoding, and a
word that does not decode only reports (30_encoding.md rules R69 to R74). -/

namespace Sys2Proof

/-! ## A word is its fields -/

/-- Words that agree on the Format M fields are equal (rule R69). -/
theorem eq_iff_formatM {v w : CmdWord} : v = w ↔
    opcOf v = opcOf w ∧ imm8Of v = imm8Of w ∧ lenOf v = lenOf w ∧ srcOf v = srcOf w ∧ dstOf v = dstOf w := by
  constructor
  · rintro rfl
    simp
  · rintro ⟨hopc, himm8, hlen, hsrc, hdst⟩
    rw [← packM_fields v, ← packM_fields w, hopc, himm8, hlen, hsrc, hdst]

/-- The fields of Format B cover every bit (rule R70). -/
theorem append_formatB_fields (w : CmdWord) : (rsvOf w ++ bOf w ++ aOf w ++ opcOf w : CmdWord) = w := by
  apply BitVec.eq_of_getLsbD_eq
  intro i hi
  simp only [opcOf, aOf, bOf, rsvOf, BitVec.getLsbD_append, BitVec.getLsbD_extractLsb']
  grind

/-- Words that agree on the Format B fields are equal (rule R70). -/
theorem eq_iff_formatB {v w : CmdWord} : v = w ↔
    opcOf v = opcOf w ∧ aOf v = aOf w ∧ bOf v = bOf w ∧ rsvOf v = rsvOf w := by
  constructor
  · rintro rfl
    simp
  · rintro ⟨hopc, ha, hb, hrsv⟩
    rw [← append_formatB_fields v, ← append_formatB_fields w, hopc, ha, hb, hrsv]

theorem opcOf_eq_of_toNat_eq {w : CmdWord} {n : Nat} (h : (opcOf w).toNat = n) : opcOf w = BitVec.ofNat 8 n := by
  rw [← h, BitVec.ofNat_toNat, BitVec.setWidth_eq]

theorem noFields_iff {w : CmdWord} :
    noFields w = true ↔ imm8Of w = 0 ∧ lenOf w = 0 ∧ srcOf w = 0 ∧ dstOf w = 0 := by
  simp [noFields, and_assoc]

/-! ## Decoding and encoding -/

/-- The word of a command has its row's opcode, its operands in their fields and zeros in the others, so only the
checks on IMM8 are left (rule R73). -/
theorem decode_encode {i : Instr} (h : i.wellFormed = true) : decode (encode i) = .command i := by
  cases i with
  | strk dst r | ark r =>
    have hr : roundIndexOk r = true := h
    simp [encode, decode, unusedZero, checkRoundIndex, hr]
  | pad dst src len bs | unpad src len bs =>
    have hbs : blockSizeOk bs = true := h
    simp [encode, decode, unusedZero, checkBlockSize, hbs]
  | _ => simp [encode, decode, unusedZero, noFields]

/-- The row of the opcode gives the command; the checks passed say that the other fields are those of its word. -/
theorem wellFormed_and_encode_of_decode {w : CmdWord} {i : Instr} (h : decode w = .command i) :
    i.wellFormed = true ∧ encode i = w := by
  unfold decode at h
  split at h
  case h_26 => cases h
  all_goals
    rename_i hopc
    simp only [unusedZero_eq_command_iff, checkBlockSize_eq_command_iff, checkRoundIndex_eq_command_iff,
      noFields_iff, Bool.and_eq_true, beq_iff_eq, Decoded.command.injEq, ← and_assoc] at h
    obtain ⟨hfields, rfl⟩ := h
    have hopc := opcOf_eq_of_toNat_eq hopc
  -- the last three rows are those of Format B
  case h_23 | h_24 | h_25 => simp [encode, eq_iff_formatB, Instr.wellFormed, hopc, hfields]
  all_goals simp [encode, eq_iff_formatM, Instr.wellFormed, hopc, hfields]

theorem decode_eq_command_iff {w : CmdWord} {i : Instr} :
    decode w = .command i ↔ i.wellFormed = true ∧ encode i = w :=
  ⟨wellFormed_and_encode_of_decode, fun ⟨hwf, hw⟩ => hw ▸ decode_encode hwf⟩

/-- The operands of a command are the fields of its word (rule R71). -/
@[simp] theorem withFieldsOf_encode (i : Instr) : i.withFieldsOf (encode i) = i := by
  cases i <;> simp [encode, Instr.withFieldsOf]

/-- The first check of rule R73: a word without a row is illegal. -/
theorem decode_of_reserved_opcode {w : CmdWord} (h : (opcOf w).toNat ∉
    [0x00, 0x01, 0x02, 0x10, 0x11, 0x12, 0x13, 0x20, 0x21, 0x22, 0x23, 0x24, 0x25, 0x26, 0x30, 0x31, 0x40, 0x41,
      0x42, 0x43, 0x50, 0x51, 0x60, 0x61, 0x62]) : decode w = .illegal .reservedOpcode := by
  unfold decode
  split
  case h_26 => rfl
  all_goals
    next hopc => exact absurd (by rw [hopc]; decide) h

/-! ## The mask column of rule R72 -/

section Fields
variable (v w : CmdWord)

@[simp] theorem opcOf_and : opcOf (v &&& w) = opcOf v &&& opcOf w := BitVec.extractLsb'_and
@[simp] theorem imm8Of_and : imm8Of (v &&& w) = imm8Of v &&& imm8Of w := BitVec.extractLsb'_and
@[simp] theorem lenOf_and : lenOf (v &&& w) = lenOf v &&& lenOf w := BitVec.extractLsb'_and
@[simp] theorem srcOf_and : srcOf (v &&& w) = srcOf v &&& srcOf w := BitVec.extractLsb'_and
@[simp] theorem dstOf_and : dstOf (v &&& w) = dstOf v &&& dstOf w := BitVec.extractLsb'_and
@[simp] theorem aOf_and : aOf (v &&& w) = aOf v &&& aOf w := BitVec.extractLsb'_and
@[simp] theorem bOf_and : bOf (v &&& w) = bOf v &&& bOf w := BitVec.extractLsb'_and
@[simp] theorem rsvOf_and : rsvOf (v &&& w) = rsvOf v &&& rsvOf w := BitVec.extractLsb'_and

end Fields

@[simp] theorem and_ones8 (x : BitVec 8) : x &&& 0xFF#8 = x := BitVec.and_allOnes
@[simp] theorem and_ones16 (x : BitVec 16) : x &&& 0xFFFF#16 = x := BitVec.and_allOnes
@[simp] theorem and_ones40 (x : BitVec 40) : x &&& 0xFFFFFFFFFF#40 = x := BitVec.and_allOnes

/-- Agreeing with the match under the mask is being the word of the command with the word's own operands: field by
field, both say that the opcode is the row's and every unused field is zero. -/
theorem encode_withFieldsOf_eq_iff (w : CmdWord) (i : Instr) :
    encode (i.withFieldsOf w) = w ↔ w &&& maskOf i = matchOf i := by
  cases i with
  | gfmul _ _ | sbox _ | invsbox _ =>
    simp only [encode, Instr.withFieldsOf, maskOf, matchOf, eq_iff_formatB, opcOf_packB, aOf_packB, bOf_packB,
      rsvOf_packB, opcOf_and, aOf_and, bOf_and, rsvOf_and]
    simp [opcOf, aOf, bOf, rsvOf, eq_comm]
  | _ =>
    simp only [encode, Instr.withFieldsOf, maskOf, matchOf, eq_iff_formatM, opcOf_packM, imm8Of_packM, lenOf_packM,
      srcOf_packM, dstOf_packM, opcOf_and, imm8Of_and, lenOf_and, srcOf_and, dstOf_and]
    simp [opcOf, imm8Of, lenOf, srcOf, dstOf, eq_comm]

end Sys2Proof

namespace Sys2Proof.Machine

/-! ## The statements -/

/-- Settles O1: the fields of the packed word are the operands. -/
theorem decodeOfEncode : Obligations.DecodeOfEncode := fun _ => decode_encode

/-- Settles O2: what decoding checks is that the word is the command's. -/
theorem encodeOfDecode : Obligations.EncodeOfDecode := fun _ _ => wellFormed_and_encode_of_decode

/-- Settles O3: by O1 and O2 a word decodes to a command exactly when it is the command's word, and the mask and the
match say just that. -/
theorem decodeFollowsMaskAndMatch : Obligations.DecodeFollowsMaskAndMatch := by
  refine ⟨fun w i => ?_, fun w i h => ?_, fun _ _ => coreStep_of_illegal⟩
  · rw [decode_eq_command_iff, encode_withFieldsOf_eq_iff, and_comm]
  · obtain ⟨-, rfl⟩ := wellFormed_and_encode_of_decode h
    exact (withFieldsOf_encode i).symm

/-- Settles O4: nine words, decoded. -/
theorem specWordsDecode : Obligations.SpecWordsDecode := by
  unfold Obligations.SpecWordsDecode
  decide

theorem step_of_busy_illegal {s : State} {rest : List Turn} {why : Illegal} (hb : s.busy = true)
    (ht : CoreHasTurn s rest) (hd : decode s.pending = .illegal why) :
    step s = raise .illegalCommand { s with schedule := rest } := by
  rw [step_of_coreHasTurn ht, coreTurn_of_busy (s := { s with schedule := rest }) hb,
    coreStep_of_illegal (s := { s with schedule := rest }) hd]

/-- Settles O5: an opcode of no row is reserved, and a word that does not decode ends in `raise`. -/
theorem illegalWordsOnlyReport : Obligations.IllegalWordsOnlyReport :=
  ⟨fun _ => decode_of_reserved_opcode, fun _ _ _ hb ht hd =>
    (step_of_busy_illegal hb ht hd).trans (raise_of_ne_ok (by decide) _)⟩

end Sys2Proof.Machine
end

section
/-! PROOFS. The assembler's lines: what a line that is not refused promises, and what each row of rule R75 gives
(30_encoding.md rules R75 to R77). -/

namespace Sys2Proof.Machine

/-! ## One command -/

/-- A well-formed command is assembled, any other refused (rule R76). -/
theorem oneCommand_cases (i : Instr) :
    (i.wellFormed = true ∧ oneCommand i = .commands [i]) ∨ (i.wellFormed = false ∧ ∃ e, oneCommand i = .refused e) := by
  cases i with
  | strk _ r | ark r => cases h : roundIndexOk r <;> simp [oneCommand, Instr.wellFormed, h]
  | pad _ _ _ bs | unpad _ _ bs => cases h : blockSizeOk bs <;> simp [oneCommand, Instr.wellFormed, h]
  | _ => exact .inl ⟨rfl, rfl⟩

@[simp] theorem assembledWords_oneCommand (i : Instr) :
    assembledWords (oneCommand i) = if i.wellFormed = true then [encode i] else [] := by
  obtain ⟨hwf, h⟩ | ⟨hwf, e, h⟩ := oneCommand_cases i <;> simp [assembledWords, hwf, h]

/-! ## Operands and their fields (rule R76) -/

@[simp] theorem withHalf_toNat (x : Half) (f : Half → AsmResult) : withHalf x.toNat f = f x := by
  rw [withHalf, if_pos x.isLt, BitVec.ofNat_toNat, BitVec.setWidth_eq]

@[simp] theorem withByte_toNat (x : Byte) (f : Byte → AsmResult) : withByte x.toNat f = f x := by
  rw [withByte, if_pos x.isLt, BitVec.ofNat_toNat, BitVec.setWidth_eq]

theorem withHalf_of_lt {a : Nat} (h : a < 65536) (f : Half → AsmResult) : withHalf a f = f (BitVec.ofNat 16 a) :=
  if_pos h

theorem withByte_of_lt {a : Nat} (h : a < 256) (f : Byte → AsmResult) : withByte a f = f (BitVec.ofNat 8 a) :=
  if_pos h

theorem withByte_of_le {a : Nat} (h : 256 ≤ a) (f : Byte → AsmResult) : withByte a f = .refused .operandTooWide :=
  if_neg (Nat.not_lt.2 h)

/-- If what follows an operand is too wide, so is the line, whether this operand fits or not. -/
@[simp] theorem withHalf_tooWide (a : Nat) :
    withHalf a (fun _ => .refused .operandTooWide) = .refused .operandTooWide := ite_self _

@[simp] theorem withByte_tooWide (a : Nat) :
    withByte a (fun _ => .refused .operandTooWide) = .refused .operandTooWide := ite_self _

theorem blockSizeOk_iff {bs : Byte} : blockSizeOk bs = true ↔ bs ≠ 0 := by simp [blockSizeOk]

theorem roundIndexOk_iff {r : Byte} : roundIndexOk r = true ↔ r.toNat ≤ 14 := by simp [roundIndexOk]

theorem roundIndexOk_ofNat_of_lt {r : Nat} (h : 14 < r) (hr : r < 256) : roundIndexOk (BitVec.ofNat 8 r) = false := by
  rw [← Bool.not_eq_true, roundIndexOk_iff, BitVec.toNat_ofNat]
  omega

/-! ## The operand count -/

section OperandCount
variable {name : List Char}

theorem assembleWords_one (h : operandCount name = some 1) (a : Nat) :
    assembleWords name [a] = assemble1 name a := by
  simp [assembleWords, h]

theorem assembleWords_two (h : operandCount name = some 2) (a b : Nat) :
    assembleWords name [a, b] = assemble2 name a b := by
  simp [assembleWords, h]

theorem assembleWords_three (h : operandCount name = some 3) (a b c : Nat) :
    assembleWords name [a, b, c] = assemble3 name a b c := by
  simp [assembleWords, h]

theorem assembleWords_four (h : operandCount name = some 4) (a b c d : Nat) :
    assembleWords name [a, b, c, d] = assemble4 name a b c d := by
  simp [assembleWords, h]

end OperandCount

/-! ## What a line that is not refused promises -/

/-- If the line is not refused then its commands are well-formed and these operands fit 16 bits. -/
def Checked (operands : List Nat) (r : AsmResult) : Prop :=
  ∀ is, r = .commands is → (∀ i ∈ is, i.wellFormed = true) ∧ ∀ x ∈ operands, x < 65536

@[simp] theorem checked_refused (operands : List Nat) (e : AsmError) : Checked operands (.refused e) := by
  rintro is ⟨⟩

@[simp] theorem checked_oneCommand (i : Instr) : Checked [] (oneCommand i) := by
  intro is h
  obtain ⟨hwf, hi⟩ | ⟨-, e, he⟩ := oneCommand_cases i
  · obtain rfl : [i] = is := by simpa [hi] using h
    simpa using hwf
  · simp [he] at h

@[simp] theorem checked_expandPseudo (p : Pseudo) : Checked [] (.commands (expandPseudo p)) := by
  rintro is ⟨⟩
  cases p <;> simp [expandPseudo, Instr.wellFormed]

@[simp] theorem checked_ite_iff {operands : List Nat} {c : Prop} [Decidable c] {r r' : AsmResult} :
    Checked operands (if c then r else r') ↔ (c → Checked operands r) ∧ (¬ c → Checked operands r') := by
  split <;> simp_all

theorem checked_cons_iff {a : Nat} (ha : a < 65536) {operands : List Nat} {r : AsmResult} :
    Checked (a :: operands) r ↔ Checked operands r := by
  simp [Checked, ha]

@[simp] theorem checked_withHalf_iff {a : Nat} {operands : List Nat} {f : Half → AsmResult} :
    Checked (a :: operands) (withHalf a f) ↔ (a < 65536 → Checked operands (f (BitVec.ofNat 16 a))) := by
  by_cases ha : a < 65536
  · simp [withHalf, ha, checked_cons_iff ha]
  · simp [withHalf, ha]

@[simp] theorem checked_withByte_iff {a : Nat} {operands : List Nat} {f : Byte → AsmResult} :
    Checked (a :: operands) (withByte a f) ↔ (a < 256 → Checked operands (f (BitVec.ofNat 8 a))) := by
  by_cases ha : a < 256
  · simp [withByte, ha, checked_cons_iff (show a < 65536 by omega)]
  · simp [withByte, ha]

/-- Every row of rule R75 checks its operands' widths and the IMM8 of its command. -/
theorem checked_assembleWords (name : List Char) (operands : List Nat) :
    Checked operands (assembleWords name operands) := by
  unfold assembleWords
  split
  · exact checked_refused operands _
  · split
    · exact checked_refused operands _
    · split
      · exact checked_refused operands _
      · split
        · simp [assemble0]
        · simp [assemble1]
        · simp [assemble2]
        · simp [assemble3]
        · simp [assemble4]
        · exact checked_refused _ _

theorem wellFormed_of_assembleLine {line : List Char} {is : List Instr} (h : assembleLine line = .commands is) :
    ∀ i ∈ is, i.wellFormed = true := by
  unfold assembleLine at h
  split at h
  · cases h
    simp
  · split at h
    · cases h
    · exact (checked_assembleWords _ _ is h).1

/-- An operand that fits no field is refused wherever it stands (rule R76). -/
theorem refused_of_wide_operand {name : List Char} {operands : List Nat} (h : ∃ x ∈ operands, 65536 ≤ x) :
    ∃ e, assembleWords name operands = .refused e := by
  obtain ⟨x, hx, hwide⟩ := h
  cases hr : assembleWords name operands with
  | refused e => exact ⟨e, rfl⟩
  | commands is =>
    obtain ⟨-, hfit⟩ := checked_assembleWords name operands is hr
    exact absurd (hfit x hx) (Nat.not_lt.2 hwide)

/-- Settles O59: by the checks of every row, by the operand count, and row by row. -/
theorem assembledLinesDecode : Obligations.AssembledLinesDecode := by
  refine ⟨fun _ _ => wellFormed_of_assembleLine, fun name ops => ⟨?_, ?_, ?_, refused_of_wide_operand⟩,
    fun a b c ha hb hc => ⟨?_, ?_, fun h14 h256 => ⟨?_, ?_⟩⟩, fun a b c d hd => ⟨?_, ?_, ?_, ?_, ?_, ?_⟩,
    fun a dst src => ⟨?_, ?_, ?_, ?_, ?_, ?_⟩⟩
  -- the operand count
  · intro hnone
    simp [assembleWords, hnone]
  · intro n hn hlt
    simp [assembleWords, hn, hlt]
  · intro n hn hlt
    simp [assembleWords, hn, hlt, Nat.lt_asymm hlt]
  -- BS = 0 and R > 14
  · rw [assembleWords_four rfl]
    simp [assemble4, withHalf_of_lt, withByte_of_lt, ha, hb, hc, oneCommand, blockSizeOk]
  · rw [assembleWords_three rfl]
    simp [assemble3, withHalf_of_lt, withByte_of_lt, ha, hb, oneCommand, blockSizeOk]
  · rw [assembleWords_one rfl]
    simp [assemble1, withByte_of_lt h256, oneCommand, roundIndexOk_ofNat_of_lt h14 h256]
  · rw [assembleWords_two rfl]
    simp [assemble2, withHalf_of_lt ha, withByte_of_lt h256, oneCommand, roundIndexOk_ofNat_of_lt h14 h256]
  -- an operand wider than its byte
  · rintro name (rfl | rfl | rfl | rfl) <;>
    · rw [assembleWords_one rfl]
      simp [assemble1, withByte_of_le hd]
  · rw [assembleWords_two rfl]
    simp [assemble2, withByte_of_le hd]
  · rw [assembleWords_two rfl]
    simp [assemble2, withByte_of_le hd]
  · rw [assembleWords_two rfl]
    simp [assemble2, withByte_of_le hd]
  · rw [assembleWords_four rfl]
    simp [assemble4, withByte_of_le hd]
  · rw [assembleWords_three rfl]
    simp [assemble3, withByte_of_le hd]
  -- the pseudo-instructions
  · rfl
  · rw [assembleWords_one rfl]
    simp [assemble1, expandPseudo]
  · rw [assembleWords_two rfl]
    simp [assemble2, expandPseudo]
  · rw [assembleWords_two rfl]
    simp [assemble2, expandPseudo]
  · rw [assembleWords_one rfl]
    simp [assemble1, expandPseudo]
  · rw [assembleWords_one rfl]
    simp [assemble1, expandPseudo]

/-! ## Numbers -/

theorem isDigit_of_mem_decimal {n : Nat} {c : Char} (h : c ∈ Nat.toDigits 10 n) : c.isDigit = true :=
  Nat.isDigit_of_mem_toDigits (by decide) (by decide) h

/-- A decimal number reads as itself. -/
theorem numberValue_decimal (n : Nat) : numberValue (Nat.toDigits 10 n) = some n := by
  rw [numberValue_eq_digitsValue Nat.toDigits_ne_nil, digitsValue_toDigits (by decide) (by decide)]
  rintro c hc rfl
  cases isDigit_of_mem_decimal hc

/-- A hexadecimal number after `0x` reads as itself. -/
theorem numberValue_hexadecimal (n : Nat) : numberValue ('0' :: 'x' :: Nat.toDigits 16 n) = some n := by
  rw [numberValue, digitsValue_toDigits (by decide) (by decide)]
  exact Nat.toDigits_ne_nil

/-! ## The operands as a line writes them -/

/-- Operands in decimal, a comma between one and the next (rule R75). -/
def operandText (operands : List Nat) : List Char := List.intercalate [','] (operands.map (Nat.toDigits 10))

theorem operandText_cons_cons (n m : Nat) (ns : List Nat) :
    operandText (n :: m :: ns) = Nat.toDigits 10 n ++ ',' :: operandText (m :: ns) := by
  simp [operandText, List.intercalate_cons_cons]

@[simp] theorem operandText_singleton (n : Nat) : operandText [n] = Nat.toDigits 10 n := by
  simp [operandText]

theorem operandText_ne_nil (n : Nat) (ns : List Nat) : operandText (n :: ns) ≠ [] := by
  cases ns with
  | nil => simp [Nat.toDigits_ne_nil]
  | cons m ns => simp [operandText_cons_cons]

/-- The operands are written with digits and commas only. -/
theorem isDigit_or_comma_of_mem_operandText {operands : List Nat} {c : Char} (h : c ∈ operandText operands) :
    c.isDigit = true ∨ c = ',' := by
  induction operands with
  | nil => cases h
  | cons n ns ih =>
    cases ns with
    | nil => exact .inl (isDigit_of_mem_decimal (by simpa using h))
    | cons m ns =>
      rw [operandText_cons_cons, List.mem_append, List.mem_cons] at h
      obtain h | h | h := h
      · exact .inl (isDigit_of_mem_decimal h)
      · exact .inr h
      · exact ih h

theorem isBlank_iff {c : Char} : isBlank c = true ↔ c = ' ' ∨ c = '\t' := by
  simp [isBlank]

theorem not_isBlank_of_isDigit_or_comma {c : Char} (h : c.isDigit = true ∨ c = ',') : isBlank c = false := by
  rw [Bool.eq_false_iff, Ne, isBlank_iff]
  rintro (rfl | rfl) <;> exact absurd h (by decide)

theorem not_isBlank_of_mem_operandText {operands : List Nat} : ∀ c ∈ operandText operands, isBlank c = false :=
  fun _ h => not_isBlank_of_isDigit_or_comma (isDigit_or_comma_of_mem_operandText h)

/-! ## White space around the parts -/

@[simp] theorem trimBlanks_space_cons (l : List Char) : trimBlanks (' ' :: l) = trimBlanks l := rfl

theorem dropWhile_isBlank_append {l : List Char} (hne : l ≠ []) (h : ∀ c ∈ l, isBlank c = false) (m : List Char) :
    (l ++ m).dropWhile isBlank = l ++ m := by
  obtain ⟨c, cs, rfl⟩ := List.exists_cons_of_ne_nil hne
  simp [h c (by simp)]

theorem trimBlanks_append_space {l : List Char} (hne : l ≠ []) (h : ∀ c ∈ l, isBlank c = false) :
    trimBlanks (l ++ [' ']) = l := by
  rw [trimBlanks, dropWhile_isBlank_append hne h, List.reverse_concat]
  have hspace : (' ' :: l.reverse).dropWhile isBlank = l.reverse.dropWhile isBlank := rfl
  have hend := dropWhile_isBlank_append (l := l.reverse) (by simpa using hne) (by simpa using h) []
  rw [List.append_nil] at hend
  rw [hspace, hend, List.reverse_reverse]

/-- Only white space at the ends is trimmed. -/
theorem trimBlanks_append_append {l r : List Char} (hl : l ≠ []) (hlb : ∀ c ∈ l, isBlank c = false) (hr : r ≠ [])
    (hrb : ∀ c ∈ r, isBlank c = false) (m : List Char) : trimBlanks (l ++ (m ++ r)) = l ++ (m ++ r) := by
  rw [trimBlanks, dropWhile_isBlank_append hl hlb, List.reverse_append, List.reverse_append, List.append_assoc,
    dropWhile_isBlank_append (by simpa using hr) (by simpa using hrb)]
  simp

/-! ## Reading the operands back -/

theorem numbersOf_decimal (operands : List Nat) : numbersOf (operands.map (Nat.toDigits 10)) = some operands := by
  induction operands with
  | nil => rfl
  | cons n ns ih =>
    have htrim : trimBlanks (Nat.toDigits 10 n) = Nat.toDigits 10 n :=
      trimBlanks_of_forall_not_isBlank fun c hc => not_isBlank_of_isDigit_or_comma (.inl (isDigit_of_mem_decimal hc))
    simp [numbersOf, htrim, numberValue_decimal, ih]

theorem operandsOf_of_trimBlanks_ne_nil {rest : List Char} (h : trimBlanks rest ≠ []) :
    operandsOf rest = numbersOf (splitCommas (trimBlanks rest)) := by
  unfold operandsOf
  split
  next hnil => exact absurd hnil h
  next => rfl

theorem operandsOf_operandText (operands : List Nat) : operandsOf (' ' :: operandText operands) = some operands := by
  cases operands with
  | nil => rfl
  | cons n ns =>
    have htrim : trimBlanks (' ' :: operandText (n :: ns)) = operandText (n :: ns) :=
      (trimBlanks_space_cons _).trans (trimBlanks_of_forall_not_isBlank not_isBlank_of_mem_operandText)
    have hcomma : ∀ p ∈ (n :: ns).map (Nat.toDigits 10), ∀ c ∈ p, c ≠ ',' := by
      rw [List.forall_mem_map]
      rintro x - c hc rfl
      cases isDigit_of_mem_decimal hc
    rw [operandsOf_of_trimBlanks_ne_nil (by rw [htrim]; exact operandText_ne_nil n ns), htrim, operandText,
      splitCommas_intercalate (by simp) hcomma, numbersOf_decimal]

/-! ## A line is its mnemonic and its operands -/

theorem withoutComment_eq_self {line : List Char} (h : ∀ c ∈ line, c ≠ ';') : withoutComment line = line :=
  List.takeWhile_eq_self_iff.2 (by simpa using h)

theorem withoutComment_append_comment {line : List Char} (h : ∀ c ∈ line, c ≠ ';') (comment : List Char) :
    withoutComment (line ++ ';' :: comment) = line := by
  rw [withoutComment, List.takeWhile_append_of_pos (by simpa using h)]
  simp

/-- A comment changes nothing (rule R75). -/
theorem assembleLine_append_comment {line : List Char} (h : ∀ c ∈ line, c ≠ ';') (comment : List Char) :
    assembleLine (line ++ ';' :: comment) = assembleLine line := by
  rw [assembleLine, assembleLine, withoutComment_append_comment h, withoutComment_eq_self h]

/-- A line whose trimmed text is a mnemonic and, from a blank on, its operands. -/
theorem assembleLine_of_parts {line name rest : List Char} {operands : List Nat}
    (hline : trimBlanks (withoutComment line) = name ++ rest) (hname : name ≠ [])
    (hblank : ∀ c ∈ name, isBlank c = false) (hrest : ∀ c ∈ rest.head?, isBlank c = true)
    (hoperands : operandsOf rest = some operands) : assembleLine line = assembleWords name operands := by
  have htake : (name ++ rest).takeWhile (fun c => !isBlank c) = name := by
    rw [List.takeWhile_append_of_pos (by simpa using hblank)]
    cases rest <;> simp_all
  have hdrop : (name ++ rest).dropWhile (fun c => !isBlank c) = rest := by
    rw [List.dropWhile_append_of_pos (by simpa using hblank)]
    cases rest <;> simp_all
  unfold assembleLine
  rw [hline]
  split
  next hnil => exact absurd (List.append_eq_nil_iff.1 hnil).1 hname
  next => rw [hdrop, hoperands, htake]

/-- A mnemonic, a space and the operands in decimal assemble as the mnemonic with these operands (rule R75). -/
theorem assembleLine_operandText {name : List Char} (hne : name ≠ []) (hname : ∀ c ∈ name, isBlank c = false ∧ c ≠ ';')
    (operands : List Nat) : assembleLine (name ++ ' ' :: operandText operands) = assembleWords name operands := by
  have hblank : ∀ c ∈ name, isBlank c = false := fun c hc => (hname c hc).1
  have hcomment : withoutComment (name ++ ' ' :: operandText operands) = name ++ ' ' :: operandText operands := by
    apply withoutComment_eq_self
    rintro c hc rfl
    obtain hc | hc := List.mem_append.1 hc
    · exact (hname _ hc).2 rfl
    · obtain hc | hc := List.mem_cons.1 hc
      · cases hc
      · exact absurd (isDigit_or_comma_of_mem_operandText hc) (by decide)
  cases operands with
  | nil =>
    refine assembleLine_of_parts (rest := []) ?_ hne hblank (by simp) rfl
    rw [hcomment, List.append_nil]
    exact trimBlanks_append_space hne hblank
  | cons n ns =>
    refine assembleLine_of_parts (rest := ' ' :: operandText (n :: ns)) ?_ hne hblank (by simp [isBlank])
      (operandsOf_operandText _)
    rw [hcomment]
    exact trimBlanks_append_append hne hblank (operandText_ne_nil n ns) not_isBlank_of_mem_operandText [' ']

/-! ## The rows of rule R75 -/

/-- The nine rows without operands. -/
theorem assembledWords_row_without_operands {name : List Char} {opc : Byte}
    (h : (name, opc) ∈ [(['n', 'o', 'p'], 0x00), (['s', 'u', 'b', 'b'], 0x20),
      (['i', 'n', 'v', 's', 'u', 'b', 'b'], 0x21), (['s', 'h', 'r', 'o', 'w'], 0x22),
      (['i', 'n', 'v', 's', 'h', 'r', 'o', 'w'], 0x23), (['m', 'i', 'x', 'c', 'o', 'l'], 0x24),
      (['i', 'n', 'v', 'm', 'i', 'x', 'c', 'o', 'l'], 0x25), (['e', 'n', 'c', 'b', 'l', 'k'], 0x30),
      (['d', 'e', 'c', 'b', 'l', 'k'], (0x31 : Byte))]) :
    assembledWords (assembleWords name []) = [packM opc 0 0 0 0] := by
  simp only [List.mem_cons, Prod.mk.injEq, List.not_mem_nil, or_false] at h
  obtain ⟨rfl, rfl⟩ | ⟨rfl, rfl⟩ | ⟨rfl, rfl⟩ | ⟨rfl, rfl⟩ | ⟨rfl, rfl⟩ | ⟨rfl, rfl⟩ | ⟨rfl, rfl⟩ | ⟨rfl, rfl⟩ |
    ⟨rfl, rfl⟩ := h <;> rfl

/-- The four rows of the modes. -/
theorem assembledWords_mode_row {name : List Char} {opc : Byte} (dst src len : Half)
    (h : (name, opc) ∈ [(['e', 'c', 'b', 'e', 'n', 'c'], 0x40), (['e', 'c', 'b', 'd', 'e', 'c'], 0x41),
      (['c', 'b', 'c', 'e', 'n', 'c'], 0x42), (['c', 'b', 'c', 'd', 'e', 'c'], (0x43 : Byte))]) :
    assembledWords (assembleWords name [dst.toNat, src.toNat, len.toNat]) = [packM opc 0 len src dst] := by
  simp only [List.mem_cons, Prod.mk.injEq, List.not_mem_nil, or_false] at h
  obtain ⟨rfl, rfl⟩ | ⟨rfl, rfl⟩ | ⟨rfl, rfl⟩ | ⟨rfl, rfl⟩ := h <;>
  · rw [assembleWords_three rfl]
    simp [assemble3, Instr.wellFormed, encode]

/-- Settles O60: row by row, and by reading back what a line writes. -/
theorem mnemonicsAssembleToTheirWords : Obligations.MnemonicsAssembleToTheirWords := by
  refine ⟨fun _ _ => assembledWords_row_without_operands,
    fun dst src len => ⟨?_, ?_, ?_, ?_, ?_, fun _ _ => assembledWords_mode_row dst src len, fun r hr => ⟨?_, ?_⟩,
      fun bs hbs => ⟨?_, ?_⟩⟩,
    fun a b => ⟨?_, ?_, ?_⟩, fun name operands hne hname => assembleLine_operandText hne hname operands,
    numberValue_hexadecimal, fun line comment h => assembleLine_append_comment h comment⟩
  · rw [assembleWords_two rfl]
    simp [assemble2, Instr.wellFormed, encode]
  · rw [assembleWords_one rfl]
    simp [assemble1, Instr.wellFormed, encode]
  · rw [assembleWords_one rfl]
    simp [assemble1, Instr.wellFormed, encode]
  · rw [assembleWords_two rfl]
    simp [assemble2, Instr.wellFormed, encode]
  · rw [assembleWords_one rfl]
    simp [assemble1, Instr.wellFormed, encode]
  · rw [assembleWords_two rfl]
    simp [assemble2, Instr.wellFormed, encode, roundIndexOk_iff.2 hr]
  · rw [assembleWords_one rfl]
    simp [assemble1, Instr.wellFormed, encode, roundIndexOk_iff.2 hr]
  · rw [assembleWords_four rfl]
    simp [assemble4, Instr.wellFormed, encode, blockSizeOk_iff.2 hbs]
  · rw [assembleWords_three rfl]
    simp [assemble3, Instr.wellFormed, encode, blockSizeOk_iff.2 hbs]
  · rw [assembleWords_two rfl]
    simp [assemble2, Instr.wellFormed, encode]
  · rw [assembleWords_one rfl]
    simp [assemble1, Instr.wellFormed, encode]
  · rw [assembleWords_one rfl]
    simp [assemble1, Instr.wellFormed, encode]

end Sys2Proof.Machine
end

section
/-! PROOFS. The multiplier's loop as a sum of doubled operands, the field laws, and the reduction modulo 0x11B
(40_gf_sbox.md rules R78 to R81). The sum of two field elements is their XOR, and the laws are proved by linearity: two
additive functions that agree on the eight single bits are equal. -/

namespace Sys2Proof.Machine

/-! ## Sums and additive functions -/

theorem ite_xor_eq {n : Nat} (c : Bool) (p a : BitVec n) :
    (if c then p ^^^ a else p) = p ^^^ if c then a else 0 := by
  cases c <;> simp

theorem ite_bne_eq {n : Nat} (c d : Bool) (a : BitVec n) :
    (if (c ^^ d) then a else 0) = (if c then a else 0) ^^^ if d then a else 0 := by
  cases c <;> cases d <;> simp

/-- `p` plus the summands `g i` of those indices `i` of `l` that `c` selects: the sums of rule R80 have this shape. -/
def selectedXor {n : Nat} (c : Nat → Bool) (g : Nat → BitVec n) (l : List Nat) (p : BitVec n) : BitVec n :=
  l.foldl (fun p i => if c i then p ^^^ g i else p) p

section Sums

variable {n : Nat} {c : Nat → Bool} {g g' : Nat → BitVec n} {l l' : List Nat}

theorem selectedXor_cons (i : Nat) (p : BitVec n) :
    selectedXor c g (i :: l) p = selectedXor c g l (if c i then p ^^^ g i else p) := rfl

theorem selectedXor_congr (h : ∀ i ∈ l, g i = g' i) (p : BitVec n) : selectedXor c g l p = selectedXor c g' l p :=
  List.foldl_ext _ _ _ fun _ _ hi => by rw [h _ hi]

/-- The order of the summands does not matter. -/
theorem selectedXor_perm (h : l.Perm l') (p : BitVec n) : selectedXor c g l p = selectedXor c g l' p := by
  refine h.foldl_eq' (fun i _ j _ q => ?_) p
  rw [ite_xor_eq, ite_xor_eq, ite_xor_eq, ite_xor_eq]
  ac_rfl

end Sums

/-- A predicate of bit vectors that holds of 0 and of each single bit, and that XOR keeps, holds of every bit vector. -/
theorem bitVec_xor_induction {w : Nat} {P : BitVec w → Prop} (zero : P 0) (bit : ∀ i < w, P (BitVec.twoPow w i))
    (xor : ∀ x y, P x → P y → P (x ^^^ y)) (x : BitVec w) : P x := by
  have low : ∀ n ≤ w, P ((x.setWidth n).setWidth w) := by
    intro n
    induction n with
    | zero =>
      intro _
      have hzero : (x.setWidth 0).setWidth w = 0 := by ext; simp
      rwa [hzero]
    | succ n ih =>
      intro hn
      have hsplit : (x.setWidth (n + 1)).setWidth w =
          (x.setWidth n).setWidth w ^^^ if x.getLsbD n then BitVec.twoPow w n else 0 := by
        ext i hi
        by_cases hin : i = n
        · subst hin
          cases hx : x.getLsbD i <;> simp [hx, hi, ← BitVec.getLsbD_eq_getElem]
        · have hlt : i < n + 1 ↔ i < n := by omega
          cases hx : x.getLsbD n <;> simp [hlt, hi, Ne.symm hin, ← BitVec.getLsbD_eq_getElem]
      rw [hsplit]
      refine xor _ _ (ih (by omega)) ?_
      split
      · exact bit n hn
      · exact zero
  simpa using low w le_rfl

/-- `f` carries sums to sums. -/
def XorAdditive {m n : Nat} (f : BitVec m → BitVec n) : Prop := ∀ x y, f (x ^^^ y) = f x ^^^ f y

namespace XorAdditive

variable {k m n : Nat} {f g : BitVec m → BitVec n}

theorem comp {h : BitVec k → BitVec m} (hf : XorAdditive f) (hh : XorAdditive h) : XorAdditive (f ∘ h) :=
  fun x y => (congrArg f (hh x y)).trans (hf _ _)

theorem iterate {f : BitVec m → BitVec m} (hf : XorAdditive f) (i : Nat) : XorAdditive f^[i] :=
  Function.Semiconj₂.iterate hf i

theorem map_zero (hf : XorAdditive f) : f 0 = 0 := by
  have h := hf 0 0
  rwa [BitVec.xor_self, BitVec.xor_self] at h

/-- Additive functions that agree on the single bits are equal. -/
theorem eq_of_twoPow (hf : XorAdditive f) (hg : XorAdditive g)
    (h : ∀ i < m, f (BitVec.twoPow m i) = g (BitVec.twoPow m i)) (x : BitVec m) : f x = g x := by
  induction x using bitVec_xor_induction with
  | zero => rw [hf.map_zero, hg.map_zero]
  | bit i hi => exact h i hi
  | xor x y hx hy => rw [hf, hg, hx, hy]

/-- An additive function of a sum is the sum of its values. -/
theorem map_selectedXor (hf : XorAdditive f) (c : Nat → Bool) (s : Nat → BitVec m) (l : List Nat) (p : BitVec m) :
    f (selectedXor c s l p) = selectedXor c (fun i => f (s i)) l (f p) := by
  induction l generalizing p with
  | nil => rfl
  | cons i l ih =>
    rw [selectedXor_cons, selectedXor_cons, ih]
    congr 1
    split
    · exact hf _ _
    · rfl

end XorAdditive

/-! ## The doubling step -/

theorem gfDouble_eq (a : Byte) : gfDouble a = (a <<< 1) ^^^ (if a.getLsbD 7 then 0x1B else 0x00) :=
  ite_xor_eq _ _ _

theorem xorAdditive_gfDouble : XorAdditive gfDouble := by
  intro a b
  rw [gfDouble_eq, gfDouble_eq, gfDouble_eq, BitVec.shiftLeft_xor_distrib, BitVec.getLsbD_xor, ite_bne_eq]
  ac_rfl

/-- Bit i is the power `x^i` (rule R78), and doubling multiplies by `x`. -/
theorem gfDouble_iterate_one : ∀ i < 8, gfDouble^[i] 1 = BitVec.twoPow 8 i := by decide

/-! ## The loop -/

/-- The loop of rule R79 sums, over the bits of `b` that are set, the doublings of `a`. -/
theorem gfLoop_eq_selectedXor (n : Nat) (p a b : Byte) :
    gfLoop n p a b = selectedXor b.getLsbD (fun i => gfDouble^[i] a) (List.range n) p := by
  induction n generalizing p a b with
  | zero => rfl
  | succ n ih =>
    rw [gfLoop, ih, List.range_succ_eq_map, selectedXor_cons]
    simp only [selectedXor, List.foldl_map, BitVec.getLsbD_ushiftRight, Nat.add_comm 1]
    rfl

theorem gfMul_eq_selectedXor (a b : Byte) :
    gfMul a b = selectedXor b.getLsbD (fun i => gfDouble^[i] a) (List.range 8) 0 :=
  gfLoop_eq_selectedXor 8 0 a b

theorem gfLoop_xor_left (n : Nat) (p q a c b : Byte) :
    gfLoop n (p ^^^ q) (a ^^^ c) b = gfLoop n p a b ^^^ gfLoop n q c b := by
  induction n generalizing p q a c b with
  | zero => rfl
  | succ n ih =>
    rw [gfLoop, gfLoop, gfLoop, ← ih, xorAdditive_gfDouble]
    congr 1
    split
    · ac_rfl
    · rfl

theorem gfLoop_xor_right (n : Nat) (p q a b c : Byte) :
    gfLoop n (p ^^^ q) a (b ^^^ c) = gfLoop n p a b ^^^ gfLoop n q a c := by
  induction n generalizing p q a b c with
  | zero => rfl
  | succ n ih =>
    rw [gfLoop, gfLoop, gfLoop, ← ih, BitVec.ushiftRight_xor_distrib, BitVec.getLsbD_xor]
    congr 1
    rw [ite_xor_eq, ite_xor_eq, ite_xor_eq, ite_bne_eq]
    ac_rfl

/-! ## The field laws -/

theorem xorAdditive_gfMul_left (b : Byte) : XorAdditive (gfMul · b) := fun a c => gfLoop_xor_left 8 0 0 a c b

theorem gfMul_xor (a b c : Byte) : gfMul a (b ^^^ c) = gfMul a b ^^^ gfMul a c := gfLoop_xor_right 8 0 0 a b c

theorem xorAdditive_gfMul_right (a : Byte) : XorAdditive (gfMul a) := gfMul_xor a

@[simp] theorem gfMul_zero (a : Byte) : gfMul a 0 = 0 := (xorAdditive_gfMul_right a).map_zero

theorem gfMul_twoPow (a : Byte) {i : Nat} (hi : i < 8) : gfMul a (BitVec.twoPow 8 i) = gfDouble^[i] a := by
  interval_cases i <;> simp [gfMul, gfLoop, BitVec.twoPow]

@[simp] theorem gfMul_one (a : Byte) : gfMul a 1 = a := gfMul_twoPow a (i := 0) (by decide)

theorem gfMul_two (a : Byte) : gfMul a 2 = gfDouble a := gfMul_twoPow a (i := 1) (by decide)

@[simp] theorem one_gfMul (b : Byte) : gfMul 1 b = b :=
  (xorAdditive_gfMul_right 1).eq_of_twoPow (g := id) (fun _ _ => rfl)
    (fun i hi => (gfMul_twoPow 1 hi).trans (gfDouble_iterate_one i hi)) b

theorem gfDouble_gfMul (a b : Byte) : gfMul (gfDouble a) b = gfDouble (gfMul a b) := by
  rw [gfMul_eq_selectedXor, gfMul_eq_selectedXor, xorAdditive_gfDouble.map_selectedXor]
  exact selectedXor_congr (fun i _ => Function.Commute.iterate_self gfDouble i a) 0

theorem gfDouble_iterate_gfMul (i : Nat) (a b : Byte) : gfMul (gfDouble^[i] a) b = gfDouble^[i] (gfMul a b) :=
  Function.Semiconj.iterate_right (f := (gfMul · b)) (fun a => gfDouble_gfMul a b) i a

theorem twoPow_gfMul (b : Byte) {i : Nat} (hi : i < 8) : gfMul (BitVec.twoPow 8 i) b = gfDouble^[i] b := by
  rw [← gfDouble_iterate_one i hi, gfDouble_iterate_gfMul, one_gfMul]

theorem gfMul_comm (a b : Byte) : gfMul a b = gfMul b a :=
  (xorAdditive_gfMul_left b).eq_of_twoPow (xorAdditive_gfMul_right b)
    (fun _ hi => (twoPow_gfMul b hi).trans (gfMul_twoPow b hi).symm) a

theorem gfMul_assoc (a b c : Byte) : gfMul a (gfMul b c) = gfMul (gfMul a b) c := by
  refine (xorAdditive_gfMul_left (gfMul b c)).eq_of_twoPow
    ((xorAdditive_gfMul_left c).comp (xorAdditive_gfMul_left b)) (fun i hi => ?_) a
  change _ = gfMul (gfMul (BitVec.twoPow 8 i) b) c
  rw [twoPow_gfMul _ hi, twoPow_gfMul _ hi, gfDouble_iterate_gfMul]

/-- The affine map of rule R83 undone. -/
def affineInv (z : Byte) : Byte := z.rotateLeft 1 ^^^ z.rotateLeft 3 ^^^ z.rotateLeft 6 ^^^ 0x05

/-- The inverse of a byte, and 0 for 0: since `SBOX[x] = Affine(Inv(x))` (rule R83), the table of rule R82 holds it. -/
def gfInv (x : Byte) : Byte := affineInv (sBox x)

/-- Every byte but 0 has an inverse (rule R78), checked byte by byte. -/
theorem gfMul_gfInv : ∀ {a : Byte}, a ≠ 0 → gfMul a (gfInv a) = 1 := by decide +kernel

theorem eq_of_gfMul_eq_one {a b c : Byte} (hb : gfMul a b = 1) (hc : gfMul a c = 1) : c = b := by
  calc c = gfMul (gfMul a b) c := by rw [hb, one_gfMul]
    _ = gfMul b (gfMul a c) := by rw [gfMul_comm a b, ← gfMul_assoc]
    _ = b := by rw [hc, gfMul_one]

/-! ## The carry-less product and its reduction -/

/-- The carry-less product of two bytes (rule R80). -/
def clmul (a b : Byte) : BitVec 16 := selectedXor b.getLsbD (fun i => a.setWidth 16 <<< i) (List.range 8) 0

/-- One reduction step: bit i + 8, if set, is cleared by the polynomial 0x11B shifted to it. -/
def reductionStep (p : BitVec 16) (i : Nat) : BitVec 16 :=
  if p.getLsbD (i + 8) then p ^^^ ((0x11B : BitVec 16) <<< i) else p

/-- The remainder modulo 0x11B, by a reduction step for each bit from 14 down to 8. -/
def reduced (p : BitVec 16) : Byte := ([6, 5, 4, 3, 2, 1, 0].foldl reductionStep p).setWidth 8

theorem xorAdditive_reductionStep (i : Nat) : XorAdditive (reductionStep · i) := by
  intro p q
  simp only [reductionStep, ite_xor_eq, BitVec.getLsbD_xor, ite_bne_eq]
  ac_rfl

theorem xorAdditive_foldl_reductionStep (l : List Nat) : XorAdditive (l.foldl reductionStep) := by
  induction l with
  | nil => exact fun _ _ => rfl
  | cons i l ih => exact ih.comp (xorAdditive_reductionStep i)

theorem xorAdditive_reduced : XorAdditive reduced :=
  XorAdditive.comp (f := BitVec.setWidth 8) (fun _ _ => BitVec.setWidth_xor) (xorAdditive_foldl_reductionStep _)

theorem xorAdditive_setWidth_shiftLeft (i : Nat) : XorAdditive fun a : Byte => a.setWidth 16 <<< i :=
  XorAdditive.comp (f := (· <<< i)) (fun x y => BitVec.shiftLeft_xor_distrib x y i) (fun _ _ => BitVec.setWidth_xor)

theorem reduced_twoPow_shiftLeft :
    ∀ i < 8, ∀ j < 8, reduced ((BitVec.twoPow 8 j).setWidth 16 <<< i) = gfDouble^[i] (BitVec.twoPow 8 j) := by
  decide

/-- Shifting and then reducing is doubling with a reduction at each shift. -/
theorem reduced_shiftLeft {i : Nat} (hi : i < 8) (a : Byte) : reduced (a.setWidth 16 <<< i) = gfDouble^[i] a :=
  (xorAdditive_reduced.comp (xorAdditive_setWidth_shiftLeft i)).eq_of_twoPow (xorAdditive_gfDouble.iterate i)
    (reduced_twoPow_shiftLeft i hi) a

theorem gfMul_eq_reduced_clmul (a b : Byte) : gfMul a b = reduced (clmul a b) := by
  rw [gfMul_eq_selectedXor, clmul, xorAdditive_reduced.map_selectedXor]
  exact (selectedXor_congr (fun i hi => reduced_shiftLeft (List.mem_range.1 hi) a) _).symm

/-- Settles O21: the field laws by linearity, the reduction shift by shift, and the multiples by distributivity. -/
theorem gfMulIsTheFieldProduct : Obligations.GfMulIsTheFieldProduct := by
  refine ⟨gfMul_comm, gfMul_assoc, gfMul_xor, fun a => ⟨gfMul_one a, gfMul_zero a⟩,
    fun a ha => ⟨gfInv a, gfMul_gfInv ha, fun c hc => eq_of_gfMul_eq_one (gfMul_gfInv ha) hc⟩, gfMul_eq_reduced_clmul,
    fun a b l hl => (selectedXor_perm hl 0).trans (gfMul_eq_selectedXor a b).symm,
    fun a => ⟨(gfMul_two a).trans (gfDouble_eq a), ?_, ?_, ?_, ?_, ?_⟩⟩
  · rw [show (0x03 : Byte) = 0x02 ^^^ 0x01 from rfl, gfMul_xor, gfMul_one]
  · rw [show (0x09 : Byte) = 0x08 ^^^ 0x01 from rfl, gfMul_xor, gfMul_one]
  · rw [show (0x0B : Byte) = 0x08 ^^^ 0x02 ^^^ 0x01 from rfl, gfMul_xor, gfMul_xor, gfMul_one]
  · rw [show (0x0D : Byte) = 0x08 ^^^ 0x04 ^^^ 0x01 from rfl, gfMul_xor, gfMul_xor, gfMul_one]
  · rw [show (0x0E : Byte) = 0x08 ^^^ 0x04 ^^^ 0x02 from rfl, gfMul_xor, gfMul_xor]

end Sys2Proof.Machine
end

section
/-! PROOFS. The substitution tables against their definition, and the commands that show multiplier and tables
(40_gf_sbox.md rules R82 to R89). -/

namespace Sys2Proof.Machine

/-! ## The tables -/

/-- Bit i of the affine map of rule R83. -/
def affineBit (y : Byte) (i : Nat) : Bool :=
  y.getLsbD i ^^ y.getLsbD ((i + 4) % 8) ^^ y.getLsbD ((i + 5) % 8) ^^ y.getLsbD ((i + 6) % 8) ^^
    y.getLsbD ((i + 7) % 8) ^^ (0x63 : Byte).getLsbD i

theorem affineBit_affineInv : ∀ z : Byte, ∀ i < 8, affineBit (affineInv z) i = z.getLsbD i := by decide +kernel

theorem sBox_ne : ∀ x : Byte, sBox x ≠ x ∧ sBox x ≠ x ^^^ 0xFF := by decide +kernel

@[simp] theorem invSBox_sBox : ∀ x : Byte, invSBox (sBox x) = x := by decide +kernel

@[simp] theorem sBox_invSBox : ∀ x : Byte, sBox (invSBox x) = x := by decide +kernel

/-- A fixed point of the inverse table, of either kind, is one of the table. -/
theorem invSBox_ne (x : Byte) : invSBox x ≠ x ∧ invSBox x ≠ x ^^^ 0xFF := by
  obtain ⟨hfixed, hopposite⟩ := sBox_ne (invSBox x)
  rw [sBox_invSBox] at hfixed hopposite
  refine ⟨hfixed.symm, fun h => hopposite ?_⟩
  rw [h, BitVec.xor_assoc, BitVec.xor_self, BitVec.xor_zero]

/-- Rule R83's inverse, 0 for 0, is `gfInv`. -/
theorem eq_gfInv {x y : Byte} (h : (x = 0 ∧ y = 0) ∨ gfMul x y = 0x01) : y = gfInv x := by
  obtain ⟨rfl, rfl⟩ | h := h
  · rfl
  · have hx : x ≠ 0 := by
      rintro rfl
      rw [gfMul_comm, gfMul_zero] at h
      cases h
    exact eq_of_gfMul_eq_one (gfMul_gfInv hx) h

/-- Settles O22: the inverse is unique and the one read off the table, and the rest is checked entry by entry. -/
theorem sBoxTables : Obligations.SBoxTables := by
  refine ⟨fun x => ?_, fun x y h => ?_, fun x => ?_⟩
  · by_cases hx : x = 0
    · exact ⟨0, .inl ⟨hx, rfl⟩⟩
    · exact ⟨gfInv x, .inr (gfMul_gfInv hx)⟩
  · rw [eq_gfInv h]
    exact fun i hi => (affineBit_affineInv (sBox x) i hi).symm
  · obtain ⟨hfixed, hopposite⟩ := sBox_ne x
    exact ⟨invSBox_sBox x, sBox_invSBox x, hfixed, hopposite, invSBox_ne x⟩

/-! ## The commands -/

/-- Settles O20: each of the three commands ends in `finish` with RESULT written. -/
theorem byteCommandsWriteResult : Obligations.ByteCommandsWriteResult :=
  fun _ _ _ => ⟨finish_eq _, finish_eq _, finish_eq _⟩

end Sys2Proof.Machine
end

section
/-! PROOFS. The key schedule: its words byte by byte, the recurrence of the expansion, the round keys as slices of W,
and the commands KEYEXP and STRK (41_key_schedule.md rules R90 to R99). -/

namespace Sys2Proof.Machine

/-! ## Words, byte by byte -/

@[simp] theorem quadByte_quadXor (s t : Quad) (j : Nat) :
    quadByte (quadXor s t) j = quadByte s j ^^^ quadByte t j := by
  unfold quadByte
  split <;> rfl

@[simp] theorem quadByte_subWord (t : Quad) (j : Nat) : quadByte (subWord t) j = sBox (quadByte t j) := by
  unfold quadByte
  split <;> rfl

theorem quadByte_rotWord (t : Quad) {j : Nat} (hj : j < 4) : quadByte (rotWord t) j = quadByte t ((j + 1) % 4) := by
  interval_cases j <;> rfl

theorem quadByte_quadOf (l : List Byte) {j : Nat} (hj : j < 4) : quadByte (quadOf l) j = l.getD j 0 := by
  interval_cases j <;> rfl

/-- The round constant is xored into byte 0 of its word only (rule R93). -/
theorem quadByte_rconWord (c : Byte) {j : Nat} (hj : j < 4) :
    quadByte ⟨c, 0, 0, 0⟩ j = if j = 0 then c else 0 := by
  interval_cases j <;> rfl

/-- The word of step i of rule R94, byte by byte. -/
theorem quadByte_scheduleWord (nk i : Nat) (prev : Quad) {j : Nat} (hj : j < 4) :
    quadByte (scheduleWord nk i prev) j =
      if i % nk = 0 then sBox (quadByte prev ((j + 1) % 4)) ^^^ (if j = 0 then rcon (i / nk) else 0)
      else if 6 < nk ∧ i % nk = 4 then sBox (quadByte prev j)
      else quadByte prev j := by
  unfold scheduleWord
  split
  · rw [quadByte_quadXor, quadByte_subWord, quadByte_rotWord prev hj, quadByte_rconWord _ hj]
  · split
    · exact quadByte_subWord prev j
    · rfl

/-! ## The expansion -/

/-- The recurrence of rule R94: when the loop comes to word i, the words before it are those of the end. -/
theorem getD_expandLoop (nk n : Nat) (w : List Quad) (hnk : 0 < nk) (hw : nk ≤ w.length) {i : Nat}
    (hi : w.length ≤ i) (hlt : i < w.length + n) :
    (expandLoop nk n w).getD i Quad.zero =
      quadXor ((expandLoop nk n w).getD (i - nk) Quad.zero)
        (scheduleWord nk i ((expandLoop nk n w).getD (i - 1) Quad.zero)) := by
  induction n generalizing w with
  | zero => omega
  | succ n ih =>
    obtain rfl | hgt := hi.eq_or_lt
    · have hnext : (expandLoop nk (n + 1) w).getD w.length Quad.zero = nextWord nk w := by
        rw [expandLoop, getD_expandLoop_of_lt _ _ _ _ (by simp)]
        simp
      rw [hnext, getD_expandLoop_of_lt _ _ _ _ (by omega), getD_expandLoop_of_lt _ _ _ _ (by omega), nextWord]
    · exact ih (w ++ [nextWord nk w]) (by simp; omega) (by simpa) (by simp; omega)

/-- The expansion starts with the words of the key, in byte order (rules R90, R94). -/
theorem quadByte_keyExpansion_of_lt (k : List Byte) {i j : Nat} (hi : i < k.length / 4) (hj : j < 4) :
    quadByte ((keyExpansion k).getD i Quad.zero) j = k.getD (4 * i + j) 0 := by
  rw [keyExpansion, getD_expandLoop_of_lt _ _ _ _ (by simpa), List.getD_eq_getElem?_getD,
    getElem?_wordsOf _ _ _ hi, Option.getD_some, quadByte_quadOf _ hj]
  simp [List.getD_eq_getElem?_getD]

theorem getD_keyExpansion (k : List Byte) (hk : 0 < k.length / 4) {i : Nat} (hi : k.length / 4 ≤ i)
    (hlt : i < 4 * (k.length / 4 + 7)) :
    (keyExpansion k).getD i Quad.zero =
      quadXor ((keyExpansion k).getD (i - k.length / 4) Quad.zero)
        (scheduleWord (k.length / 4) i ((keyExpansion k).getD (i - 1) Quad.zero)) :=
  getD_expandLoop _ _ _ hk (by simp) (by simpa) (by simp; omega)

/-! ## The round constants -/

theorem rcon_succ : ∀ j < 10, 1 ≤ j → rcon (j + 1) = gfMul (rcon j) 0x02 := by decide

/-- The recurrence uses the constants 1 to 10 only (rule R93). -/
theorem rcon_index_bounds {nk i : Nat} (hnk : nk = 4 ∨ nk = 6 ∨ nk = 8) (hi : nk ≤ i) (hlt : i < 4 * (nk + 7)) :
    1 ≤ i / nk ∧ i / nk ≤ 10 := by
  obtain rfl | rfl | rfl := hnk <;> omega

/-- Settles O23: the loop starts from the words of the key and satisfies the recurrence, read byte by byte. -/
theorem keyExpansionFollowsTheRecurrence : Obligations.KeyExpansionFollowsTheRecurrence := by
  refine ⟨fun k hk => ?_, rfl, rfl, rfl, fun j h1 h10 => rcon_succ j h10 h1,
    fun nk i hnk hi hlt _ => rcon_index_bounds hnk hi hlt⟩
  have hpos : 0 < k.length / 4 := by omega
  refine ⟨length_keyExpansion k, fun i j hi hj => quadByte_keyExpansion_of_lt k hi hj, fun i hi hlt j hj => ?_⟩
  rw [getD_keyExpansion k hpos hi hlt, quadByte_quadXor, quadByte_scheduleWord _ _ _ hj]

/-! ## Round keys -/

/-- Column c of RK(r) is word 4r + c of W (rule R96). -/
theorem blockColumn_roundKey (w : List Quad) (r : Nat) {c : Nat} (hc : c < 4) :
    blockColumn (roundKey w r) c = w.getD (4 * r + c) Quad.zero := by
  interval_cases c <;> rfl

theorem blockByte_roundKey (w : List Quad) (r : Nat) {k : Nat} (hk : k < 16) :
    blockByte (roundKey w r) k = quadByte (w.getD (4 * r + k / 4) Quad.zero) (k % 4) := by
  rw [blockByte, blockColumn_roundKey w r (by omega)]

/-- Settles O25: a round key is its four columns, and byte 16r + k of a sequence of blocks is byte k of block r. -/
theorem roundKeySlices : Obligations.RoundKeySlices := by
  refine ⟨fun w r k hk => blockByte_roundKey w r hk, fun key k hkey hk => ?_, fun w nr r k _ hr hk => ⟨?_, ?_⟩⟩
  · rw [blockByte_roundKey _ _ hk, Nat.mul_zero, Nat.zero_add,
      quadByte_keyExpansion_of_lt key (by omega) (Nat.mod_lt k (by decide)), Nat.div_add_mod]
  · rw [length_bytesOfBlocks, List.length_map, List.length_range, Nat.mul_comm]
  · rw [getElem?_bytesOfBlocks _ _ _ hk, List.getElem?_map, List.getElem?_range (by omega)]
    rfl

/-! ## KEYEXP -/

section Keyexp

variable {s : State} {src len : Half}

theorem exec_keyexp (src len : Half) (s : State) : exec (.keyexp src len) s = execKeyexp src len s := rfl

theorem exec_keyexp_of_bad_length (h : ¬ (len.toNat = 16 ∨ len.toNat = 24 ∨ len.toNat = 32)) :
    exec (.keyexp src len) s = raise .invalidKeyLength s := by
  have hbad : keyLengthOk len = false := Bool.eq_false_iff.2 fun hok => h ((keyLengthOk_iff len).1 hok)
  rw [exec_keyexp, execKeyexp, if_pos hbad]

variable (hlen : len.toNat = 16 ∨ len.toNat = 24 ∨ len.toNat = 32)
include hlen

theorem exec_keyexp_of_not_inRange (h : ¬ s.InRange src.toNat len.toNat) :
    exec (.keyexp src len) s = raise .bufferRange s := by
  have hok := (keyLengthOk_iff len).2 hlen
  rw [exec_keyexp, execKeyexp, if_neg (by simp [hok]), if_pos h]

theorem exec_keyexp_of_inRange (h : s.InRange src.toNat len.toNat) :
    exec (.keyexp src len) s = finish (loadKey (drew s len.toNat) (memRead s src.toNat len.toNat)) := by
  have hok := (keyLengthOk_iff len).2 hlen
  rw [exec_keyexp, execKeyexp, if_neg (by simp [hok]), if_neg (not_not.2 h)]

end Keyexp

/-- For the three lengths of a key, the fields KEYLEN, NK and NR are wide enough for their values (rule R24). -/
theorem toNat_loadKey_key {k : List Byte} {n : Nat} (hk : k.length = n) (hn : n = 16 ∨ n = 24 ∨ n = 32) (s : State) :
    (loadKey s k).key.kv = true ∧ (loadKey s k).key.keyLen.toNat = n ∧ (loadKey s k).key.nk.toNat = n / 4 ∧
      (loadKey s k).key.nr.toNat = n / 4 + 6 := by
  obtain hn | hn | hn := hn <;> simp [hk, hn]

/-- Settles O24: the three branches of KEYEXP, and W as the expansion followed by the words it held. -/
theorem keyexpLoadsTheKey : Obligations.KeyexpLoadsTheKey := by
  intro s src len
  refine ⟨fun hbad => ?_, fun hlen hrange => ?_, fun hlen hrange => ?_⟩
  · rw [exec_keyexp_of_bad_length (by simpa using hbad), raise_of_ne_ok (by decide)]
  · rw [exec_keyexp_of_not_inRange hlen hrange, raise_of_ne_ok (by decide)]
  · obtain ⟨hkv, hkeyLen, hnk, hnr⟩ := toNat_loadKey_key (length_memRead s src.toNat _) hlen (drew s len.toNat)
    refine ⟨_, exec_keyexp_of_inRange hlen hrange, rfl, fun a => rfl, hkv, hkeyLen, hnk, hnr, fun k hk hheld => ?_,
      fun h60 => ⟨?_, ?_⟩⟩ <;> rw [complete_w, loadKey_w]
    · rw [memRead_of_holdsBytes hk hheld, List.take_left' (by simp [hk])]
    · simp only [List.length_append, List.length_drop, length_keyExpansion, length_memRead, drew_w]
      omega
    · rw [List.drop_left' (by simp), length_keyExpansion, length_memRead, drew_w]

/-! ## STRK -/

/-- A command that ends with a store changes the buffer, ERR and BUSY only (rule R161). -/
theorem complete_memWrite_frame (s : State) (a : Nat) (l : List Byte) : complete .ok (memWrite s a l) =
    { s with buffer := (complete .ok (memWrite s a l)).buffer, err := .ok, busy := false } := rfl

theorem exec_strk (dst : Half) (r : Byte) (s : State) : exec (.strk dst r) s = execStrk dst r s := rfl

theorem exec_strk_of_inRange {s : State} {dst : Half} {r : Byte} (hkey : s.key.kv = true)
    (hr : r.toNat ≤ s.key.nr.toNat) (hrange : s.InRange dst.toNat 16) :
    exec (.strk dst r) s = finish (memWrite s dst.toNat (blockBytes (roundKey s.w r.toNat))) := by
  rw [exec_strk, execStrk, if_neg (by simp [hkey]), if_neg (by omega), if_neg (not_not.2 hrange)]

/-- Settles O26: the sixteen bytes stored at DST are those of the round key. -/
theorem strkStoresTheRoundKey : Obligations.StrkStoresTheRoundKey := by
  intro s dst r hkey hr hrange
  refine ⟨_, exec_strk_of_inRange hkey hr hrange, complete_memWrite_frame _ _ _, fun a ha => ?_, fun k hk => ?_⟩
  · rw [complete_buffer, memWrite_buffer, byte?_storeBytes_outside _ _ (by simpa using ha)]
  · rw [complete_buffer, memWrite_buffer, holdsBlock_storeBytes _ _ _ k hk, blockByte_roundKey _ _ hk]

end Sys2Proof.Machine
end

section
/-! PROOFS. The round transforms: what each does to the bytes, rows and columns of a block (42_round_transforms.md
rules R101 to R108). The column mixes are proved by linearity: an additive map of columns is known from its values on
the columns with a single bit. -/

namespace Sys2Proof.Machine

/-! ## Byte by byte: SubBytes and InvSubBytes -/

@[simp] theorem quadByte_quadMap (f : Byte → Byte) (t : Quad) (i : Nat) :
    quadByte (quadMap f t) i = f (quadByte t i) := by
  unfold quadByte
  split <;> rfl

@[simp] theorem blockColumn_blockMap (f : Byte → Byte) (b : Block) (c : Nat) :
    blockColumn (blockMap f b) c = quadMap f (blockColumn b c) := by
  unfold blockColumn
  split <;> rfl

theorem blockByte_blockMap (f : Byte → Byte) (b : Block) (k : Nat) :
    blockByte (blockMap f b) k = f (blockByte b k) := by
  rw [blockByte, blockColumn_blockMap, quadByte_quadMap, blockByte]

theorem blockByte_subBytes (b : Block) (k : Nat) : blockByte (subBytes b) k = sBox (blockByte b k) :=
  blockByte_blockMap sBox b k

theorem blockByte_invSubBytes (b : Block) (k : Nat) : blockByte (invSubBytes b) k = invSBox (blockByte b k) :=
  blockByte_blockMap invSBox b k

@[simp] theorem invSubBytes_subBytes (b : Block) : invSubBytes (subBytes b) = b :=
  block_ext_bytes fun k _ => by rw [blockByte_invSubBytes, blockByte_subBytes, invSBox_sBox]

@[simp] theorem subBytes_invSubBytes (b : Block) : subBytes (invSubBytes b) = b :=
  block_ext_bytes fun k _ => by rw [blockByte_subBytes, blockByte_invSubBytes, sBox_invSBox]

/-! ## Row by row: ShiftRows and InvShiftRows -/

theorem blockByte_shiftRows_row_column (b : Block) {r c : Nat} (hr : r < 4) (hc : c < 4) :
    blockByte (shiftRows b) (r + 4 * c) = blockByte b (r + 4 * ((c + r) % 4)) := by
  interval_cases r <;> interval_cases c <;> rfl

theorem blockByte_invShiftRows_row_column (b : Block) {r c : Nat} (hr : r < 4) (hc : c < 4) :
    blockByte (invShiftRows b) (r + 4 * c) = blockByte b (r + 4 * ((c + 4 - r) % 4)) := by
  interval_cases r <;> interval_cases c <;> rfl

/-- The byte map of rule R103: which byte of the argument stands at byte k of the result. -/
theorem blockByte_shiftRows (b : Block) : ∀ k, k < 16 →
    blockByte (shiftRows b) k = blockByte b ([0, 5, 10, 15, 4, 9, 14, 3, 8, 13, 2, 7, 12, 1, 6, 11].getD k 0) :=
  forall_lt_sixteen ⟨rfl, rfl, rfl, rfl, rfl, rfl, rfl, rfl, rfl, rfl, rfl, rfl, rfl, rfl, rfl, rfl⟩

/-- The byte map of rule R104. -/
theorem blockByte_invShiftRows (b : Block) : ∀ k, k < 16 →
    blockByte (invShiftRows b) k = blockByte b ([0, 13, 10, 7, 4, 1, 14, 11, 8, 5, 2, 15, 12, 9, 6, 3].getD k 0) :=
  forall_lt_sixteen ⟨rfl, rfl, rfl, rfl, rfl, rfl, rfl, rfl, rfl, rfl, rfl, rfl, rfl, rfl, rfl, rfl⟩

@[simp] theorem invShiftRows_shiftRows (b : Block) : invShiftRows (shiftRows b) = b := rfl

@[simp] theorem shiftRows_invShiftRows (b : Block) : shiftRows (invShiftRows b) = b := rfl

/-- ShiftRows moves bytes, so it commutes with a map of every byte. -/
theorem shiftRows_blockMap (f : Byte → Byte) (b : Block) : shiftRows (blockMap f b) = blockMap f (shiftRows b) := rfl

theorem invShiftRows_blockMap (f : Byte → Byte) (b : Block) :
    invShiftRows (blockMap f b) = blockMap f (invShiftRows b) := rfl

/-- Settles O29: each byte by the maps above, and the commands end in `finish` with STATE transformed. -/
theorem byteAndRowTransforms : Obligations.ByteAndRowTransforms := by
  refine ⟨fun b k hk => ?_, fun b r c hr hc => ?_, fun b => ?_, fun s => ?_⟩
  · exact ⟨blockByte_subBytes b k, blockByte_invSubBytes b k, blockByte_shiftRows b k hk,
      blockByte_invShiftRows b k hk⟩
  · exact ⟨blockByte_shiftRows_row_column b hr hc, blockByte_invShiftRows_row_column b hr hc⟩
  · exact ⟨invShiftRows_shiftRows b, shiftRows_invShiftRows b⟩
  · exact ⟨finish_eq _, finish_eq _, finish_eq _, finish_eq _⟩

/-! ## Columns -/

theorem blockByte_column_row (b : Block) (c : Nat) {i : Nat} (hi : i < 4) :
    blockByte b (4 * c + i) = quadByte (blockColumn b c) i := by
  rw [Nat.add_comm, blockByte_row_column b i c hi]

@[simp] theorem blockColumn_blockXor (b c : Block) (j : Nat) :
    blockColumn (blockXor b c) j = quadXor (blockColumn b j) (blockColumn c j) := by
  unfold blockColumn
  split <;> rfl

@[simp] theorem blockColumn_mixColumns (b : Block) (j : Nat) :
    blockColumn (mixColumns b) j = mixColumn (blockColumn b j) := by
  unfold blockColumn
  split <;> rfl

@[simp] theorem blockColumn_invMixColumns (b : Block) (j : Nat) :
    blockColumn (invMixColumns b) j = invMixColumn (blockColumn b j) := by
  unfold blockColumn
  split <;> rfl

/-- The matrix `M` of rule R105. -/
def mixMatrix : List (List Byte) := [[2, 3, 1, 1], [1, 2, 3, 1], [1, 1, 2, 3], [3, 1, 1, 2]]

/-- The matrix `M^-1` of rule R105. -/
def invMixMatrix : List (List Byte) :=
  [[0xE, 0xB, 0xD, 9], [9, 0xE, 0xB, 0xD], [0xD, 9, 0xE, 0xB], [0xB, 0xD, 9, 0xE]]

/-- Byte i of the product of a matrix and a column (rules R105, R106). -/
def rowProduct (m : List (List Byte)) (a : Quad) (i : Nat) : Byte :=
  gfMul ((m.getD i []).getD 0 0) (quadByte a 0) ^^^ gfMul ((m.getD i []).getD 1 0) (quadByte a 1) ^^^
  gfMul ((m.getD i []).getD 2 0) (quadByte a 2) ^^^ gfMul ((m.getD i []).getD 3 0) (quadByte a 3)

theorem quadByte_mixColumn (a : Quad) {i : Nat} (hi : i < 4) :
    quadByte (mixColumn a) i = rowProduct mixMatrix a i := by
  interval_cases i <;>
    simp only [rowProduct, mixMatrix, List.getD_cons_zero, List.getD_cons_succ, one_gfMul] <;> rfl

theorem quadByte_invMixColumn (a : Quad) {i : Nat} (hi : i < 4) :
    quadByte (invMixColumn a) i = rowProduct invMixMatrix a i := by
  interval_cases i <;> rfl

/-! ## Additive maps of columns -/

theorem rowProduct_quadXor (m : List (List Byte)) (a b : Quad) (i : Nat) :
    rowProduct m (quadXor a b) i = rowProduct m a i ^^^ rowProduct m b i := by
  simp only [rowProduct, quadByte_quadXor, gfMul_xor]
  ac_rfl

/-- `f` carries sums of columns to sums. -/
def ColumnAdditive (f : Quad → Quad) : Prop := ∀ a b, f (quadXor a b) = quadXor (f a) (f b)

/-- A map that is the product with a matrix is additive. -/
theorem columnAdditive_of_rowProduct {f : Quad → Quad} {m : List (List Byte)}
    (h : ∀ a i, i < 4 → quadByte (f a) i = rowProduct m a i) : ColumnAdditive f := fun a b =>
  quad_ext_bytes fun i hi => by rw [quadByte_quadXor, h _ i hi, h _ i hi, h _ i hi, rowProduct_quadXor]

theorem columnAdditive_mixColumn : ColumnAdditive mixColumn :=
  columnAdditive_of_rowProduct fun a _ hi => quadByte_mixColumn a hi

theorem columnAdditive_invMixColumn : ColumnAdditive invMixColumn :=
  columnAdditive_of_rowProduct fun a _ hi => quadByte_invMixColumn a hi

/-- The column with the byte `x` in row j and zeros elsewhere. -/
def columnAt (j : Nat) (x : Byte) : Quad :=
  ⟨if j = 0 then x else 0, if j = 1 then x else 0, if j = 2 then x else 0, if j = 3 then x else 0⟩

theorem columnAt_xor (j : Nat) (x y : Byte) : columnAt j (x ^^^ y) = quadXor (columnAt j x) (columnAt j y) := by
  have hrow (i : Nat) : (if j = i then x ^^^ y else 0) = (if j = i then x else 0) ^^^ (if j = i then y else 0) := by
    split <;> simp
  simp only [columnAt, quadXor, hrow]

theorem eq_quadXor_columnAt (a : Quad) :
    a = quadXor (quadXor (columnAt 0 a.b0) (columnAt 1 a.b1)) (quadXor (columnAt 2 a.b2) (columnAt 3 a.b3)) := by
  simp [quadXor, columnAt]

namespace ColumnAdditive

variable {f g : Quad → Quad}

theorem comp (hf : ColumnAdditive f) (hg : ColumnAdditive g) : ColumnAdditive (f ∘ g) :=
  fun a b => (congrArg f (hg a b)).trans (hf _ _)

/-- An additive map that fixes the zero column and the columns with a single bit is the identity. -/
theorem eq_self (hf : ColumnAdditive f) (zero : f Quad.zero = Quad.zero)
    (bit : ∀ j < 4, ∀ i < 8, f (columnAt j (BitVec.twoPow 8 i)) = columnAt j (BitVec.twoPow 8 i)) (a : Quad) :
    f a = a := by
  have hcolumn (j : Nat) (hj : j < 4) (x : Byte) : f (columnAt j x) = columnAt j x := by
    induction x using bitVec_xor_induction with
    | zero => simpa [columnAt, Quad.zero] using zero
    | bit i hi => exact bit j hj i hi
    | xor x y hx hy => rw [columnAt_xor, hf, hx, hy]
  rw [eq_quadXor_columnAt a, hf, hf, hf, hcolumn 0 (by decide), hcolumn 1 (by decide), hcolumn 2 (by decide),
    hcolumn 3 (by decide)]

end ColumnAdditive

/-! ## Column by column: MixColumns and InvMixColumns -/

theorem invMixColumn_mixColumn (a : Quad) : invMixColumn (mixColumn a) = a :=
  (columnAdditive_invMixColumn.comp columnAdditive_mixColumn).eq_self (by decide) (by decide) a

theorem mixColumn_invMixColumn (a : Quad) : mixColumn (invMixColumn a) = a :=
  (columnAdditive_mixColumn.comp columnAdditive_invMixColumn).eq_self (by decide) (by decide) a

@[simp] theorem invMixColumns_mixColumns (b : Block) : invMixColumns (mixColumns b) = b :=
  block_ext_columns fun c _ => by rw [blockColumn_invMixColumns, blockColumn_mixColumns, invMixColumn_mixColumn]

@[simp] theorem mixColumns_invMixColumns (b : Block) : mixColumns (invMixColumns b) = b :=
  block_ext_columns fun c _ => by rw [blockColumn_mixColumns, blockColumn_invMixColumns, mixColumn_invMixColumn]

/-- MixColumns is linear (rule R108). -/
theorem mixColumns_blockXor (b c : Block) : mixColumns (blockXor b c) = blockXor (mixColumns b) (mixColumns c) :=
  block_ext_columns fun j _ => by simp [columnAdditive_mixColumn (blockColumn b j)]

theorem invMixColumns_blockXor (b c : Block) :
    invMixColumns (blockXor b c) = blockXor (invMixColumns b) (invMixColumns c) :=
  block_ext_columns fun j _ => by simp [columnAdditive_invMixColumn (blockColumn b j)]

/-- The product with a column of a block, written with the bytes of the block. -/
theorem rowProduct_blockColumn (m : List (List Byte)) (b : Block) (c i : Nat) :
    rowProduct m (blockColumn b c) i =
      gfMul ((m.getD i []).getD 0 0) (blockByte b (4 * c)) ^^^
      gfMul ((m.getD i []).getD 1 0) (blockByte b (4 * c + 1)) ^^^
      gfMul ((m.getD i []).getD 2 0) (blockByte b (4 * c + 2)) ^^^
      gfMul ((m.getD i []).getD 3 0) (blockByte b (4 * c + 3)) := by
  have hfirst : blockByte b (4 * c) = quadByte (blockColumn b c) 0 :=
    blockByte_column_row b c (i := 0) (by decide)
  rw [hfirst, blockByte_column_row b c (i := 1) (by decide), blockByte_column_row b c (i := 2) (by decide),
    blockByte_column_row b c (i := 3) (by decide), rowProduct]

/-- Settles O30: each column is the product with the matrix, and the products undo each other by linearity. -/
theorem columnTransforms : Obligations.ColumnTransforms := by
  refine ⟨fun b c i _ hi => ⟨?_, ?_⟩, fun b => ?_, fun s => ?_⟩
  · rw [blockByte_column_row _ c hi, blockColumn_mixColumns, quadByte_mixColumn _ hi]
    exact rowProduct_blockColumn mixMatrix b c i
  · rw [blockByte_column_row _ c hi, blockColumn_invMixColumns, quadByte_invMixColumn _ hi]
    exact rowProduct_blockColumn invMixMatrix b c i
  · exact ⟨invMixColumns_mixColumns b, mixColumns_invMixColumns b⟩
  · exact ⟨finish_eq _, finish_eq _⟩

/-! ## The algebra of the transforms (rule R108) -/

/-- Settles O32: the inverse laws and linearity from above, and each locality from the byte, row or column a
transform reads. -/
theorem transformAlgebra : Obligations.TransformAlgebra := by
  refine ⟨fun b => ?_, fun b => ?_, fun b c => ?_, fun b c j _ hcolumn => ?_, fun b c r hr hrow j hj => ?_,
    fun b c k _ hbyte => ?_⟩
  · exact ⟨invSubBytes_subBytes b, subBytes_invSubBytes b, invShiftRows_shiftRows b, shiftRows_invShiftRows b,
      invMixColumns_mixColumns b, mixColumns_invMixColumns b⟩
  · exact ⟨shiftRows_blockMap sBox b, invShiftRows_blockMap invSBox b⟩
  · exact ⟨mixColumns_blockXor b c, invMixColumns_blockXor b c⟩
  · simp only [blockColumn_mixColumns, blockColumn_invMixColumns, hcolumn, and_self]
  · rw [blockByte_shiftRows_row_column b hr hj, blockByte_shiftRows_row_column c hr hj,
      hrow _ (Nat.mod_lt _ (by decide))]
  · rw [blockByte_subBytes, blockByte_subBytes, hbyte]

/-! ## AddRoundKey and ARK -/

theorem blockByte_addRoundKey (w : List Quad) (b : Block) (r : Nat) {k : Nat} (hk : k < 16) :
    blockByte (addRoundKey w b r) k = blockByte b k ^^^ blockByte (roundKey w r) k :=
  blockByte_blockXor b (roundKey w r) k hk

@[simp] theorem addRoundKey_addRoundKey (w : List Quad) (b : Block) (r : Nat) :
    addRoundKey w (addRoundKey w b r) r = b := blockXor_cancel_right b (roundKey w r)

theorem exec_ark (r : Byte) (s : State) : exec (.ark r) s = execArk r s := rfl

/-- Settles O31: AddRoundKey is an XOR, and ARK takes its two checks in order. -/
theorem addRoundKeyAndArk : Obligations.AddRoundKeyAndArk := by
  refine ⟨fun w b r k hk => blockByte_addRoundKey w b r hk, addRoundKey_addRoundKey,
    fun s r => ⟨fun hkey => ?_, fun hkey hr => ?_, fun hkey hr => ?_⟩⟩ <;> rw [exec_ark, execArk]
  · rw [if_pos hkey, raise_of_ne_ok (by decide)]
  · rw [if_neg (by simp [hkey]), if_pos (by omega), raise_of_ne_ok (by decide)]
  · rw [if_neg (by simp [hkey]), if_neg (by omega), finish_eq]

end Sys2Proof.Machine
end

section
/-! PROOFS. The commands that move STATE and CHAIN from and to the buffer: LDST, LDIV, STST and STIV
(42_round_transforms.md rules R109, R110; 44_modes.md rules R136, R137). -/

namespace Sys2Proof.Machine

variable {s : State} {src dst : Half}

/-! ## Loads -/

theorem exec_ldst (src : Half) (s : State) : exec (.ldst src) s = execLdst src s := rfl

theorem exec_ldst_of_inRange (h : s.InRange src.toNat 16) :
    exec (.ldst src) s = finish { drew s 16 with block := blockOf (memRead s src.toNat 16) } := by
  rw [exec_ldst, execLdst, if_neg (not_not.2 h)]

theorem exec_ldiv (src len : Half) (s : State) : exec (.ldiv src len) s = execLdiv src len s := rfl

theorem exec_ldiv_of_inRange (h : s.InRange src.toNat 16) :
    exec (.ldiv src 16) s = finish { drew s 16 with chain := blockOf (memRead s src.toNat 16) } := by
  rw [exec_ldiv, execLdiv, if_neg (not_not.2 rfl), if_neg (not_not.2 h)]

/-- Settles O27: the register becomes the block read at SRC, byte k of which is the byte held at SRC + k. -/
theorem loadsFillTheRegister : Obligations.LoadsFillTheRegister := fun _ _ hrange =>
  ⟨⟨_, exec_ldst_of_inRange hrange, rfl, fun _ => rfl, fun _ _ hk hheld => blockByte_blockOf_memRead hk hheld⟩,
    ⟨_, exec_ldiv_of_inRange hrange, rfl, fun _ => rfl, fun _ _ hk hheld => blockByte_blockOf_memRead hk hheld⟩⟩

/-! ## Stores -/

theorem exec_stst (dst : Half) (s : State) : exec (.stst dst) s = execStst dst s := rfl

theorem exec_stst_of_inRange (h : s.InRange dst.toNat 16) :
    exec (.stst dst) s = finish (memWrite s dst.toNat (blockBytes s.block)) := by
  rw [exec_stst, execStst, if_neg (not_not.2 h)]

theorem exec_stiv (dst : Half) (s : State) : exec (.stiv dst) s = execStiv dst s := rfl

theorem exec_stiv_of_inRange (h : s.InRange dst.toNat 16) :
    exec (.stiv dst) s = finish (memWrite s dst.toNat (blockBytes s.chain)) := by
  rw [exec_stiv, execStiv, if_neg (not_not.2 h)]

/-- A command that ends with the store of a block changes those sixteen bytes, ERR and BUSY only (rules R49, R161). -/
theorem finish_memWrite_blockBytes (s : State) (a : Nat) (b : Block) :
    ∃ t : State, finish (memWrite s a (blockBytes b)) = .next t ∧
      t = { s with buffer := t.buffer, err := .ok, busy := false } ∧ SameBytesOutside a 16 s t ∧
      HoldsBlock t.buffer a b := by
  refine ⟨_, rfl, complete_memWrite_frame _ _ _, fun c hc => ?_, ?_⟩ <;> rw [complete_buffer, memWrite_buffer]
  · exact byte?_storeBytes_outside _ _ hc
  · exact holdsBlock_storeBytes s.buffer a b

/-- Settles O28: each command ends with the store of its register at DST. -/
theorem storesWriteTheRegister : Obligations.StoresWriteTheRegister := by
  refine fun s dst hrange => ⟨?_, ?_⟩
  · rw [exec_stst_of_inRange hrange]
    exact finish_memWrite_blockBytes s dst.toNat s.block
  · rw [exec_stiv_of_inRange hrange]
    exact finish_memWrite_blockBytes s dst.toNat s.chain

end Sys2Proof.Machine
end

section
/-! PROOFS. The block cipher and its inverse, ENCBLK and DECBLK, and the sequences of round commands that equal them
(43_block_cipher.md rules R118 to R125). -/

namespace Sys2Proof.Machine

/-! ## Cipher and InvCipher undo each other -/

/-- The last of n + 1 rounds of rule R118 (the recursion takes the first one off). -/
theorem cipherRounds_succ (w : List Quad) (r n : Nat) (b : Block) :
    cipherRounds w r (n + 1) b = addRoundKey w (mixColumns (shiftRows (subBytes (cipherRounds w r n b)))) (r + n) := by
  induction n generalizing r b with
  | zero => rfl
  | succ n ih => rw [cipherRounds, ih, Nat.add_right_comm, Nat.add_assoc]; rfl

/-- The inverse rounds take the SubBytes and ShiftRows of the final round back past the rounds 1 to n. -/
theorem invCipherRounds_cipherRounds (w : List Quad) (n : Nat) (b : Block) :
    invCipherRounds w n (shiftRows (subBytes (cipherRounds w 1 n b))) = shiftRows (subBytes b) := by
  induction n with
  | zero => rfl
  | succ n ih =>
    rw [cipherRounds_succ, invCipherRounds, invShiftRows_shiftRows, invSubBytes_subBytes, Nat.add_comm 1,
      addRoundKey_addRoundKey, invMixColumns_mixColumns, ih]

/-- The rounds 1 to n take the InvShiftRows and InvSubBytes of the last step back past the inverse rounds. -/
theorem cipherRounds_invCipherRounds (w : List Quad) (n : Nat) (b : Block) :
    cipherRounds w 1 n (invSubBytes (invShiftRows (invCipherRounds w n b))) = invSubBytes (invShiftRows b) := by
  induction n generalizing b with
  | zero => rfl
  | succ n ih =>
    rw [cipherRounds_succ, invCipherRounds, ih, subBytes_invSubBytes, shiftRows_invShiftRows,
      mixColumns_invMixColumns, Nat.add_comm 1, addRoundKey_addRoundKey]

@[simp] theorem invCipher_cipher (w : List Quad) (nr : Nat) (b : Block) : invCipher w nr (cipher w nr b) = b := by
  rw [invCipher, cipher, addRoundKey_addRoundKey, invCipherRounds_cipherRounds, invShiftRows_shiftRows,
    invSubBytes_subBytes, addRoundKey_addRoundKey]

@[simp] theorem cipher_invCipher (w : List Quad) (nr : Nat) (b : Block) : cipher w nr (invCipher w nr b) = b := by
  rw [cipher, invCipher, addRoundKey_addRoundKey, cipherRounds_invCipherRounds, subBytes_invSubBytes,
    shiftRows_invShiftRows, addRoundKey_addRoundKey]

/-! ## Commands that transform STATE -/

/-- The state after a command that completes with STATE = `b` and no other write (rule R161). -/
def State.withBlock (s : State) (b : Block) : State := { s with block := b, err := .ok, busy := false }

@[simp] theorem State.withBlock_block (s : State) (b : Block) : (s.withBlock b).block = b := rfl
@[simp] theorem State.withBlock_w (s : State) (b : Block) : (s.withBlock b).w = s.w := rfl
@[simp] theorem State.withBlock_key (s : State) (b : Block) : (s.withBlock b).key = s.key := rfl
@[simp] theorem State.withBlock_withBlock (s : State) (b c : Block) : (s.withBlock b).withBlock c = s.withBlock c := rfl

@[simp] theorem exec_subb (s : State) : exec .subb s = .next (s.withBlock (subBytes s.block)) := rfl
@[simp] theorem exec_invsubb (s : State) : exec .invsubb s = .next (s.withBlock (invSubBytes s.block)) := rfl
@[simp] theorem exec_shrow (s : State) : exec .shrow s = .next (s.withBlock (shiftRows s.block)) := rfl
@[simp] theorem exec_invshrow (s : State) : exec .invshrow s = .next (s.withBlock (invShiftRows s.block)) := rfl
@[simp] theorem exec_mixcol (s : State) : exec .mixcol s = .next (s.withBlock (mixColumns s.block)) := rfl
@[simp] theorem exec_invmixcol (s : State) : exec .invmixcol s = .next (s.withBlock (invMixColumns s.block)) := rfl

theorem exec_encblk (s : State) : exec .encblk s = execEncblk s := rfl

theorem exec_decblk (s : State) : exec .decblk s = execDecblk s := rfl

theorem exec_encblk_of_noKey {s : State} (h : s.key.kv = false) : exec .encblk s = raise .noKey s := by
  rw [exec_encblk, execEncblk, if_pos h]

theorem exec_decblk_of_noKey {s : State} (h : s.key.kv = false) : exec .decblk s = raise .noKey s := by
  rw [exec_decblk, execDecblk, if_pos h]

section WithKey

variable {s : State} (hkey : s.key.kv = true)
include hkey

theorem exec_encblk_of_key : exec .encblk s = .next (s.withBlock (cipher s.w s.key.nr.toNat s.block)) := by
  rw [exec_encblk, execEncblk, if_neg (by simp [hkey])]
  rfl

theorem exec_decblk_of_key : exec .decblk s = .next (s.withBlock (invCipher s.w s.key.nr.toNat s.block)) := by
  rw [exec_decblk, execDecblk, if_neg (by simp [hkey])]
  rfl

/-- ARK with a round index that the key has; NR is a 4-bit field, so the index fits its byte (rules R24, R117). -/
theorem exec_ark_of_le_nr {r : Nat} (hr : r ≤ s.key.nr.toNat) :
    exec (.ark (BitVec.ofNat 8 r)) s = .next (s.withBlock (addRoundKey s.w s.block r)) := by
  have hfits : (BitVec.ofNat 8 r).toNat = r := Nat.mod_eq_of_lt (by have := s.key.nr.isLt; omega)
  rw [exec_ark, execArk, hfits, if_neg (by simp [hkey]), if_neg (by omega)]
  rfl

end WithKey

/-- Settles O33: both commands check the key and end in `finish` with STATE transformed. -/
theorem blockCommandsTransformState : Obligations.BlockCommandsTransformState := by
  refine fun s => ⟨fun hkey => ⟨exec_encblk_of_key hkey, exec_decblk_of_key hkey⟩, fun hkey => ⟨?_, ?_⟩⟩
  · rw [exec_encblk_of_noKey hkey, raise_of_ne_ok (by decide)]
  · rw [exec_decblk_of_noKey hkey, raise_of_ne_ok (by decide)]

/-! ## Sequences of commands -/

theorem execAll_cons {i : Instr} {s t : State} (h : exec i s = .next t) (is : List Instr) :
    execAll (i :: is) s = execAll is t := by
  rw [execAll, h]

theorem execAll_append {is : List Instr} {s t : State} (h : execAll is s = .next t) (js : List Instr) :
    execAll (is ++ js) s = execAll js t := by
  induction is generalizing s with
  | nil => cases h; rfl
  | cons i is ih =>
    rw [List.cons_append]
    rw [execAll] at h ⊢
    split at h
    next u hu => exact ih h
    · cases h
    · cases h

/-- Settles O34: the rounds undo each other one by one, and each command leaves the key and W as they were. -/
theorem cipherRoundTrip : Obligations.CipherRoundTrip := by
  refine ⟨fun w nr b => ⟨invCipher_cipher w nr b, cipher_invCipher w nr b⟩, fun s hkey => ⟨?_, ?_⟩⟩
  · rw [execAll_cons (exec_encblk_of_key hkey), execAll_cons (exec_decblk_of_key (s := s.withBlock _) hkey)]
    simp [execAll, State.withBlock]
  · rw [execAll_cons (exec_decblk_of_key hkey), execAll_cons (exec_encblk_of_key (s := s.withBlock _) hkey)]
    simp [execAll, State.withBlock]

/-! ## The sequences of rule R123 -/

/-- The commands of round r of ENCBLK. -/
def encblkRound (r : Nat) : List Instr := [.subb, .shrow, .mixcol, .ark (BitVec.ofNat 8 r)]

/-- The commands of round r of DECBLK. -/
def decblkRound (r : Nat) : List Instr := [.invshrow, .invsubb, .ark (BitVec.ofNat 8 r), .invmixcol]

theorem encblkSequence_eq (nr : Nat) : encblkSequence nr =
    .ark (BitVec.ofNat 8 0) :: ((List.range' 1 (nr - 1)).flatMap encblkRound ++
      [.subb, .shrow, .ark (BitVec.ofNat 8 nr)]) := rfl

theorem decblkSequence_eq (nr : Nat) : decblkSequence nr =
    .ark (BitVec.ofNat 8 nr) :: ((List.range' 1 (nr - 1)).reverse.flatMap decblkRound ++
      [.invshrow, .invsubb, .ark (BitVec.ofNat 8 0)]) := rfl

section Sequences

variable {s : State} (hkey : s.key.kv = true)
include hkey

/-- Between two commands of a sequence the state is `s` with another STATE, so ARK finds the key of `s`. -/
theorem exec_ark_withBlock (b : Block) {r : Nat} (hr : r ≤ s.key.nr.toNat) :
    exec (.ark (BitVec.ofNat 8 r)) (s.withBlock b) = .next (s.withBlock (addRoundKey s.w b r)) :=
  exec_ark_of_le_nr (s := s.withBlock b) hkey hr

theorem execAll_encblkRound (b : Block) {r : Nat} (hr : r ≤ s.key.nr.toNat) :
    execAll (encblkRound r) (s.withBlock b) =
      .next (s.withBlock (addRoundKey s.w (mixColumns (shiftRows (subBytes b))) r)) := by
  simp [encblkRound, execAll, exec_ark_withBlock hkey _ hr]

theorem execAll_decblkRound (b : Block) {r : Nat} (hr : r ≤ s.key.nr.toNat) :
    execAll (decblkRound r) (s.withBlock b) =
      .next (s.withBlock (invMixColumns (addRoundKey s.w (invSubBytes (invShiftRows b)) r))) := by
  simp [decblkRound, execAll, exec_ark_withBlock hkey _ hr]

theorem execAll_encblkRounds (n r : Nat) (b : Block) (hr : r + n ≤ s.key.nr.toNat + 1) :
    execAll ((List.range' r n).flatMap encblkRound) (s.withBlock b) =
      .next (s.withBlock (cipherRounds s.w r n b)) := by
  induction n generalizing r b with
  | zero => rfl
  | succ n ih =>
    rw [List.range'_succ, List.flatMap_cons, execAll_append (execAll_encblkRound hkey b (by omega)),
      ih _ _ (by omega), cipherRounds]

theorem execAll_decblkRounds (n : Nat) (b : Block) (hn : n ≤ s.key.nr.toNat) :
    execAll ((List.range' 1 n).reverse.flatMap decblkRound) (s.withBlock b) =
      .next (s.withBlock (invCipherRounds s.w n b)) := by
  induction n generalizing b with
  | zero => rfl
  | succ n ih =>
    rw [List.range'_1_concat, List.reverse_concat, List.flatMap_cons, Nat.add_comm 1,
      execAll_append (execAll_decblkRound hkey b hn), ih _ (by omega), invCipherRounds]

theorem execAll_encblkSequence :
    execAll (encblkSequence s.key.nr.toNat) s = .next (s.withBlock (cipher s.w s.key.nr.toNat s.block)) := by
  rw [encblkSequence_eq, execAll_cons (exec_ark_of_le_nr hkey (Nat.zero_le _)),
    execAll_append (execAll_encblkRounds hkey _ _ _ (by omega))]
  simp [execAll, exec_ark_withBlock hkey _ le_rfl, cipher, -BitVec.ofNat_toNat]

theorem execAll_decblkSequence :
    execAll (decblkSequence s.key.nr.toNat) s = .next (s.withBlock (invCipher s.w s.key.nr.toNat s.block)) := by
  rw [decblkSequence_eq, execAll_cons (exec_ark_of_le_nr hkey le_rfl),
    execAll_append (execAll_decblkRounds hkey _ _ (by omega))]
  simp [execAll, exec_ark_withBlock hkey _ (Nat.zero_le _), invCipher]

end Sequences

/-- Settles O36: round by round, both sides end with the same STATE. -/
theorem blockCommandsEqualTheirSequences : Obligations.BlockCommandsEqualTheirSequences := fun _ hkey =>
  ⟨⟨_, exec_encblk_of_key hkey, execAll_encblkSequence hkey⟩,
    ⟨_, exec_decblk_of_key hkey, execAll_decblkSequence hkey⟩⟩

/-! ## The known-answer vector -/

/-- Settles O35: a closed computation, ten rounds and a key expansion that the kernel evaluates. -/
theorem knownAnswerVector : Obligations.KnownAnswerVector := by
  unfold Obligations.KnownAnswerVector
  decide +kernel

end Sys2Proof.Machine
end

section
/-! PROOFS. ECB and CBC: the laws of the mode functions on sequences of blocks, and what the four mode commands make of
the buffer, CHAIN and STATE (44_modes.md rules R126 to R142). -/

namespace Sys2Proof.Machine

/-! ## The mode functions, block by block -/

section ModeFunctions

variable {w : List Quad} {nr : Nat} {iv b prev : Block} {l : List Block} {i : Nat}

theorem getElem?_ecbE (hb : l[i]? = some b) : (ecbE w nr l)[i]? = some (cipher w nr b) := by
  rw [ecbE, List.getElem?_map, hb, Option.map_some]

theorem getElem?_ecbD (hb : l[i]? = some b) : (ecbD w nr l)[i]? = some (invCipher w nr b) := by
  rw [ecbD, List.getElem?_map, hb, Option.map_some]

/-- Block i of CBC encryption. The block before it stands at i in the list of the IV and the output (rule R128). -/
theorem getElem?_cbcE (hb : l[i]? = some b) (hprev : (iv :: (cbcE w nr iv l).1)[i]? = some prev) :
    (cbcE w nr iv l).1[i]? = some (cipher w nr (blockXor b prev)) := by
  induction l generalizing iv i with
  | nil => cases hb
  | cons p ps ih =>
    cases i with
    | zero =>
      cases hb
      cases hprev
      rfl
    | succ i => exact ih hb hprev

/-- Block i of CBC decryption. The block before it stands at i in the list of the IV and the input (rule R129). -/
theorem getElem?_cbcD (hb : l[i]? = some b) (hprev : (iv :: l)[i]? = some prev) :
    (cbcD w nr iv l).1[i]? = some (blockXor (invCipher w nr b) prev) := by
  induction l generalizing iv i with
  | nil => cases hb
  | cons c cs ih =>
    cases i with
    | zero =>
      cases hb
      cases hprev
      rfl
    | succ i => exact ih hb hprev

/-- The running block at the end of CBC encryption is the last output block, or the IV (rule R128). -/
theorem getElem?_cbcE_length (w : List Quad) (nr : Nat) (iv : Block) (l : List Block) :
    (iv :: (cbcE w nr iv l).1)[l.length]? = some (cbcE w nr iv l).2 := by
  induction l generalizing iv with
  | nil => rfl
  | cons p ps ih => exact ih (cipher w nr (blockXor p iv))

/-- The running block at the end of CBC decryption is the last input block, or the IV (rule R129). -/
theorem getElem?_cbcD_length (w : List Quad) (nr : Nat) (iv : Block) (l : List Block) :
    (iv :: l)[l.length]? = some (cbcD w nr iv l).2 := by
  induction l generalizing iv with
  | nil => rfl
  | cons c cs ih => exact ih c

end ModeFunctions

/-! ## The laws of the mode functions (rule R130) -/

theorem ecbD_ecbE (w : List Quad) (nr : Nat) (p : List Block) : ecbD w nr (ecbE w nr p) = p := by
  simp [ecbD, ecbE, Function.comp_def]

theorem cbcD_cbcE (w : List Quad) (nr : Nat) (iv : Block) (p : List Block) :
    cbcD w nr iv (cbcE w nr iv p).1 = (p, (cbcE w nr iv p).2) := by
  induction p generalizing iv with
  | nil => rfl
  | cons b bs ih => simp only [cbcE, cbcD, ih, invCipher_cipher, blockXor_cancel_right]

theorem cbcE_append (w : List Quad) (nr : Nat) (iv : Block) (p q : List Block) :
    cbcE w nr iv (p ++ q) =
      ((cbcE w nr iv p).1 ++ (cbcE w nr (cbcE w nr iv p).2 q).1, (cbcE w nr (cbcE w nr iv p).2 q).2) := by
  induction p generalizing iv with
  | nil => rfl
  | cons b bs ih => simp only [List.cons_append, cbcE, ih]

theorem cbcD_append (w : List Quad) (nr : Nat) (iv : Block) (c d : List Block) :
    cbcD w nr iv (c ++ d) =
      ((cbcD w nr iv c).1 ++ (cbcD w nr (cbcD w nr iv c).2 d).1, (cbcD w nr (cbcD w nr iv c).2 d).2) := by
  induction c generalizing iv with
  | nil => rfl
  | cons b bs ih => simp only [List.cons_append, cbcD, ih]

theorem getElem?_cbcE_zero_iv (w : List Quad) (nr : Nat) (p : List Block) :
    (cbcE w nr Block.zero p).1[0]? = (ecbE w nr p)[0]? := by
  cases p with
  | nil => rfl
  | cons b bs => simp [cbcE, ecbE]

/-- Settles O42: the five laws, ECB as a map of the cipher and CBC by induction over the blocks. -/
theorem modeLaws : Obligations.ModeLaws := fun w nr =>
  ⟨ecbD_ecbE w nr, cbcD_cbcE w nr, fun p i j h => by rw [ecbE, List.getElem?_map, List.getElem?_map, h],
    fun iv p q => ⟨cbcE_append w nr iv p q, cbcD_append w nr iv p q⟩, getElem?_cbcE_zero_iv w nr⟩

/-! ## The checks of the mode commands (rule R138) -/

section ModeCommands

variable {i : Instr} {s t : State} {dst src len : Half}
  (hi : i = .ecbenc dst src len ∨ i = .ecbdec dst src len ∨ i = .cbcenc dst src len ∨ i = .cbcdec dst src len)
include hi

theorem exec_mode (s : State) : exec i s = modeChecks dst src len s (finish (effectOf i s)) := by
  obtain rfl | rfl | rfl | rfl := hi <;> rfl

theorem exec_mode_of_bad_length (hkey : s.key.kv = true) (hlen : len.toNat % 16 ≠ 0) :
    exec i s = raise .invalidBlockLength s := by
  rw [exec_mode hi, modeChecks, if_neg (by simp [hkey]), if_pos hlen]

theorem exec_mode_of_inRange (hkey : s.key.kv = true) (hlen : len.toNat % 16 = 0)
    (hsrc : s.InRange src.toNat len.toNat) (hdst : s.InRange dst.toNat len.toNat) :
    exec i s = finish (effectOf i s) := by
  rw [exec_mode hi, modeChecks, if_neg (by simp [hkey]), if_neg (not_not.2 hlen), if_neg (not_not.2 hsrc),
    if_neg (not_not.2 hdst)]

/-- With LEN = 0 there is no block to read or to write, and CBC ends with the CHAIN it began with (rule R131). -/
theorem effectOf_mode_of_length_zero (hlen : len.toNat = 0) (s : State) : effectOf i s = s := by
  have hinput : modeInput src len s = [] := List.eq_nil_of_length_eq_zero (by simp [hlen])
  have houtput : modeOutput dst len s [] = s := by
    rw [modeOutput, hlen, drew_zero, bytesOfBlocks, memWrite_nil]
  obtain rfl | rfl | rfl | rfl := hi <;> simp [effectOf, hinput, ecbE, ecbD, cbcE, cbcD, houtput]

/-- An update of the state that the checks, the completion and the command's effect do not see commutes with the
command. -/
theorem exec_mode_update (f : State → State) (hkey : (f s).key = s.key) (hconfig : (f s).config = s.config)
    (hcomplete : ∀ e u, complete e (f u) = f (complete e u)) (heffect : effectOf i (f s) = f (effectOf i s))
    (h : exec i s = .next t) : exec i (f s) = .next (f t) := by
  rw [exec_mode hi] at h ⊢
  simp only [modeChecks, State.InRange, hkey, hconfig, heffect] at h ⊢
  split_ifs at h ⊢ <;>
  · cases h
    exact congrArg Host.Outcome.next (hcomplete _ _)

end ModeCommands

/-- Settles O40: the length is checked right after the key, and with LEN = 0 the effect is no effect. -/
theorem modesCheckTheLengthFirst : Obligations.ModesCheckTheLengthFirst := by
  refine fun s dst src len i hi hkey => ⟨fun hlen => ?_, fun hlen hsrc hdst => ?_⟩
  · rw [exec_mode_of_bad_length hi hkey hlen, raise_of_ne_ok (by decide)]
  · rw [exec_mode_of_inRange hi hkey (by omega) (by omega) (by omega), effectOf_mode_of_length_zero hi hlen, finish_eq]

/-! ## Registers the mode commands do not use -/

/-- A mode command neither reads nor writes STATE (rule R132). -/
theorem exec_mode_withBlock {i : Instr} {s t : State} {dst src len : Half}
    (hi : i = .ecbenc dst src len ∨ i = .ecbdec dst src len ∨ i = .cbcenc dst src len ∨ i = .cbcdec dst src len)
    (h : exec i s = .next t) (b : Block) : exec i { s with block := b } = .next { t with block := b } :=
  exec_mode_update hi (fun u => { u with block := b }) rfl rfl (fun _ _ => rfl)
    (by obtain rfl | rfl | rfl | rfl := hi <;> rfl) h

/-- ECBENC and ECBDEC neither read nor write CHAIN (rule R133). -/
theorem exec_ecb_withChain {i : Instr} {s t : State} {dst src len : Half}
    (hi : i = .ecbenc dst src len ∨ i = .ecbdec dst src len) (h : exec i s = .next t) (c : Block) :
    exec i { s with chain := c } = .next { t with chain := c } :=
  exec_mode_update (hi.imp_right .inl) (fun u => { u with chain := c }) rfl rfl (fun _ _ => rfl)
    (by obtain rfl | rfl := hi <;> rfl) h

/-- Settles O41: the command commutes with any new value of the register. That it does not write the register is the
case of the value the register had. -/
theorem modesIgnoreState : Obligations.ModesIgnoreState := by
  refine fun s t dst src len b c => ⟨fun i hi h => ⟨?_, exec_mode_withBlock hi h b⟩,
    fun i hi h => ⟨?_, exec_ecb_withChain hi h c⟩⟩
  · have hsame : t = { t with block := s.block } :=
      Host.Outcome.next.inj (h.symm.trans (exec_mode_withBlock hi h s.block))
    rw [hsame]
  · have hsame : t = { t with chain := s.chain } :=
      Host.Outcome.next.inj (h.symm.trans (exec_ecb_withChain hi h s.chain))
    rw [hsame]

/-! ## The blocks a mode command writes -/

/-- The buffer holds at most one block at an address. -/
theorem HoldsBlock.unique {m : Memory} {a : Nat} {b c : Block} (hb : HoldsBlock m a b) (hc : HoldsBlock m a c) :
    b = c :=
  block_ext_bytes fun k hk => Option.some.inj ((hb k hk).symm.trans (hc k hk))

/-- A block that stands at DST + 16i after a mode command is its output block i. -/
theorem getElem?_of_holdsBlock_modeOutput {dst len : Half} {s : State} {out : List Block} {i : Nat} {b : Block}
    (hi : i < out.length) (h : HoldsBlock (modeOutput dst len s out).buffer (dst.toNat + 16 * i) b) :
    out[i]? = some b := by
  have hout := List.getElem?_eq_getElem hi
  rw [hout, (holdsBlock_modeOutput hout).unique h]

/-- A command with a destination leaves every other byte as it was (20_memory.md rule R57). -/
theorem sameBytesOutside_of_exec {i : Instr} {s t : State} {b n : Nat} (hw : i.wellFormed = true)
    (hdst : dstRange i = some (b, n)) (h : exec i s = .next t) : SameBytesOutside b n s t := by
  intro a ha
  obtain ⟨hkept, -⟩ := commandsWriteOnlyTheirDestination i s t hw h
  refine hkept a fun b' n' hdst' => ?_
  cases hdst.symm.trans hdst'
  exact ha

/-- Settles O37: output block i is the i-th block of the mapped input. -/
theorem ecbTransformsEachBlock : Obligations.EcbTransformsEachBlock := by
  intro s dst src len hkey hlen hsrc hdst
  have hrun {i : Instr} (hi : i = .ecbenc dst src len ∨ i = .ecbdec dst src len) :
      exec i s = finish (effectOf i s) :=
    exec_mode_of_inRange (hi.imp_right .inl) hkey hlen hsrc hdst
  refine ⟨⟨_, hrun (.inl rfl), rfl, sameBytesOutside_of_exec rfl rfl (hrun (.inl rfl)), fun i p hi hp => ?_⟩,
    ⟨_, hrun (.inr rfl), rfl, sameBytesOutside_of_exec rfl rfl (hrun (.inr rfl)), fun i c hi hc => ?_⟩⟩
  · exact holdsBlock_modeOutput (getElem?_ecbE (getElem?_modeInput hi hp))
  · exact holdsBlock_modeOutput (getElem?_ecbD (getElem?_modeInput hi hc))

/-- Settles O38: the block before output block i, read back from the destination, is the one the encryption chained
on. -/
theorem cbcencChainsTheBlocks : Obligations.CbcencChainsTheBlocks := by
  intro s dst src len hkey hlen hsrc hdst
  have hrun : exec (.cbcenc dst src len) s = finish (effectOf (.cbcenc dst src len) s) :=
    exec_mode_of_inRange (by simp) hkey hlen hsrc hdst
  have hchain := getElem?_cbcE_length s.w s.key.nr.toNat s.chain (modeInput src len s)
  rw [length_modeInput] at hchain
  refine ⟨_, hrun, rfl, sameBytesOutside_of_exec rfl rfl hrun, fun i p q hi hp hq => ?_, fun hzero => ?_,
    fun hne => ?_⟩
  · refine holdsBlock_modeOutput (getElem?_cbcE (getElem?_modeInput hi hp) ?_)
    cases i with
    | zero => exact congrArg some hq.symm
    | succ i =>
      rw [List.getElem?_cons_succ]
      exact getElem?_of_holdsBlock_modeOutput (by simp; omega) hq
  · rw [effectOf_mode_of_length_zero (dst := dst) (src := src) (by simp) hzero, complete_chain]
  · obtain ⟨n, hn⟩ : ∃ n, len.toNat / 16 = n + 1 := ⟨len.toNat / 16 - 1, by omega⟩
    rw [hn] at hchain ⊢
    exact holdsBlock_modeOutput hchain

/-- Settles O39: the decryption chains on the input blocks, which are read before any is written. -/
theorem cbcdecChainsTheBlocks : Obligations.CbcdecChainsTheBlocks := by
  intro s dst src len hkey hlen hsrc hdst
  have hrun : exec (.cbcdec dst src len) s = finish (effectOf (.cbcdec dst src len) s) :=
    exec_mode_of_inRange (by simp) hkey hlen hsrc hdst
  have hchain := getElem?_cbcD_length s.w s.key.nr.toNat s.chain (modeInput src len s)
  rw [length_modeInput] at hchain
  refine ⟨_, hrun, rfl, sameBytesOutside_of_exec rfl rfl hrun, fun i c q hi hc hq => ?_, fun hzero => ?_,
    fun c hne hc => ?_⟩
  · refine holdsBlock_modeOutput (getElem?_cbcD (getElem?_modeInput hi hc) ?_)
    cases i with
    | zero => exact congrArg some hq.symm
    | succ i => exact getElem?_modeInput (by omega) hq
  · rw [effectOf_mode_of_length_zero (dst := dst) (src := src) (by simp) hzero, complete_chain]
  · obtain ⟨n, hn⟩ : ∃ n, len.toNat / 16 = n + 1 := ⟨len.toNat / 16 - 1, by omega⟩
    rw [hn] at hchain hc
    exact Option.some.inj (hchain.symm.trans (getElem?_modeInput (by omega) hc))

end Sys2Proof.Machine
end

section
/-! PROOFS. Byte-count padding and its validator, as functions of byte strings and as PAD and UNPAD compute them in the
buffer (45_padding.md rules R143 to R149). -/

namespace Sys2Proof.Machine

/-! ## The number of padding bytes (rule R143) -/

section PadCount

variable {bs : Byte} (hbs : bs ≠ 0) (len : Nat)

theorem padCount_le (bs : Byte) (len : Nat) : padCount len bs ≤ bs.toNat := Nat.sub_le _ _

/-- The count fits a byte, so the value of the padding bytes is the count itself. -/
theorem toNat_ofNat_padCount (bs : Byte) (len : Nat) :
    (BitVec.ofNat 8 (padCount len bs)).toNat = padCount len bs := by
  rw [BitVec.toNat_ofNat]
  exact Nat.mod_eq_of_lt (Nat.lt_of_le_of_lt (padCount_le bs len) bs.isLt)

include hbs

theorem toNat_pos_of_ne_zero : 0 < bs.toNat := Nat.pos_of_ne_zero fun h => hbs (BitVec.eq_of_toNat_eq h)

theorem padCount_pos : 0 < padCount len bs := Nat.sub_pos_of_lt (Nat.mod_lt len (toNat_pos_of_ne_zero hbs))

theorem add_padCount_mod : (len + padCount len bs) % bs.toNat = 0 := by
  have hmod : len % bs.toNat + padCount len bs = bs.toNat :=
    Nat.add_sub_of_le (Nat.mod_lt len (toNat_pos_of_ne_zero hbs)).le
  rw [← Nat.mod_add_mod, hmod, Nat.mod_self]

end PadCount

/-! ## The bytes of a padded string (rule R143) -/

theorem getElem?_padBytes_data {d : List Byte} {k : Nat} (bs : Byte) (hk : k < d.length) :
    (padBytes d bs)[k]? = d[k]? :=
  List.getElem?_append_left hk

theorem getElem?_padBytes_trailer {d : List Byte} {bs : Byte} {k : Nat} (hle : d.length ≤ k)
    (hlt : k < d.length + padCount d.length bs) :
    (padBytes d bs)[k]? = some (BitVec.ofNat 8 (padCount d.length bs)) := by
  rw [padBytes, List.getElem?_append_right hle, List.getElem?_replicate_of_lt (by omega)]

theorem getD_padBytes_trailer {d : List Byte} {bs : Byte} {k : Nat} (hle : d.length ≤ k)
    (hlt : k < d.length + padCount d.length bs) :
    (padBytes d bs).getD k 0 = BitVec.ofNat 8 (padCount d.length bs) := by
  rw [List.getD_eq_getElem?_getD, getElem?_padBytes_trailer hle hlt, Option.getD_some]

/-! ## The validator (rule R144) -/

/-- The validator's test of the trailer, byte by byte. -/
theorem all_drop_beq_iff {d : List Byte} {m : Nat} {v : Byte} :
    (d.drop m).all (fun b => b == v) = true ↔ ∀ k, m ≤ k → k < d.length → d.getD k 0 = v := by
  simp only [List.all_eq_true, beq_iff_eq, List.forall_mem_iff_getElem, List.length_drop, List.getElem_drop]
  constructor
  · intro h k hm hk
    obtain ⟨j, rfl⟩ := Nat.exists_eq_add_of_le hm
    rw [List.getD_eq_getElem _ _ hk]
    exact h j (by omega)
  · intro h j hj
    rw [← List.getD_eq_getElem d 0]
    exact h (m + j) (by omega) (by omega)

theorem unpadCheck_of_getLast?_eq_some {d : List Byte} {v : Byte} (h : d.getLast? = some v) (bs : Byte) :
    unpadCheck d bs =
      if 1 ≤ v.toNat ∧ v.toNat ≤ bs.toNat ∧ v.toNat ≤ d.length ∧
        ∀ k, d.length - v.toNat ≤ k → k < d.length → d.getD k 0 = v then some (d.length - v.toNat) else none := by
  simp only [unpadCheck, h, all_drop_beq_iff]

/-- Settles O44: the empty string has no last byte, and every other string is judged by its last byte. -/
theorem unpadCheckConditions : Obligations.UnpadCheckConditions := by
  intro d bs r
  cases hlast : d.getLast? with
  | none =>
    obtain rfl := List.getLast?_eq_none_iff.1 hlast
    simp [unpadCheck]
  | some v =>
    have hne : 1 ≤ d.length := List.length_pos_of_mem (List.mem_of_getLast? hlast)
    have hv : d.getD (d.length - 1) 0 = v := by
      rw [List.getD_eq_getElem?_getD, ← List.getLast?_eq_getElem?, hlast, Option.getD_some]
    simp only [unpadCheck_of_getLast?_eq_some hlast, Option.ite_none_right_eq_some, Option.some.injEq]
    constructor
    · rintro ⟨⟨hpos, hbs, hle, hall⟩, rfl⟩
      exact ⟨v, hne, hv, hpos, hbs, hle, hall, rfl⟩
    · rintro ⟨v', -, hv', hpos, hbs, hle, hall, rfl⟩
      obtain rfl : v = v' := hv.symm.trans hv'
      exact ⟨⟨hpos, hbs, hle, hall⟩, rfl⟩

theorem unpadCheck_padBytes {bs : Byte} (hbs : bs ≠ 0) (x : List Byte) :
    unpadCheck (padBytes x bs) bs = some x.length := by
  have hpos := padCount_pos hbs x.length
  refine (unpadCheckConditions _ _ _).2 ⟨BitVec.ofNat 8 (padCount x.length bs), ?_⟩
  rw [toNat_ofNat_padCount, length_padBytes, Nat.add_sub_cancel]
  exact ⟨by omega, getD_padBytes_trailer (by omega) (by omega), hpos, padCount_le _ _, Nat.le_add_left _ _,
    fun k => getD_padBytes_trailer, rfl⟩

/-- Settles O46: the last byte of a padded string is the count; a bad trailer breaks one of the validator's
conditions. -/
theorem paddingRoundTrip : Obligations.PaddingRoundTrip := by
  refine ⟨fun x bs hbs => ⟨unpadCheck_padBytes hbs x, List.take_left⟩, fun d bs v _ hlast hbad => ?_⟩
  refine Option.eq_none_iff_forall_ne_some.2 fun r hr => ?_
  obtain ⟨v', -, hlast', hpos, hbs, -, hall, -⟩ := (unpadCheckConditions d bs r).1 hr
  obtain rfl : v = v' := hlast.symm.trans hlast'
  obtain rfl | hbig | ⟨k, hle, hlt, hne⟩ := hbad
  · exact absurd hpos (by decide)
  · omega
  · exact hne (hall k hle hlt)

/-! ## PAD (rule R148) -/

theorem exec_pad (dst src len : Half) (bs : Byte) (s : State) :
    exec (.pad dst src len bs) s = execPad dst src len bs s := rfl

theorem exec_pad_of_inRange {s : State} {dst src len : Half} {bs : Byte}
    (hsrc : s.InRange src.toNat len.toNat) (hdst : s.InRange dst.toNat (len.toNat + padCount len.toNat bs)) :
    exec (.pad dst src len bs) s = finish (effectOf (.pad dst src len bs) s) := by
  rw [exec_pad, execPad, if_neg (not_not.2 hsrc), if_neg (not_not.2 hdst)]
  rfl

/-- A stored byte string stands at the address it was stored at (rule R49). -/
theorem holdsBytes_storeBytes (m : Memory) (a : Nat) (l : List Byte) : HoldsBytes (Memory.storeBytes m a l) a l :=
  fun k hk => byte?_storeBytes_inside l m k hk

theorem holdsBytes_effectOf_pad (dst src len : Half) (bs : Byte) (s : State) :
    HoldsBytes (effectOf (.pad dst src len bs) s).buffer dst.toNat (padBytes (memRead s src.toNat len.toNat) bs) :=
  holdsBytes_storeBytes _ _ _

/-- OUTLEN is wide enough for the longest padded string. -/
theorem toNat_effectOf_pad_outlen (dst src len : Half) (bs : Byte) (s : State) :
    (effectOf (.pad dst src len bs) s).outlen.toNat = len.toNat + padCount len.toNat bs := by
  have hcount := padCount_le bs len.toNat
  have hlen := len.isLt
  have hbs := bs.isLt
  exact (BitVec.toNat_ofNat _ _).trans (Nat.mod_eq_of_lt (by omega))

/-- Settles O43: the destination holds the padded string of the bytes read at SRC. -/
theorem padAppendsTheCount : Obligations.PadAppendsTheCount := by
  intro s dst src len bs hbs n hsrc hdst
  have hrun := exec_pad_of_inRange hsrc hdst
  have hwf : (Instr.pad dst src len bs).wellFormed = true := blockSizeOk_iff.2 hbs
  have hheld := holdsBytes_effectOf_pad dst src len bs s
  have hread := length_memRead s src.toNat len.toNat
  simp only [HoldsBytes, length_padBytes, hread] at hheld
  refine ⟨_, hrun, rfl, sameBytesOutside_of_exec hwf rfl hrun, fun k b hk hb => ?_, fun k hle hlt => ?_,
    toNat_effectOf_pad_outlen dst src len bs s, padCount_pos hbs _, padCount_le _ _, add_padCount_mod hbs _⟩
  · rw [complete_buffer, hheld k (by omega), getElem?_padBytes_data bs (by omega), getElem?_memRead _ _ _ _ hk,
      readByte_of_written _ hb]
  · rw [complete_buffer, hheld k hlt, getElem?_padBytes_trailer (by omega) (by rwa [hread]), Option.map_some,
      toNat_ofNat_padCount, hread]
    rfl

/-! ## UNPAD (rule R149) -/

section Unpad

variable {s : State} {src len : Half} {bs : Byte} {d : List Byte} (hsrc : s.InRange src.toNat len.toNat)
  (hd : d.length = len.toNat) (hheld : HoldsBytes s.buffer src.toNat d)

theorem exec_unpad (src len : Half) (bs : Byte) (s : State) :
    exec (.unpad src len bs) s = execUnpad src len bs s := rfl

include hsrc hd hheld

theorem exec_unpad_of_invalid (h : unpadCheck d bs = none) :
    exec (.unpad src len bs) s = raise .invalidPadding (drew s len.toNat) := by
  simp only [exec_unpad, execUnpad, not_not.2 hsrc, if_false, memRead_of_holdsBytes hd hheld, h]

theorem exec_unpad_of_valid {r : Nat} (h : unpadCheck d bs = some r) :
    exec (.unpad src len bs) s = finish { drew s len.toNat with outlen := BitVec.ofNat 17 r } := by
  simp only [exec_unpad, execUnpad, not_not.2 hsrc, if_false, memRead_of_holdsBytes hd hheld, h]

end Unpad

/-- A stripped length is at most LEN, so OUTLEN holds it. -/
theorem toNat_ofNat_of_unpadCheck {d : List Byte} {len : Half} {bs : Byte} {r : Nat} (hd : d.length = len.toNat)
    (h : unpadCheck d bs = some r) : (BitVec.ofNat 17 r).toNat = r := by
  have hle := unpadCheck_getD_le d bs
  rw [h, hd, Option.getD_some] at hle
  have hlen := len.isLt
  exact (BitVec.toNat_ofNat _ _).trans (Nat.mod_eq_of_lt (by omega))

/-- Settles O45: the bytes read are d, so the validator's answer on d decides. -/
theorem unpadReportsTheLength : Obligations.UnpadReportsTheLength := by
  refine fun s src len bs d hsrc hd hheld => ⟨fun r hr => ?_, fun hnone => ?_⟩
  · exact ⟨_, exec_unpad_of_valid hsrc hd hheld hr, rfl, fun _ => rfl, toNat_ofNat_of_unpadCheck hd hr⟩
  · rw [exec_unpad_of_invalid hsrc hd hheld hnone, raise_of_ne_ok (by decide)]
    exact ⟨_, rfl, rfl, fun _ => rfl⟩

/-- Settles O47: PAD leaves a padded string at DST, all of it written, and UNPAD reads all of it back. -/
theorem padThenUnpadGivesTheLength : Obligations.PadThenUnpadGivesTheLength := by
  intro s t dst src len bs hbs h hok hfits
  obtain ⟨hpasses, rfl⟩ := effect_of_ok h hok
  have hdst : s.InRange dst.toNat (len.toNat + padCount len.toNat bs) := hpasses.dstInRange rfl
  rw [complete_outlen, toNat_effectOf_pad_outlen] at hfits ⊢
  have hlen : (BitVec.ofNat 16 (len.toNat + padCount len.toNat bs)).toNat = len.toNat + padCount len.toNat bs :=
    (BitVec.toNat_ofNat _ _).trans (Nat.mod_eq_of_lt hfits)
  have hheld := holdsBytes_effectOf_pad dst src len bs s
  have hread := length_memRead s src.toNat len.toNat
  obtain ⟨hvalid, -⟩ := unpadReportsTheLength (complete .ok (effectOf (.pad dst src len bs) s)) dst
    (BitVec.ofNat 16 (len.toNat + padCount len.toNat bs)) bs _ (by rwa [hlen]) (by rw [length_padBytes, hread, hlen])
    hheld
  obtain ⟨u, hrun, hframe, hsame, hout⟩ := hvalid _ (unpadCheck_padBytes hbs _)
  exact ⟨u, hrun, congrArg State.err hframe, hout.trans hread, hsame⟩

end Sys2Proof.Machine
end

section
/-! PROOFS. What a command leaves of the host's side, NOP, and the host's issue protocol (46_system.md). -/

namespace Sys2Proof.Machine

/-! ## What a command leaves (rule R152) -/

/-- The two states agree on the host's side: the command registers, FAULT, the parameters, the turns and the value last
read; and on ERRSEEN, which only the completion step writes. -/
structure SameHostSide (s t : State) : Prop where
  cmdLo : t.cmdLo = s.cmdLo
  cmdHi : t.cmdHi = s.cmdHi
  pending : t.pending = s.pending
  fault : t.fault = s.fault
  config : t.config = s.config
  schedule : t.schedule = s.schedule
  readData : t.readData = s.readData
  errSeen : t.errSeen = s.errSeen

theorem sameHostSide_drew (s : State) (n : Nat) : SameHostSide s (drew s n) :=
  ⟨rfl, rfl, rfl, rfl, rfl, rfl, rfl, rfl⟩

theorem sameHostSide_effectOf (i : Instr) (s : State) : SameHostSide s (effectOf i s) := by
  cases i <;> constructor <;> simp [effectOf]

/-- The core's step ends with the completion step, and what comes before that leaves the host's side
(60_exceptions.md rule R161). -/
theorem coreStep_completes {s t : State} (h : coreStep s = .next t) :
    ∃ e u, SameHostSide s u ∧ t = complete e u := by
  obtain ⟨e, n, -, hr⟩ | ⟨i, -, -, hr⟩ := coreStep_cases s
  · cases hr.symm.trans h
    exact ⟨e, drew s n, sameHostSide_drew s n, rfl⟩
  · cases hr.symm.trans h
    exact ⟨.ok, effectOf i s, sameHostSide_effectOf i s, rfl⟩

/-- Settles O17: the completion step writes ERR, ERRSEEN and BUSY, and nothing before it writes the host's side. -/
theorem commandsLeaveTheHostSide : Obligations.CommandsLeaveTheHostSide := by
  intro s t h
  obtain ⟨e, u, hu, rfl⟩ := coreStep_completes h
  refine ⟨hu.cmdLo, hu.cmdHi, hu.pending, hu.fault, hu.config, hu.schedule, hu.readData, complete_busy e u, ?_⟩
  rw [complete_errSeen, complete_err, hu.errSeen, errSeenAfter_eq_true_iff]

/-! ## NOP (rule R151) -/

/-- Settles O48: NOP is `finish`, and the one word that decodes to it is its own, zero in every field. -/
theorem nopOnlyCompletes : Obligations.NopOnlyCompletes := by
  refine ⟨finish_eq, fun w => ?_⟩
  have hword : encode .nop = 0 := by decide
  rw [decode_eq_command_iff, hword, eq_comm (a := w)]
  exact and_iff_right rfl

/-! ## Runs, step by step -/

theorem run_succ_of_step {s t : State} (h : step s = .next t) (k : Nat) :
    Host.Core.run core (k + 1) s = Host.Core.run core k t := by
  have hstep : core.step s = .next t := h
  simp only [Host.Core.run, hstep]

theorem run_one (s : State) : Host.Core.run core 1 s = step s := by
  have hstep : core.step s = step s := rfl
  simp only [Host.Core.run, hstep]
  cases step s <;> rfl

/-! ## The issue protocol (rule R150) -/

section Protocol

variable {s : State} {rest : List Turn} {v : Reg32} (hb : s.busy = false)

include hb

theorem step_of_cmdLo_write (ht : s.schedule = .host (.write 32 (s.config.base + 0x008) v) :: rest) :
    step s = .next { s with schedule := rest, cmdLo := v } :=
  step_of_registerWrite ht (writeAllowed_of_idle hb (by decide) (by decide)) (by decide)

theorem step_of_cmdHi_write (ht : s.schedule = .host (.write 32 (s.config.base + 0x00C) v) :: rest) :
    step s = .next (issue { s with schedule := rest } v) :=
  step_of_registerWrite ht (writeAllowed_of_idle hb (by decide) (by decide)) (by decide)

end Protocol

/-- Issuing after the low half of a word went to CMD_LO latches the word (10_state.md rules R31, R36, R37). -/
theorem issue_after_cmdLo_write (s : State) (w : CmdWord) :
    issue { s with schedule := .core :: s.schedule, cmdLo := w.extractLsb' 0 32 } (w.extractLsb' 32 32) =
      withIssued s w := by
  have hhalves : w.extractLsb' 32 32 ++ w.extractLsb' 0 32 = w :=
    BitVec.extractLsb'_append_extractLsb' (w := 32) (len := 32)
  simp only [issue, withIssued, hhalves]

/-- The first two turns of the protocol issue the word, whatever CMD_LO and CMD_HI held. -/
theorem steps_of_issueTurns {s : State} {w : CmdWord} {rest : List Turn} (hb : s.busy = false)
    (ht : s.schedule = issueTurns s.config w ++ rest) :
    ∃ t, step s = .next t ∧
      step t = .next (withIssued { s with schedule := (issueTurns s.config w).drop 3 ++ rest } w) := by
  refine ⟨_, step_of_cmdLo_write hb ht, ?_⟩
  rw [← issue_after_cmdLo_write]
  exact step_of_cmdHi_write
    (s := { s with schedule := (issueTurns s.config w).drop 1 ++ rest, cmdLo := w.extractLsb' 0 32 }) hb rfl

/-- The turn after the issue is the core's, with BUSY = 1. -/
theorem step_withIssued (s : State) (w : CmdWord) :
    step (withIssued s w) = coreStep { withIssued s w with schedule := s.schedule } := by
  rw [step_of_coreHasTurn (rest := s.schedule) (.inl rfl), coreTurn_of_busy rfl]

/-- Settles O9: the two writes issue the word, and the third step is the core's. -/
theorem issueProtocolRunsTheWord : Obligations.IssueProtocolRunsTheWord := by
  intro s w rest hb ht
  obtain ⟨t, hlo, hhi⟩ := steps_of_issueTurns hb ht
  rw [run_succ_of_step hlo, run_succ_of_step hhi, run_one]
  exact step_withIssued _ w

end Sys2Proof.Machine
end

section
/-! PROOFS. Errors (60_exceptions.md): no step stops the machine (rule R162), a command that raises an error writes
nothing else (rule R158), and the code is that of the first check that fails (rule R159). -/

namespace Sys2Proof.Machine

/-! ## Nothing stops the machine (rule R162) -/

theorem coreTurn_answers_next (s : State) : ∃ t, coreTurn s = .next t := by
  cases hb : s.busy with
  | false => exact ⟨s, coreTurn_of_idle hb⟩
  | true =>
    rw [coreTurn_of_busy hb]
    obtain ⟨e, n, -, h⟩ | ⟨i, -, -, h⟩ := coreStep_cases s
    · exact ⟨_, h⟩
    · exact ⟨_, h⟩

theorem step_answers_next (s : State) : ∃ t, step s = .next t := by
  obtain ⟨rest, h⟩ | ⟨a, rest, h⟩ | ⟨rest, h⟩ := turn_cases s
  · rw [step_of_coreHasTurn h]
    exact coreTurn_answers_next _
  · exact ⟨_, step_of_host h⟩
  · exact ⟨_, step_of_hardReset h⟩

/-- Settles O7: every turn answers a next state, and only BUSY decides whether a CMD_HI write issues. -/
theorem nothingStopsTheMachine : Obligations.NothingStopsTheMachine :=
  ⟨step_answers_next, fun _ _ _ hb ht => step_of_cmdHi_write hb ht⟩

/-! ## A failed command writes nothing (rule R158) -/

/-- Settles O13: the core's step that does not end with ERR = 0 is `raise`, after draws at most. -/
theorem failedCommandWritesNothing : Obligations.FailedCommandWritesNothing := by
  intro s t h hne
  obtain ⟨e, n, he, hr⟩ | ⟨i, -, -, hr⟩ := coreStep_cases s
  · have ht : raise e (drew s n) = .next t := hr.symm.trans h
    rw [raise_of_ne_ok he] at ht
    cases ht
    exact ⟨rfl, fun _ => rfl⟩
  · cases hr.symm.trans h
    exact absurd rfl hne

/-! ## What a passed check gives -/

section PassedChecks

variable {i : Instr} {s : State} {dst src len : Half} {r : Byte}

theorem key_of_not_keyMissing (h : ¬ KeyMissing i s) (hneeds : needsKey i = true) : s.key.kv = true :=
  (Bool.not_eq_false _).mp fun hkv => h ⟨hneeds, hkv⟩

theorem le_nr_of_not_roundIndexAboveNr (h : ¬ RoundIndexAboveNr i s) (hi : i = .ark r ∨ ∃ dst, i = .strk dst r) :
    r.toNat ≤ s.key.nr.toNat :=
  Nat.le_of_not_lt fun hr => h ⟨r, hi, hr⟩

theorem keyLength_of_not_lengthError (h : ¬ ∃ e, LengthError (.keyexp src len) e) :
    len.toNat = 16 ∨ len.toNat = 24 ∨ len.toNat = 32 := by
  by_contra hl
  simp only [not_or] at hl
  obtain ⟨h16, h24, h32⟩ := hl
  exact h ⟨_, .inl ⟨src, len, rfl, h16, h24, h32, rfl⟩⟩

theorem ivLength_of_not_lengthError (h : ¬ ∃ e, LengthError (.ldiv src len) e) : len = 16 :=
  BitVec.eq_of_toNat_eq (not_not.1 fun hl => h ⟨_, .inr (.inl ⟨src, len, rfl, hl, rfl⟩)⟩)

theorem modeLength_of_not_lengthError (h : ¬ ∃ e, LengthError i e)
    (hi : i = .ecbenc dst src len ∨ i = .ecbdec dst src len ∨ i = .cbcenc dst src len ∨ i = .cbcdec dst src len) :
    len.toNat % 16 = 0 :=
  not_not.1 fun hl => h ⟨_, .inr (.inr ⟨dst, src, len, hi, hl, rfl⟩)⟩

end PassedChecks

/-! ## What a failing range is -/

section Ranges

variable {i : Instr} {s : State} {a n b m : Nat}

theorem RangeError.not_inRange_src (h : RangeError i s) (hsrc : srcRange i = some (a, n)) (hdst : dstRange i = none) :
    ¬ s.InRange a n := by
  simpa [RangeError, hsrc, hdst] using h

theorem RangeError.not_inRange_dst (h : RangeError i s) (hsrc : srcRange i = none) (hdst : dstRange i = some (b, m)) :
    ¬ s.InRange b m := by
  simpa [RangeError, hsrc, hdst] using h

theorem RangeError.not_inRange_dst_of_src (h : RangeError i s) (hsrc : srcRange i = some (a, n))
    (hdst : dstRange i = some (b, m)) (hin : s.InRange a n) : ¬ s.InRange b m := by
  obtain ⟨c, k, hr | hr, hout⟩ := h
  · cases hsrc.symm.trans hr
    exact absurd hin hout
  · cases hdst.symm.trans hr
    exact hout

theorem not_rangeError_of_no_ranges (hsrc : srcRange i = none) (hdst : dstRange i = none) : ¬ RangeError i s := by
  simp [RangeError, hsrc, hdst]

end Ranges

/-- The columns of the mode commands (20_memory.md rule R57, 30_encoding.md rule R72). -/
theorem mode_columns {i : Instr} {dst src len : Half}
    (hi : i = .ecbenc dst src len ∨ i = .ecbdec dst src len ∨ i = .cbcenc dst src len ∨ i = .cbcdec dst src len) :
    needsKey i = true ∧ srcRange i = some (src.toNat, len.toNat) ∧ dstRange i = some (dst.toNat, len.toNat) := by
  obtain rfl | rfl | rfl | rfl := hi <;> exact ⟨rfl, rfl, rfl⟩

/-! ## The checks in their order (rule R159) -/

section Checks

variable {i : Instr} {s : State}

/-- The key is the first check of every command that needs one. -/
theorem exec_of_keyMissing (h : KeyMissing i s) : exec i s = raise .noKey s := by
  obtain ⟨hneeds, hkv⟩ := h
  cases i with
  | strk | ark | encblk | decblk | ecbenc | ecbdec | cbcenc | cbcdec => exact if_pos hkv
  | _ => cases hneeds

variable (hkey : ¬ KeyMissing i s)
include hkey

theorem exec_of_roundIndexAboveNr (h : RoundIndexAboveNr i s) : exec i s = raise .illegalCommand s := by
  obtain ⟨r, rfl | ⟨dst, rfl⟩, hr⟩ := h
  · rw [exec_ark, execArk, if_neg (by simp [key_of_not_keyMissing hkey rfl]), if_pos hr]
  · rw [exec_strk, execStrk, if_neg (by simp [key_of_not_keyMissing hkey rfl]), if_pos hr]

theorem exec_of_lengthError {e : ErrCode} (h : LengthError i e) : exec i s = raise e s := by
  obtain ⟨src, len, rfl, h16, h24, h32, rfl⟩ | ⟨src, len, rfl, hlen, rfl⟩ | ⟨dst, src, len, hi, hlen, rfl⟩ := h
  · exact exec_keyexp_of_bad_length (by simp [h16, h24, h32])
  · rw [exec_ldiv, execLdiv, if_pos fun heq => hlen (congrArg BitVec.toNat heq)]
  · exact exec_mode_of_bad_length hi (key_of_not_keyMissing hkey (mode_columns hi).1) hlen

variable (hlength : ¬ ∃ e, LengthError i e)
include hlength

/-- The two ranges of a mode command, whichever lies outside the buffer (44_modes.md rule R138). -/
theorem exec_mode_of_rangeError {dst src len : Half} (h : RangeError i s)
    (hi : i = .ecbenc dst src len ∨ i = .ecbdec dst src len ∨ i = .cbcenc dst src len ∨ i = .cbcdec dst src len) :
    exec i s = raise .bufferRange s := by
  obtain ⟨hneeds, hsrc, hdst⟩ := mode_columns hi
  rw [exec_mode hi, modeChecks, if_neg (by simp [key_of_not_keyMissing hkey hneeds]),
    if_neg (not_not.2 (modeLength_of_not_lengthError hlength hi))]
  by_cases hin : s.InRange src.toNat len.toNat
  · rw [if_neg (not_not.2 hin), if_pos (h.not_inRange_dst_of_src hsrc hdst hin)]
  · rw [if_pos hin]

variable (hround : ¬ RoundIndexAboveNr i s)
include hround

theorem exec_of_rangeError (h : RangeError i s) : exec i s = raise .bufferRange s := by
  cases i with
  | keyexp src len =>
    exact exec_keyexp_of_not_inRange (keyLength_of_not_lengthError hlength) (h.not_inRange_src rfl rfl)
  | strk dst r =>
    have hr := le_nr_of_not_roundIndexAboveNr hround (.inr ⟨dst, rfl⟩)
    rw [exec_strk, execStrk, if_neg (by simp [key_of_not_keyMissing hkey rfl]), if_neg (Nat.not_lt.2 hr),
      if_pos (h.not_inRange_dst rfl rfl)]
  | ldst src => rw [exec_ldst, execLdst, if_pos (h.not_inRange_src rfl rfl)]
  | stst dst => rw [exec_stst, execStst, if_pos (h.not_inRange_dst rfl rfl)]
  | ldiv src len =>
    have hlen := ivLength_of_not_lengthError hlength
    rw [exec_ldiv, execLdiv, if_neg (not_not.2 hlen), if_pos (h.not_inRange_src rfl rfl)]
  | stiv dst => rw [exec_stiv, execStiv, if_pos (h.not_inRange_dst rfl rfl)]
  | ecbenc dst src len | ecbdec dst src len | cbcenc dst src len | cbcdec dst src len =>
    exact exec_mode_of_rangeError (dst := dst) (src := src) (len := len) hkey hlength h (by simp)
  | pad dst src len bs =>
    rw [exec_pad, execPad]
    by_cases hin : s.InRange src.toNat len.toNat
    · rw [if_neg (not_not.2 hin), if_pos (h.not_inRange_dst_of_src rfl rfl hin)]
    · rw [if_pos hin]
  | unpad src len bs => rw [exec_unpad, execUnpad, if_pos (h.not_inRange_src rfl rfl)]
  | _ => exact absurd h (not_rangeError_of_no_ranges rfl rfl)

end Checks

theorem exec_of_contentError {i : Instr} {s : State} (hrange : ¬ RangeError i s) (h : ContentError i s) :
    ∃ n, exec i s = raise .invalidPadding (drew s n) := by
  obtain ⟨src, len, bs, rfl, hnone⟩ := h
  have hin : s.InRange src.toNat len.toNat := not_not.1 fun hout => hrange ⟨_, _, .inl rfl, hout⟩
  refine ⟨len.toNat, ?_⟩
  rw [exec_unpad, execUnpad, if_neg (not_not.2 hin), hnone]

/-- A command that passes every check has its effect: the converse of `effect_of_ok`. -/
theorem exec_of_passes {i : Instr} {s : State} (h : Passes i s) : exec i s = finish (effectOf i s) := by
  have hkey := key_of_not_keyMissing h.key
  cases i with
  | keyexp src len => exact exec_keyexp_of_inRange h.keyLength (h.srcInRange rfl)
  | strk dst r =>
    exact exec_strk_of_inRange (hkey rfl) (le_nr_of_not_roundIndexAboveNr h.roundIndex (.inr ⟨dst, rfl⟩))
      (h.dstInRange rfl)
  | ldst src => exact exec_ldst_of_inRange (h.srcInRange rfl)
  | stst dst => exact exec_stst_of_inRange (h.dstInRange rfl)
  | ldiv src len =>
    obtain rfl := ivLength_of_not_lengthError h.length
    exact exec_ldiv_of_inRange (h.srcInRange rfl)
  | stiv dst => exact exec_stiv_of_inRange (h.dstInRange rfl)
  | ark r =>
    have hr := le_nr_of_not_roundIndexAboveNr h.roundIndex (.inl rfl)
    rw [exec_ark, execArk, if_neg (by simp [hkey rfl]), if_neg (Nat.not_lt.2 hr)]
    rfl
  | encblk => exact exec_encblk_of_key (hkey rfl)
  | decblk => exact exec_decblk_of_key (hkey rfl)
  | ecbenc dst src len | ecbdec dst src len | cbcenc dst src len | cbcdec dst src len =>
    exact exec_mode_of_inRange (dst := dst) (src := src) (by simp) (hkey rfl)
      (h.modeLength (dst := dst) (src := src) (by simp)) (h.srcInRange rfl) (h.dstInRange rfl)
  | pad dst src len bs => exact exec_pad_of_inRange (h.srcInRange rfl) (h.dstInRange rfl)
  | unpad src len bs =>
    have hin : s.InRange src.toNat len.toNat := h.srcInRange rfl
    obtain ⟨k, hk⟩ := Option.ne_none_iff_exists'.1 fun hnone => h.content ⟨src, len, bs, rfl, hnone⟩
    rw [exec_unpad, execUnpad, if_neg (not_not.2 hin), effectOf, hk]
    rfl
  | _ => rfl

/-! ## The code reported -/

theorem err_of_eq_raise {o : Outcome} {e : ErrCode} {u t : State} (hraise : o = raise e u) (h : o = .next t) :
    t.err = e := by
  cases hraise.symm.trans h
  rfl

/-- Settles O14: each failing check raises its own code once the checks before it have passed, and a command that passes
them all ends with `finish`. -/
theorem firstFailingCheckIsReported : Obligations.FirstFailingCheckIsReported := by
  refine ⟨fun s t why hd h => err_of_eq_raise (coreStep_of_illegal hd) h, fun i s t _ h =>
    ⟨fun hkey => err_of_eq_raise (exec_of_keyMissing hkey) h,
      fun hkey hround => err_of_eq_raise (exec_of_roundIndexAboveNr hkey hround) h,
      fun hkey _ e hlen => err_of_eq_raise (exec_of_lengthError hkey hlen) h,
      fun hkey hround hlen hrange => err_of_eq_raise (exec_of_rangeError hkey hlen hround hrange) h,
      fun _ _ _ hrange hcontent => ?_,
      fun hkey hround hlen hrange hcontent =>
        err_of_eq_raise (exec_of_passes ⟨hkey, hround, hlen, hrange, hcontent⟩) h⟩⟩
  obtain ⟨n, hraise⟩ := exec_of_contentError hrange hcontent
  exact err_of_eq_raise hraise h

end Sys2Proof.Machine
end

section
/-! PROOFS. Resets and fairness (70_reset_and_hazards.md): what a hard and a soft reset give (rules R174, R175), that
only they clear FAULT or set KV to 0 (rule R176), and that every schedule ends with the core idle (rule R179). -/

namespace Sys2Proof.Machine

/-! ## Hard reset (rule R174) -/

/-- Settles O58: the turn is `hardReset`. -/
theorem Reset.hardReset : Obligations.HardReset := fun _ _ ht => step_of_hardReset ht

/-! ## Soft reset (rule R175) -/

theorem writeRegister_ctrl_reset {v : Reg32} (h : v.getLsbD 0 = true) (s : State) :
    writeRegister s 0x01C v = softReset s := by
  simp only [writeRegister, h, if_true]

/-- CTRL can be written at any time, so the turn is the soft reset, whatever is pending. -/
theorem step_of_ctrl_reset {s : State} {rest : List Turn} {v : Reg32}
    (ht : s.schedule = .host (.write 32 (s.config.base + 0x01C) v) :: rest) (hv : v.getLsbD 0 = true) :
    step s = .next (softReset { s with schedule := rest }) := by
  rw [step_of_registerWrite ht (writeAllowed_ctrl s) (by decide), writeRegister_ctrl_reset hv]

section AbortedBuffer

variable {s : State}

theorem abortedBuffer_of_destination {i : Instr} {b n : Nat} (hb : s.busy = true)
    (hd : decode s.pending = .command i) (hr : dstRange i = some (b, n)) :
    abortedBuffer s = Memory.forget s.buffer b n := by
  simp only [abortedBuffer, hb, if_true, hd, hr]

theorem abortedBuffer_of_no_destination
    (h : ¬ ∃ i b n, s.busy = true ∧ decode s.pending = .command i ∧ dstRange i = some (b, n)) :
    abortedBuffer s = s.buffer := by
  unfold abortedBuffer
  split
  next hb =>
    split
    next i hd =>
      split
      next b n hr => exact absurd ⟨i, b, n, hb, hd, hr⟩ h
      · rfl
    · rfl
  · rfl

/-- The bytes that an abort makes never written: the destination of the pending command (20_memory.md rule R57). -/
def AbortForgets (s : State) (a : Nat) : Prop :=
  s.busy = true ∧ ∃ i b n, decode s.pending = .command i ∧ dstRange i = some (b, n) ∧ b ≤ a ∧ a < b + n

theorem byte?_abortedBuffer_of_forgets {a : Nat} (h : AbortForgets s a) :
    Memory.byte? (abortedBuffer s) a = none := by
  obtain ⟨hb, i, b, n, hd, hr, hin⟩ := h
  rw [abortedBuffer_of_destination hb hd hr, byte?_forget, if_pos hin]

theorem byte?_abortedBuffer_of_not_forgets {a : Nat} (h : ¬ AbortForgets s a) :
    Memory.byte? (abortedBuffer s) a = Memory.byte? s.buffer a := by
  by_cases hdst : ∃ i b n, s.busy = true ∧ decode s.pending = .command i ∧ dstRange i = some (b, n)
  · obtain ⟨i, b, n, hb, hd, hr⟩ := hdst
    have hout : ¬ (b ≤ a ∧ a < b + n) := fun hin => h ⟨hb, i, b, n, hd, hr, hin⟩
    rw [abortedBuffer_of_destination hb hd hr, byte?_forget, if_neg hout]
  · rw [abortedBuffer_of_no_destination hdst]

end AbortedBuffer

/-- Settles O53: the turn is `softReset`, whose buffer is `abortedBuffer`. -/
theorem Reset.softReset : Obligations.SoftReset := by
  intro s rest v ht hv
  exact ⟨_, step_of_ctrl_reset ht hv, rfl, fun a =>
    ⟨fun h => byte?_abortedBuffer_of_forgets (s := s) h, fun h => byte?_abortedBuffer_of_not_forgets (s := s) h⟩⟩

/-! ## Only a reset clears FAULT or sets KV to 0 (rule R176) -/

/-- From `s` to `t`, FAULT is not cleared and KV is not set to 0. -/
structure KeepsFaultAndKey (s t : State) : Prop where
  fault : s.fault = true → t.fault = true
  kv : s.key.kv = true → t.key.kv = true

section FaultAndKey

variable {s t : State}

theorem keepsFaultAndKey_of_eq (hf : t.fault = s.fault) (hk : t.key = s.key) : KeepsFaultAndKey s t :=
  ⟨fun h => hf.trans h, fun h => (congrArg KeyStatus.kv hk).trans h⟩

/-- KEYEXP sets KV to 1, and no other command writes it (10_state.md rule R24). -/
theorem effectOf_kv (i : Instr) (h : s.key.kv = true) : (effectOf i s).key.kv = true := by
  cases i with
  | keyexp src len => rfl
  | _ => exact h

theorem coreTurn_keepsFaultAndKey (h : coreTurn s = .next t) : KeepsFaultAndKey s t := by
  refine ⟨fun hf => (coreTurn_fault h).trans hf, fun hk => ?_⟩
  cases hb : s.busy with
  | false =>
    rw [coreTurn_of_idle hb] at h
    cases h
    exact hk
  | true =>
    rw [coreTurn_of_busy hb] at h
    obtain ⟨e, n, -, hr⟩ | ⟨i, -, -, hr⟩ := coreStep_cases s
    · cases hr.symm.trans h
      exact hk
    · cases hr.symm.trans h
      exact effectOf_kv i hk

theorem writeRegister_keepsFaultAndKey (s : State) (off : Nat) (v : Reg32) :
    KeepsFaultAndKey s (writeRegister s off v) ∨ (off = 0x01C ∧ v.getLsbD 0 = true) := by
  unfold writeRegister
  split
  · split <;> exact .inl (keepsFaultAndKey_of_eq rfl rfl)
  · exact .inl (keepsFaultAndKey_of_eq rfl rfl)
  · exact .inl (keepsFaultAndKey_of_eq rfl rfl)
  · split
    next hv => exact .inr ⟨rfl, hv⟩
    · exact .inl (keepsFaultAndKey_of_eq rfl rfl)
  · exact .inl (keepsFaultAndKey_of_eq rfl rfl)

/-- Every allowed write of CTRL is 32 bits wide (20_memory.md rules R53, R56). -/
theorem width_of_ctrl_writeAllowed {width : Nat} (h : writeAllowed s width 0x01C = true) : width = 32 := by
  rw [writeAllowed_iff] at h
  split at h
  · exact h.1
  · omega

theorem hostWrite_keepsFaultAndKey (s : State) (width off : Nat) (v : Reg32) :
    KeepsFaultAndKey s (hostWrite s width off v) ∨ (width = 32 ∧ off = 0x01C ∧ v.getLsbD 0 = true) := by
  obtain hw | hw | ⟨a, l, -, hw⟩ | ⟨hok, hw⟩ := hostWrite_cases s width off v <;> rw [hw]
  · exact .inl (keepsFaultAndKey_of_eq rfl rfl)
  · exact .inl ⟨fun _ => rfl, id⟩
  · exact .inl (keepsFaultAndKey_of_eq rfl rfl)
  · refine (writeRegister_keepsFaultAndKey s off v).imp_right fun ⟨hoff, hv⟩ => ?_
    subst hoff
    exact ⟨width_of_ctrl_writeAllowed hok, rfl, hv⟩

theorem eq_base_add_of_windowOffset {c : Config} {addr off : Nat} (h : windowOffset c addr = some off) :
    addr = c.base + off := by
  unfold windowOffset at h
  split at h
  · cases h
    omega
  · cases h

/-- A host access keeps FAULT and KV, unless it is the CTRL write of a soft reset (10_state.md rule R41). -/
theorem hostAccess_keepsFaultAndKey (a : Access) (s : State) :
    KeepsFaultAndKey s (hostAccess a s) ∨
      ∃ v : Reg32, a = .write 32 (s.config.base + 0x01C) v ∧ v.getLsbD 0 = true := by
  cases a with
  | read width addr =>
    obtain ⟨v, n, f, hr, hf⟩ := hostAccess_read_frame s width addr
    rw [hr]
    exact .inl ⟨hf, id⟩
  | write width addr v =>
    cases hw : windowOffset s.config addr with
    | none =>
      simp only [hostAccess, hw]
      exact .inl (keepsFaultAndKey_of_eq rfl rfl)
    | some off =>
      simp only [hostAccess, hw]
      refine (hostWrite_keepsFaultAndKey s width off v).imp_right fun ⟨hwidth, hoff, hv⟩ => ⟨v, ?_, hv⟩
      rw [eq_base_add_of_windowOffset hw, hwidth, hoff]

/-- A step keeps FAULT and KV, unless its turn is a hard reset or the CTRL write of a soft reset. -/
theorem step_keepsFaultAndKey (h : step s = .next t) :
    KeepsFaultAndKey s t ∨ ∃ rest, s.schedule = .hardReset :: rest ∨
      ∃ v : Reg32, s.schedule = .host (.write 32 (s.config.base + 0x01C) v) :: rest ∧ v.getLsbD 0 = true := by
  obtain ⟨rest, ht⟩ | ⟨a, rest, ht⟩ | ⟨rest, ht⟩ := turn_cases s
  · rw [step_of_coreHasTurn ht] at h
    obtain ⟨hf, hk⟩ := coreTurn_keepsFaultAndKey h
    exact .inl ⟨hf, hk⟩
  · rw [step_of_host ht] at h
    cases h
    obtain ⟨hf, hk⟩ | ⟨v, rfl, hv⟩ := hostAccess_keepsFaultAndKey a { s with schedule := rest }
    · exact .inl ⟨hf, hk⟩
    · exact .inr ⟨rest, .inr ⟨v, ht, hv⟩⟩
  · exact .inr ⟨rest, .inl ht⟩

end FaultAndKey

/-- Settles O19: a step whose turn is neither reset keeps FAULT and KV. -/
theorem onlyResetClearsFaultOrKey : Obligations.OnlyResetClearsFaultOrKey := by
  intro s t h hlost
  refine (step_keepsFaultAndKey h).resolve_left fun ⟨hf, hk⟩ => ?_
  obtain ⟨hs, ht⟩ | ⟨hs, ht⟩ := hlost
  · cases ht.symm.trans (hf hs)
  · cases ht.symm.trans (hk hs)

/-! ## Every schedule ends with the core idle (rule R179) -/

section Turns

variable {s t : State}

/-- After the core's turn no command is pending, and the turns to come are as before. -/
theorem coreTurn_ends_idle (h : coreTurn s = .next t) : t.busy = false ∧ t.schedule = s.schedule := by
  cases hb : s.busy with
  | false =>
    rw [coreTurn_of_idle hb] at h
    cases h
    exact ⟨hb, rfl⟩
  | true =>
    rw [coreTurn_of_busy hb] at h
    obtain ⟨e, u, hu, rfl⟩ := coreStep_completes h
    exact ⟨complete_busy e u, hu.schedule⟩

theorem hostWrite_schedule (s : State) (width off : Nat) (v : Reg32) :
    (hostWrite s width off v).schedule = s.schedule := by
  obtain hw | hw | ⟨a, l, -, hw⟩ | ⟨hok, hw⟩ := hostWrite_cases s width off v <;> rw [hw]
  · rfl
  · obtain hw | hw | ⟨-, hw⟩ | ⟨-, hw⟩ | hw := writeRegister_cases hok v <;> rw [hw] <;> rfl

theorem hostAccess_schedule (a : Access) (s : State) : (hostAccess a s).schedule = s.schedule := by
  cases a with
  | read width addr =>
    obtain ⟨v, n, f, hr, -⟩ := hostAccess_read_frame s width addr
    rw [hr]
  | write width addr v =>
    simp only [hostAccess]
    split
    · exact hostWrite_schedule s width _ v
    · rfl

/-- A step takes the due turn off the schedule (log entry 6). -/
theorem step_schedule (h : step s = .next t) : t.schedule = s.schedule.tail := by
  obtain ⟨rest, ht⟩ | ⟨a, rest, ht⟩ | ⟨rest, ht⟩ := turn_cases s
  · rw [step_of_coreHasTurn ht] at h
    have hrest : t.schedule = rest := (coreTurn_ends_idle h).2
    obtain ht | ⟨ht, rfl⟩ := ht <;> rw [hrest, ht] <;> rfl
  · rw [step_of_host ht] at h
    cases h
    rw [hostAccess_schedule, ht, List.tail_cons]
  · rw [step_of_hardReset ht] at h
    cases h
    rw [hardReset_schedule, ht, List.tail_cons]

end Turns

/-- Settles O8, by induction on the turns to come: each step takes one, and the core has the turn after the last. -/
theorem everyScheduleEndsIdle : Obligations.EveryScheduleEndsIdle := by
  intro s
  generalize hl : s.schedule = l
  induction l generalizing s with
  | nil =>
    obtain ⟨t, ht⟩ := coreTurn_answers_next { s with schedule := [] }
    refine ⟨t, ?_, coreTurn_ends_idle ht⟩
    exact (run_one s).trans ((step_of_coreHasTurn (.inr ⟨hl, rfl⟩)).trans ht)
  | cons turn rest ih =>
    obtain ⟨u, hu⟩ := step_answers_next s
    have hrest : u.schedule = rest := by rw [step_schedule hu, hl, List.tail_cons]
    obtain ⟨t, ht⟩ := ih u hrest
    exact ⟨t, by rwa [List.length_cons, run_succ_of_step hu]⟩

end Sys2Proof.Machine
end
